-- ==== Sys2Proof/Word.lean ====
section
/-! DEFINITION. The word and byte types of the block. -/

namespace Sys2Proof

/-- `u32` of rule R10 (00_scope.md): the width of every operation word, register and memory access. -/
abbrev Word := BitVec 32

/-- One byte of the byte-addressed buffer memory (rule R60). -/
abbrev Byte := BitVec 8

end Sys2Proof
end

