-- ==== Sys2Proof/Config.lean ====
section
/-! DEFINITION. The configuration record `cfg` (rule R7), the environment's choices, and the free
values of the model: constants without a body, of which nothing in Lean can prove a value. -/

namespace Sys2Proof

/-- The configuration record of rule R7. The mappings CHANMAP, OUTMAP and LINEBIT (rules R7, R190) are
tables, so that the record is plain data: `chanMap` lists CHANMAP(line, slot) at `line*CPL + slot`,
`outMap` lists OUTMAP(ch) at `ch`, `lineBit` lists LINEBIT(i, c) at `i*BPL + c`. How the words of a frame
concatenate, which rule R197 makes replaceable, is `wordPlace`: at `w` the place, counted in streams of
BPL bits from the least significant, that capture word `w` of a frame takes in a line's FB bits (log 3). -/
structure Cfg where
  frames : Nat
  nlines : Nat
  wpf : Nat
  cpl : Nat
  nout : Nat
  ocpl : Nat
  taps : Nat
  k0 : List Int
  k1 : List Int
  outShift : Nat
  clampHi : Int
  clampLo : Int
  chanMap : List Nat
  outMap : List (Nat × Nat)
  lineBit : List Nat
  wordPlace : List Nat
  memSize : Nat
deriving DecidableEq, Repr

/-- A choice of the environment: which agent steps next (rules R13, R70) and every value the step
draws (rules R11, R141, R161, R162, R165). -/
inductive Turn where
  /-- The host presents a transaction (rule R91). -/
  | host (opw wdata : Word)
  /-- The host reads a word of MEM on its own path (rule R74). -/
  | hostRead (addr : Word)
  /-- The host writes a word of MEM on its own path (rule R74). -/
  | hostWrite (addr data : Word)
  /-- Ring engine `r` steps; `w` is the word the serial timing engine offers (rule R141). -/
  | ring (r : BitVec 4) (w : Word)
  /-- The sequencer steps; `d` is what the step draws: t0, t1, the half PROBE reports, or what an access at an
  address that MemRead and MemWrite exclude does (log 21). -/
  | seq (d : Word)
  /-- The hardware reset input (rule R290). -/
  | reset
deriving DecidableEq, Repr, Inhabited

/-- FREE VALUE (log 1): the environment's choice number `n`, when none has been laid down. -/
opaque Config.freeTurn (n : Nat) : Turn

/-- FREE VALUE (log 5, rules R48, R293): a byte of MEM that nothing has written since reset number
`epoch`. It is fixed once drawn. -/
opaque Config.unwrittenByte (epoch addr : Nat) : Byte

/-- FREE VALUE (log 4, rule R48): CW after reset number `epoch`. -/
opaque Config.unsetCW (epoch : Nat) : Word

/-- FREE VALUE (log 4, rule R48): LB[i] after reset number `epoch`, before it is cut to FB bits. -/
opaque Config.unsetLB (epoch i : Nat) : Nat

/-- FREE VALUE (log 4, rule R48): PH[r] after reset number `epoch`. -/
opaque Config.unsetPH (epoch r : Nat) : Bool

/-- FREE VALUE (log 4, rule R48): BASE[r] after reset number `epoch`. -/
opaque Config.unsetBase (epoch r : Nat) : Word

/-- FREE VALUE (log 4, rule R48): Y[p] after reset number `epoch`. -/
opaque Config.unsetY (epoch p : Nat) : Word

/-- FREE VALUE (log 4, rule R48): ACC[p] after reset number `epoch`. -/
opaque Config.unsetAcc (epoch p : Nat) : Int

/-- FREE VALUE (log 4, rule R48): X[ch][f] after reset number `epoch`. -/
opaque Config.unsetX (epoch ch f : Nat) : Word

end Sys2Proof
end

