-- ==== Sys2Proof/Syntax.lean ====
section
/-! DEFINITION. The operations of the block: one constructor per row of the opcode table (rule R99). -/

namespace Sys2Proof

/-- The phase operand P of format F (rule R97): which of the two kernels, accumulators and result
registers an operation names. -/
inductive Phase where
  | zero
  | one
deriving DecidableEq, Repr, Inhabited

/-- The 25 operations (rule R99). Operand fields have the widths of rules R92 to R97 and are unsigned
(rule R98). WRREG's data is no operand: it travels in WDATA. -/
inductive Instr where
  | nop
  | rdreg (off : BitVec 12)
  | wrreg (off : BitVec 12)
  | cfg (ring : BitVec 4)
  | start
  | arm
  | stop
  | srst
  | movi (ring : BitVec 4)
  | movo (ring : BitVec 4)
  | rld (ring : BitVec 4)
  | enter
  | probe (ring : BitVec 4)
  | ldw (k : BitVec 16)
  | stw (p : Phase) (ch : BitVec 7) (m : BitVec 8)
  | leave
  | expand (b : Byte)
  | deint (k : BitVec 16)
  | asm (k : BitVec 16)
  | hsh (ch : BitVec 7)
  | hpu (ch : BitVec 7) (m : BitVec 8)
  | clr (p : Phase)
  | mac (p : Phase) (ch : BitVec 7) (m : BitVec 8) (j : BitVec 8)
  | sat (p : Phase)
  | shl (p : Phase)
deriving DecidableEq, Repr

end Sys2Proof
end

