-- ==== Sys2Proof/Machine/Geometry.lean ====
section
/-! DEFINITION. The derived sizes of a configuration (rules R7, R8, R27), its constraints, its default
mappings, and the three named test configurations of 95_test_vectors.md. -/

namespace Sys2Proof

namespace Cfg

/-- BPL, bits per line per capture word (rule R7). -/
def bpl (c : Cfg) : Nat := 32 / c.nlines

/-- FB, bits per line per frame (rule R7). -/
def fb (c : Cfg) : Nat := c.wpf * c.bpl

/-- SLOT_BITS, width of one sample slot on a line (rule R7). -/
def slotBits (c : Cfg) : Nat := c.fb / c.cpl

/-- CHANNELS (rule R7). -/
def channels (c : Cfg) : Nat := c.nlines * c.cpl

/-- NRINGS (rule R7). -/
def nrings (c : Cfg) : Nat := 1 + c.nout

/-- CAPLEN, words in a capture half-block (rule R8). -/
def capLen (c : Cfg) : Nat := c.frames * c.wpf

/-- PBLEN, words in a playback half-block (rule R8). -/
def pbLen (c : Cfg) : Nat := 2 * c.frames * c.ocpl

/-- The block length rule R8 requires of ring `r` (`want` of rule R123). -/
def ringLen (c : Cfg) (r : Nat) : Nat := if r = 0 then c.capLen else c.pbLen

/-- Entries in the window of a channel (rule R8). -/
def window (c : Cfg) : Nat := c.taps - 1 + c.frames

/-- PLEN, the length of the micro-program (rule R27). -/
def plen (c : Cfg) : Nat :=
  2 + c.nrings + c.frames * (2 * c.wpf + 1) +
    c.channels * (1 + c.frames + 2 * c.frames * (c.taps + 4))

/-- The kernel of a phase (rule R220): `K0` or `K1`, read as 0 outside 0..TAPS-1. -/
def coeff (c : Cfg) (p : Phase) (j : Nat) : Int :=
  match p with
  | .zero => c.k0.getD j 0
  | .one => c.k1.getD j 0

/-- CHANMAP(line, slot) (rule R7). -/
def chanOf (c : Cfg) (line slot : Nat) : Nat := c.chanMap.getD (line * c.cpl + slot) 0

/-- OUTMAP(ch) (rule R7): playback line and output slot. -/
def outOf (c : Cfg) (ch : Nat) : Nat × Nat := c.outMap.getD ch (0, 0)

/-- LINEBIT(i, cyc) (rule R190): the bit of a capture word that line `i` carries at cycle `cyc`. -/
def lineBitOf (c : Cfg) (i cyc : Nat) : Nat := c.lineBit.getD (i * c.bpl + cyc) 0

/-- The place of capture word `w` of a frame in a line's FB bits (rules R194, R197). -/
def wordPlaceOf (c : Cfg) (w : Nat) : Nat := c.wordPlace.getD w 0

/-- The default CHANMAP, `line*CPL + slot` (rule R7). -/
def defaultChanMap (nlines cpl : Nat) : List Nat := List.range (nlines * cpl)

/-- The default OUTMAP, `(ch div OCPL, ch mod OCPL)` (rule R7). -/
def defaultOutMap (channels ocpl : Nat) : List (Nat × Nat) :=
  (List.range channels).map fun ch => (ch / ocpl, ch % ocpl)

/-- The default LINEBIT, `NLINES*c + i` (rule R190). -/
def defaultLineBit (nlines : Nat) : List Nat :=
  (List.range 32).map fun n => nlines * (n % (32 / nlines)) + n / (32 / nlines)

/-- The default concatenation of a frame's words, `WPF - 1 - w`: the earlier word more significant
(rule R194). -/
def defaultWordPlace (wpf : Nat) : List Nat := (List.range wpf).map fun w => wpf - 1 - w

/-- The constraints column of rule R7, with LINEBIT a bijection onto the 32 bits and the words' places a
bijection onto 0..WPF-1 (rule R197). -/
abbrev Valid (c : Cfg) : Prop :=
  (1 ≤ c.frames ∧ c.frames ≤ 255) ∧
  (c.nlines = 1 ∨ c.nlines = 2 ∨ c.nlines = 4) ∧
  (1 ≤ c.wpf ∧ c.frames * c.wpf ≤ 65535) ∧
  (1 ≤ c.cpl ∧ c.slotBits * c.cpl = c.fb) ∧
  (c.slotBits = 8 ∨ c.slotBits = 16 ∨ c.slotBits = 24 ∨ c.slotBits = 32) ∧
  c.channels ≤ 128 ∧
  (1 ≤ c.nout ∧ c.nout ≤ 15 ∧ c.nout * c.ocpl = c.channels) ∧
  (1 ≤ c.ocpl ∧ 2 * c.frames * c.ocpl ≤ 65535) ∧
  (1 ≤ c.taps ∧ c.taps ≤ 256) ∧
  (c.k0.length = c.taps ∧ c.k1.length = c.taps) ∧
  (∀ k ∈ c.k0 ++ c.k1, -32768 ≤ k ∧ k ≤ 32767) ∧
  (c.outShift = 1 ∨ c.outShift = 3) ∧
  (c.clampLo ≤ 0 ∧ 0 ≤ c.clampHi) ∧
  (c.clampHi * 2 ^ c.outShift ≤ 2 ^ 31 - 1 ∧ -(2 ^ 31) ≤ c.clampLo * 2 ^ c.outShift) ∧
  (c.chanMap.length = c.channels ∧ c.chanMap.Nodup ∧ ∀ ch ∈ c.chanMap, ch < c.channels) ∧
  (c.outMap.length = c.channels ∧ c.outMap.Nodup ∧
    ∀ lq ∈ c.outMap, lq.1 < c.nout ∧ lq.2 < c.ocpl) ∧
  (c.lineBit.length = 32 ∧ c.lineBit.Nodup ∧ ∀ b ∈ c.lineBit, b < 32) ∧
  (c.wordPlace.length = c.wpf ∧ c.wordPlace.Nodup ∧ ∀ n ∈ c.wordPlace, n < c.wpf) ∧
  (c.memSize % 4 = 0 ∧ c.memSize ≤ 2 ^ 32)

/-- A configuration with the default mappings and clamp bounds of rule R7. -/
def withDefaults (frames nlines wpf cpl nout ocpl taps : Nat) (k0 k1 : List Int)
    (outShift memSize : Nat) : Cfg where
  frames := frames
  nlines := nlines
  wpf := wpf
  cpl := cpl
  nout := nout
  ocpl := ocpl
  taps := taps
  k0 := k0
  k1 := k1
  outShift := outShift
  clampHi := 2 ^ (31 - outShift) - 1
  clampLo := -(2 ^ (31 - outShift) - 1)
  chanMap := defaultChanMap nlines cpl
  outMap := defaultOutMap (nlines * cpl) ocpl
  lineBit := defaultLineBit nlines
  wordPlace := defaultWordPlace wpf
  memSize := memSize

/-- TC-S (95_test_vectors.md): the default geometry with the spec's own test kernels. -/
def tcS : Cfg := withDefaults 4 2 2 1 2 1 3 [2, 5, -1] [-1, 4, 3] 1 0x10000

/-- TC-MIN (95_test_vectors.md). -/
def tcMin : Cfg := withDefaults 1 1 1 1 1 1 2 [3, 1] [-2, 4] 1 0x1000

/-- TC-SAT (95_test_vectors.md), with OUT_SHIFT 1 or 3. -/
def tcSat (outShift : Nat) : Cfg :=
  withDefaults 2 1 1 1 1 1 2 [127, 127] [-128, -128] outShift 0x1000

end Cfg

end Sys2Proof
end

