-- ==== Sys2Proof/Machine/State.lean ====
section
/-! DEFINITION. The machine's state (rule R20), its reset value (rules R48, R290), and the model's
stops. -/

namespace Sys2Proof.Machine

/-- A half of a BufferPair: `a` is the half at ADDRA (0), `b` the half at ADDRB (1) (rule R23). -/
inductive Half where
  | a
  | b
deriving DecidableEq, Repr, Inhabited

/-- Who executes the operation of a step (*Issuer* of rule R12; rule R275). -/
inductive Issuer where
  | host
  | ring (r : BitVec 4)
  | seq
deriving DecidableEq, Repr

/-- The status the host port answers with (rule R91). -/
inductive PortStatus where
  | ok
  | fault
deriving DecidableEq, Repr

/-- The events of a run (rule R46). -/
inductive Event where
  | capIn (addr w : Word)
  | pbOut (r : BitVec 4) (addr w : Word)
  | complete (r : BitVec 4)
  | statEntry (t0 : Word)
  | statExit (t1 : Word)
  | faulted (code : Byte) (opw : Word)
deriving DecidableEq, Repr

/-- One value for each phase. -/
structure PerPhase (α : Type) where
  zero : α
  one : α
deriving DecidableEq, Repr

/-- The registers of one ring (rules R39 to R45). DIR is hardwired by the ring's number and is not
stored; RSTAT.NEXT is `b` when the next reload installs ADDRB. -/
structure Ring where
  addrA : Word
  addrB : Word
  len : BitVec 16
  irqen : Bool
  pace : BitVec 4
  cur : Word
  rem : BitVec 16
  en : Bool
  next : Half
  cfgd : Bool
deriving DecidableEq, Repr

/-- MEM (rule R33): the bytes written since the last reset, as (address, byte) pairs with addresses
strictly rising. An address that is not listed holds no byte of its own; it reads as the free value
`Config.unwrittenByte` (log 5). -/
abbrev Memory := List Host.Cell

/-- The state: rule R20 first, then the host's port (rules R91, R74), then the model's own fields
(INVENTORY.md, State). -/
structure State where
  cfg : Cfg
  started : Bool
  armed : Bool
  busy : Bool
  halt : Bool
  irq : Word
  faultCode : Byte
  faultOp : Word
  upc : Word
  rings : List Ring
  cw : Word
  lb : List Nat
  ph : List Half
  base : List Word
  y : PerPhase Word
  acc : PerPhase Int
  x : List (List Word)
  h : List (List Int)
  mem : Memory
  opw : Word
  wdata : Word
  rdata : Word
  status : PortStatus
  mdata : Word
  issuer : Issuer
  draw : Word
  epoch : Nat
  turns : List Turn
  tick : Nat
  events : List Event
deriving DecidableEq, Repr

/-- The model's own stops. They are not the block's faults, which are taken as next states by
`raiseFault` (rule R262). -/
inductive Fault where
  /-- Raised by an access of the host's path to MEM (rule R74), or of a ring in a state no run reaches, at an
  address that is not a multiple of 4, which MemRead and MemWrite exclude (rule R11; log 7). Safe: the model
  stops where the spec has no step. -/
  | misalignedAccess
  /-- Raised by an access of the host's path to MEM (rule R74), or of a ring in a state no run reaches, at an
  aligned address whose word does not lie inside MEM, which MemRead and MemWrite exclude (rules R11, R60;
  log 7). Safe: the model stops where the spec has no step. -/
  | addressOutsideMemory
deriving DecidableEq, Repr

/-- The model's refusals. -/
inductive Refusal where
  /-- Raised by `exec` alone, for an operation that has no meaning yet. Safe. No arm of this model
  raises it. -/
  | notModelled (mnemonic : String)
  /-- Raised when a ring engine or the sequencer would present an operation that the spec says it never
  forms: an operation of another issuer, or a field out of range for `cfg` (rules R100, R275; log 8).
  Safe: no step of the spec is refused. -/
  | neverFormed
deriving DecidableEq, Repr

/-- A ring's registers after reset (rule R48). -/
def Ring.reset : Ring where
  addrA := 0
  addrB := 0
  len := 0
  irqen := false
  pace := 0
  cur := 0
  rem := 0
  en := false
  next := .a
  cfgd := false

/-- The half a free bit names. -/
def Half.ofBool : Bool → Half
  | false => .a
  | true => .b

/-- The state after reset number `epoch` of a block with configuration `c` (rules R48, R290): what
rule R48 calls unspecified takes that epoch's free values (logs 4, 5), the ports and the model's own
fields the values of log 6. -/
def State.resetWith (c : Cfg) (epoch : Nat) : State where
  cfg := c
  started := false
  armed := false
  busy := false
  halt := false
  irq := 0
  faultCode := 0
  faultOp := 0
  upc := 0
  rings := List.replicate c.nrings Ring.reset
  cw := Config.unsetCW epoch
  lb := (List.range c.nlines).map fun i => Config.unsetLB epoch i % 2 ^ c.fb
  ph := (List.range c.nrings).map fun r => Half.ofBool (Config.unsetPH epoch r)
  base := (List.range c.nrings).map fun r => Config.unsetBase epoch r
  y := ⟨Config.unsetY epoch 0, Config.unsetY epoch 1⟩
  acc := ⟨Config.unsetAcc epoch 0, Config.unsetAcc epoch 1⟩
  x := (List.range c.channels).map fun ch => (List.range c.frames).map fun f =>
    Config.unsetX epoch ch f
  h := List.replicate c.channels (List.replicate c.window 0)
  mem := []
  opw := 0
  wdata := 0
  rdata := 0
  status := .ok
  mdata := 0
  issuer := .host
  draw := 0
  epoch := epoch
  turns := []
  tick := 0
  events := []

/-- The machine right after power-on reset, for the configuration TC-S of 95_test_vectors.md (log 2).
Every statement about reset is made of `State.resetWith c 0` for every valid `c`. -/
def State.reset : State := State.resetWith Cfg.tcS 0

end Sys2Proof.Machine
end

