-- ==== Sys2Proof/Machine/Operands.lean ====
section
/-! DEFINITION. Operand forms: which field values are legal for a configuration (rules R94 to R97),
what a register offset names (rule R34), and the fields of a channel's indices. -/

namespace Sys2Proof.Machine

/-- RING in 0..NOUT (rule R94). -/
def ringLegal (c : Cfg) (r : BitVec 4) : Bool := decide (r.toNat ≤ c.nout)

/-- RING in 1..NOUT: a playback ring (rules R99, R142). -/
def playbackLegal (c : Cfg) (r : BitVec 4) : Bool := decide (1 ≤ r.toNat ∧ r.toNat ≤ c.nout)

/-- RING = 0: the capture ring (rules R99, R141). -/
def captureLegal (r : BitVec 4) : Bool := decide (r = 0)

/-- K as a capture word index, below CAPLEN (rules R95, R163). -/
def wordIndexLegal (c : Cfg) (k : BitVec 16) : Bool := decide (k.toNat < c.capLen)

/-- K as a word-in-frame index, below WPF (rules R95, R194). -/
def frameWordLegal (c : Cfg) (k : BitVec 16) : Bool := decide (k.toNat < c.wpf)

/-- K as a frame index, below FRAMES (rules R95, R195). -/
def frameLegal (c : Cfg) (k : BitVec 16) : Bool := decide (k.toNat < c.frames)

/-- CH below CHANNELS (rule R97). -/
def channelLegal (c : Cfg) (ch : BitVec 7) : Bool := decide (ch.toNat < c.channels)

/-- M below FRAMES (rule R97). -/
def blockFrameLegal (c : Cfg) (m : BitVec 8) : Bool := decide (m.toNat < c.frames)

/-- J below TAPS (rule R97). -/
def tapLegal (c : Cfg) (j : BitVec 8) : Bool := decide (j.toNat < c.taps)

/-- A register of one ring (rule R34). -/
inductive RingReg where
  | addrA
  | addrB
  | len
  | rctrl
  | cur
  | rem
  | rstat
deriving DecidableEq, Repr

/-- A register of the register space (rule R34). -/
inductive Reg where
  | ctrl
  | irq
  | fault
  | faultOp
  | upc
  | ring (r : Nat) (f : RingReg)
deriving DecidableEq, Repr

/-- The register at a byte offset inside a ring's block of 0x20 bytes (rule R34). -/
def ringRegAt (off : Nat) : Option RingReg :=
  match off with
  | 0x00 => some .addrA
  | 0x04 => some .addrB
  | 0x08 => some .len
  | 0x0C => some .rctrl
  | 0x10 => some .cur
  | 0x14 => some .rem
  | 0x18 => some .rstat
  | _ => none

/-- The register map of rule R34: `none` for an offset that is misaligned or unmapped. -/
def regAt (c : Cfg) (off : Nat) : Option Reg :=
  if off < 0x100 then
    match off with
    | 0x000 => some .ctrl
    | 0x004 => some .irq
    | 0x008 => some .fault
    | 0x00C => some .faultOp
    | 0x010 => some .upc
    | _ => none
  else if (off - 0x100) / 0x20 ≤ c.nout then
    (ringRegAt ((off - 0x100) % 0x20)).map (Reg.ring ((off - 0x100) / 0x20))
  else none

/-- The value of a phase (rule R9: the bit P). -/
def phaseIndex : Phase → Nat
  | .zero => 0
  | .one => 1

/-- The half a register bit of value 0 or 1 names (rule R23). -/
def halfBit : Half → Nat
  | .a => 0
  | .b => 1

/-- The opposite half (rule R24). -/
def otherHalf : Half → Half
  | .a => .b
  | .b => .a

/-- The component of a phase. -/
def PerPhase.get {α : Type} (v : PerPhase α) : Phase → α
  | .zero => v.zero
  | .one => v.one

/-- Writing the component of a phase. -/
def PerPhase.set {α : Type} (v : PerPhase α) (p : Phase) (a : α) : PerPhase α :=
  match p with
  | .zero => { v with zero := a }
  | .one => { v with one := a }

/-- Element `i` of row `r` of a file such as X or H (rules R30, R31). -/
def fileAt {α : Type} (file : List (List α)) (r i : Nat) (d : α) : α := (file.getD r []).getD i d

/-- Writing element `i` of row `r` of a file. -/
def fileSet {α : Type} (file : List (List α)) (r i : Nat) (v : α) : List (List α) :=
  file.modify r fun row => row.set i v

end Sys2Proof.Machine
end

