-- ==== Sys2Proof/Machine/Flags.lean ====
section
/-! DEFINITION. The flag and status registers as words (rules R35 to R38, R42, R45, R49), and every
computation of a flag: pending bits (R36), EN, NEXT and CFGD (R45). The block has no arithmetic
condition codes (R28). -/

namespace Sys2Proof.Machine

/-- A flag at bit `n` of a word. -/
def flagAt (b : Bool) (n : Nat) : Nat := b.toNat * 2 ^ n

/-- CTRL as the host reads it (rule R35). -/
def State.ctrlWord (s : State) : Word :=
  BitVec.ofNat 32 (flagAt s.started 0 + flagAt s.armed 1 + flagAt s.busy 2 + flagAt s.halt 3)

/-- The bits of IRQ that exist, 0..NOUT (rule R36). -/
def irqMask (c : Cfg) : Word := BitVec.ofNat 32 (2 ^ (c.nout + 1) - 1)

/-- IRQ as the host reads it: bits above NOUT read as 0 (rule R36). -/
def State.irqWord (s : State) : Word := s.irq &&& irqMask s.cfg

/-- PEND[r] (rule R36). -/
def State.pend (s : State) (r : Nat) : Bool := s.irq.getLsbD r

/-- IRQ with PEND[r] set (rules R36, R143). -/
def setPend (irq : Word) (r : Nat) : Word := irq ||| BitVec.twoPow 32 r

/-- IRQ with PEND[r] cleared (rules R36, R161). -/
def clearPend (irq : Word) (r : Nat) : Word := irq &&& ~~~(BitVec.twoPow 32 r)

/-- IRQ after the host writes `data` to it: write-1-to-clear on bits 0..NOUT (rules R36, R122). -/
def writeIrq (c : Cfg) (irq data : Word) : Word := irq &&& ~~~(data &&& irqMask c)

/-- DIR, hardwired by the ring's number (rule R42): 0 for the capture ring, 1 for a playback ring. -/
def dirBit (r : Nat) : Bool := decide (r ≠ 0)

/-- RCTRL of ring `r` as the host reads it (rule R42). -/
def rctrlWord (r : Nat) (g : Ring) : Word :=
  BitVec.ofNat 32 (flagAt (dirBit r) 0 + flagAt g.irqen 1 + g.pace.toNat * 2 ^ 4)

/-- RCTRL's fields after the host writes `data` to it (rules R42, R122). -/
def writeRctrl (data : Word) (g : Ring) : Ring :=
  { g with irqen := data.getLsbD 1, pace := data.extractLsb' 4 4 }

/-- RSTAT as the host reads it (rule R45). -/
def rstatWord (g : Ring) : Word :=
  BitVec.ofNat 32 (flagAt g.en 0 + halfBit g.next * 2 ^ 1 + flagAt g.cfgd 2)

/-- A ring with EN cleared (rules R45, R262). -/
def Ring.disable (g : Ring) : Ring := { g with en := false }

/-- A ring with EN set (rule R124). -/
def Ring.enable (g : Ring) : Ring := { g with en := true }

/-- A ring as STOP leaves it: EN and CFGD cleared (rule R126). -/
def Ring.halted (g : Ring) : Ring := { g with en := false, cfgd := false }

/-- A ring whose registers the host has written: CFGD cleared (rules R39, R122). -/
def Ring.unconfigure (g : Ring) : Ring := { g with cfgd := false }

/-- The codes of rule R261, by name. -/
inductive FaultCode where
  | cfgSize
  | cfgAlign
  | cfgRange
  | cfgOverlap
  | cfgBusy
  | notReady
  | badReg
  | illegalOp
deriving DecidableEq, Repr

/-- The value recorded in FAULT.CODE (rule R261). -/
def faultNumber : FaultCode → Byte
  | .cfgSize => 1
  | .cfgAlign => 2
  | .cfgRange => 3
  | .cfgOverlap => 4
  | .cfgBusy => 5
  | .notReady => 6
  | .badReg => 7
  | .illegalOp => 8

end Sys2Proof.Machine
end

