-- ==== Sys2Proof/Machine/Ops.lean ====
section
/-! DEFINITION. The named operations every meaning is written over: memory (rules R11, R61 to R64), ring
and file access, the host port's answer (R91), taking a fault (R262) and leaving one (R127, R290),
and who may execute what (R129, R275). -/

namespace Sys2Proof.Machine

/-- The outcome of one operation. -/
abbrev Result := Host.Outcome State Fault Refusal

/-! ### Memory -/

/-- The byte listed at an address, if there is one. -/
def memGet (m : Memory) (a : Nat) : Option Byte :=
  match m with
  | [] => none
  | (a', b) :: rest => if a = a' then some b else memGet rest a

/-- List a byte at an address, keeping addresses strictly rising. -/
def memSet (m : Memory) (a : Nat) (b : Byte) : Memory :=
  match m with
  | [] => [(a, b)]
  | (a', b') :: rest =>
    if a < a' then (a, b) :: (a', b') :: rest
    else if a = a' then (a, b) :: rest
    else (a', b') :: memSet rest a b

/-- The canonical form of a memory: addresses strictly rising. An unlisted address holds no byte of its
own, so no entry can equal it (log 5). -/
abbrev Memory.wf (m : Memory) : Prop := m.Pairwise fun p q => p.1 < q.1

/-- Reading one byte of MEM: the byte written there since the last reset, or the free value of an
unwritten byte (rules R48, R293; log 5). -/
def State.byteAt (s : State) (a : Nat) : Byte :=
  (memGet s.mem a).getD (Config.unwrittenByte s.epoch a)

/-- The word at an address, least significant byte first (rule R61). -/
def State.wordAt (s : State) (a : Nat) : Word :=
  s.byteAt (a + 3) ++ s.byteAt (a + 2) ++ s.byteAt (a + 1) ++ s.byteAt a

/-- A memory with a word written at an address, least significant byte first (rule R61). -/
def setWord (m : Memory) (a : Nat) (v : Word) : Memory :=
  memSet (memSet (memSet (memSet m a (v.extractLsb' 0 8)) (a + 1) (v.extractLsb' 8 8))
    (a + 2) (v.extractLsb' 16 8)) (a + 3) (v.extractLsb' 24 8)

/-- What MemRead and MemWrite require of an address (rule R11), or the model's stop (log 7). -/
def accessStop (c : Cfg) (a : Nat) : Option Fault :=
  if a % 4 ≠ 0 then some .misalignedAccess
  else if c.memSize < a + 4 then some .addressOutsideMemory
  else none

/-- `MemRead(addr, 4)` (rule R11). -/
def State.memRead (s : State) (a : Nat) : Except Fault Word :=
  match accessStop s.cfg a with
  | some f => .error f
  | none => .ok (s.wordAt a)

/-- `MemWrite(addr, 4, v)` (rule R11). -/
def State.memWrite (s : State) (a : Nat) (v : Word) : Except Fault State :=
  match accessStop s.cfg a with
  | some f => .error f
  | none => .ok { s with mem := setWord s.mem a v }

/-- What MemRead gives the sequencer, which has no failing case (rules R160, R260): the word at the address,
or at an address that MemRead excludes the step's draw (log 21). -/
def State.loadWord (s : State) (a : Nat) : Word :=
  match accessStop s.cfg a with
  | none => s.wordAt a
  | some _ => s.draw

/-- The address at which a store of the sequencer changes MEM: the one it computes, or where MemWrite excludes
that one the step's draw, when it names a word of MEM (log 21). -/
def State.storePlace (s : State) (a : Nat) : Option Nat :=
  match accessStop s.cfg a, accessStop s.cfg s.draw.toNat with
  | none, _ => some a
  | some _, none => some s.draw.toNat
  | some _, some _ => none

/-- What MemWrite does for the sequencer, which has no failing case (rules R160, R260; log 21). -/
def State.storeWord (s : State) (a : Nat) (v : Word) : State :=
  match s.storePlace a with
  | some b => { s with mem := setWord s.mem b v }
  | none => s

/-- Go on with what a memory access of a ring or of the host's path gives, or stop as it stops (log 7). -/
def orStop {α : Type} (e : Except Fault α) (k : α → State) : Result :=
  match e with
  | .error f => .fault f
  | .ok v => .next (k v)

/-! ### Rings -/

/-- The registers of ring `r`. -/
def State.ringAt (s : State) (r : Nat) : Ring := s.rings.getD r Ring.reset

/-- Change the registers of ring `r`. -/
def State.modifyRing (s : State) (r : Nat) (f : Ring → Ring) : State :=
  { s with rings := s.rings.modify r f }

/-- Change the registers of every ring, r in 0..NOUT. -/
def State.mapRings (s : State) (f : Ring → Ring) : State := { s with rings := s.rings.map f }

/-- `active` on a ring's registers (rule R145): the half CUR lies in, or none. -/
def Ring.active (g : Ring) : Option Half :=
  if !g.en then none
  else if g.addrA.toNat ≤ g.cur.toNat ∧ g.cur.toNat < g.addrA.toNat + 4 * g.len.toNat then some .a
  else if g.addrB.toNat ≤ g.cur.toNat ∧ g.cur.toNat < g.addrB.toNat + 4 * g.len.toNat then some .b
  else none

/-- `active(r)` (rule R145). -/
def State.active (s : State) (r : Nat) : Option Half := (s.ringAt r).active

/-- The base address of a half (rules R23, R39, R40). -/
def Ring.baseOf (g : Ring) : Half → Word
  | .a => g.addrA
  | .b => g.addrB

/-! ### Records, the micro-program counter, the host port -/

/-- `emit E` (rule R11): append an event to the history (rule R46), newest first. -/
def State.emit (s : State) (e : Event) : State := { s with events := e :: s.events }

/-- `UPC <- UPC + 1` (rule R27). -/
def State.advance (s : State) : State := { s with upc := s.upc + 1 }

/-- The port's answer to a transaction (rule R91). -/
def State.answer (s : State) (rdata : Word) (st : PortStatus) : State :=
  { s with rdata := rdata, status := st }

/-- Complete a transaction with status OK (rule R91). -/
def State.answerOk (s : State) (rdata : Word) : State := s.answer rdata .ok

/-! ### Taking a fault and leaving it -/

/-- `raise Fault(code)` (rule R262): the first fault is recorded and halts the block; in HALT nothing
new is recorded (rule R129). The transaction's word is the one latched at the port. -/
def raiseFault (code : FaultCode) (s : State) : State :=
  if s.halt then s.answer 0 .fault
  else
    { (((s.mapRings Ring.disable).emit (.faulted (faultNumber code) s.opw)).answer 0 .fault) with
      faultCode := faultNumber code
      faultOp := s.opw
      halt := true
      started := false
      armed := false }

/-- Reset, by SRST or by the reset input (rules R127, R290): every piece of the block's state takes its
reset value, with new free values where it is unspecified. The configuration, the port, the
environment's choices and the event history are not the block's state (logs 6, 11). -/
def State.toReset (s : State) : State :=
  { State.resetWith s.cfg (s.epoch + 1) with
    opw := s.opw
    wdata := s.wdata
    rdata := s.rdata
    status := s.status
    mdata := s.mdata
    issuer := s.issuer
    draw := s.draw
    turns := s.turns
    tick := s.tick
    events := s.events }

/-! ### Who executes what -/

/-- An operation the host executes while HALT = 0; in HALT it is answered FAULT (rule R129). No ring
and no sequencer forms it (rule R275; log 8). -/
def hostOp (s : State) (k : State → State) : Result :=
  match s.issuer with
  | .host => .next (if s.halt then s.answer 0 .fault else k s)
  | .ring _ => .refused .neverFormed
  | .seq => .refused .neverFormed

/-- An operation the host executes in HALT too: RDREG and SRST (rule R129). -/
def hostAnyOp (s : State) (k : State → State) : Result :=
  match s.issuer with
  | .host => .next (k s)
  | .ring _ => .refused .neverFormed
  | .seq => .refused .neverFormed

/-- An operation of ring engine `r` alone; from the host it raises ILLEGAL_OP (rules R129, R140,
R270). An engine forms only its own operations with a legal ring (rules R100, R275; log 8). -/
def ringOp (r : BitVec 4) (legal : Bool) (s : State) (k : State → Result) : Result :=
  match s.issuer with
  | .host => .next (raiseFault .illegalOp s)
  | .ring q => if q = r && legal then k s else .refused .neverFormed
  | .seq => .refused .neverFormed

/-- An operation of the sequencer alone; from the host it raises ILLEGAL_OP (rules R129, R270). The
sequencer forms only legal operations (rules R100, R166; log 8). -/
def seqOp (legal : Bool) (s : State) (k : State → Result) : Result :=
  match s.issuer with
  | .host => .next (raiseFault .illegalOp s)
  | .ring _ => .refused .neverFormed
  | .seq => if legal then k s else .refused .neverFormed

/-- A word that is `invalid` (rule R100): at the host port ILLEGAL_OP (rules R101, R270); no other
agent forms one. -/
def invalidWord (s : State) : Result :=
  match s.issuer with
  | .host => .next (raiseFault .illegalOp s)
  | .ring _ => .refused .neverFormed
  | .seq => .refused .neverFormed

end Sys2Proof.Machine
end

