-- ==== Sys2Proof/Machine/Deinterleaver.lean ====
section
/-! DEFINITION. The deinterleaver (43_deinterleaver.md): EXPAND, DEINT, ASM, and the functions EXPTAB,
COMBINE and FRAMESAMPLES. -/

namespace Sys2Proof.Machine

/-- The number whose bit `c` is `f c` for `c < n`, and 0 from bit `n` on: `sum over c of f c << c`. -/
def natOfBits (f : Nat → Bool) : Nat → Nat
  | 0 => 0
  | n + 1 => natOfBits f n + (f n).toNat * 2 ^ n

/-- EXPTAB[b], `sum over k in 0..7 of b[k] << (2*k)` (rules R191, R192). -/
def expTab (b : Byte) : Word :=
  BitVec.ofNat 32 (natOfBits (fun n => n % 2 == 0 && b.getLsbD (n / 2)) 16)

/-- EXPAND b (rule R191). -/
def execExpand (b : Byte) (s : State) : Result := hostOp s fun s => s.answerOk (expTab b)

/-- The line stream s_i of a capture word (rule R190). -/
def lineStream (c : Cfg) (w : Word) (i : Nat) : Nat :=
  natOfBits (fun cyc => w.getLsbD (c.lineBitOf i cyc)) c.bpl

/-- A line buffer of FB bits with its BPL-bit field at `lo` replaced by a line's stream (rule R194). -/
def depositStream (c : Cfg) (cw : Word) (i lo v : Nat) : Nat :=
  natOfBits (fun n =>
    if lo ≤ n ∧ n < lo + c.bpl then cw.getLsbD (c.lineBitOf i (n - lo)) else v.testBit n) c.fb

/-- The `width`-bit field of `v` that starts at bit `lo`. -/
def extractField (v lo width : Nat) : Nat := v / 2 ^ lo % 2 ^ width

/-- The line buffers after DEINT of word-in-frame `w` (rule R194): each line's stream in the place `cfg`
gives the word, by default the earlier word more significant (rule R197). -/
def deintBuffers (c : Cfg) (cw : Word) (w : Nat) (lb : List Nat) : List Nat :=
  (List.range c.nlines).map fun i =>
    depositStream c cw i (c.wordPlaceOf w * c.bpl) (lb.getD i 0)

/-- DEINT w (rule R194). -/
def execDeint (k : BitVec 16) (s : State) : Result :=
  seqOp (frameWordLegal s.cfg k) s fun s =>
    .next { s with lb := deintBuffers s.cfg s.cw k.toNat s.lb }.advance

/-- The sample in slot `q` of a line's FB bits (rules R195, R196): slot 0 most significant, the slot's
bits sign-extended to an `i32`. THE MODEL'S CHOICE (log 24): another slot order, which rule R197 makes
replaceable, is expressed by permuting a line's entries of `chanMap`. -/
def slotSample (c : Cfg) (line q : Nat) : Word :=
  (BitVec.ofNat c.slotBits (extractField line (c.fb - (q + 1) * c.slotBits) c.slotBits)).signExtend 32

/-- The samples of one frame, each with its channel (rules R195, R196). -/
def frameSlots (c : Cfg) (lines : List Nat) : List (Nat × Word) :=
  (List.range c.nlines).flatMap fun i =>
    (List.range c.cpl).map fun q => (c.chanOf i q, slotSample c (lines.getD i 0) q)

/-- Store the samples of frame `f` in the staging file, each in its channel's row (rule R195). -/
def storeSamples (x : List (List Word)) (f : Nat) (samples : List (Nat × Word)) :
    List (List Word) :=
  match samples with
  | [] => x
  | (ch, v) :: rest => storeSamples (fileSet x ch f v) f rest

/-- ASM f (rule R195). -/
def execAsm (k : BitVec 16) (s : State) : Result :=
  seqOp (frameLegal s.cfg k) s fun s =>
    .next { s with x := storeSamples s.x k.toNat (frameSlots s.cfg s.lb) }.advance

/-! ### Functions -/

/-- `expand16` (rule R193): bit k of a 16-bit stream to bit 2k. -/
def expand16 (v : BitVec 16) : Word :=
  expTab (v.extractLsb' 0 8) ||| (expTab (v.extractLsb' 8 8) <<< 16)

/-- `spread4` (rule R193): bit k of a byte to bit 4k. -/
def spread4 (b : Byte) : Word := expand16 ((expTab b).extractLsb' 0 16)

/-- COMBINE (rule R193): the packing that DEINT inverts, for NLINES in 1, 2, 4 (default LINEBIT). -/
def combine (nlines : Nat) (streams : List Nat) : Word :=
  match nlines with
  | 1 => BitVec.ofNat 32 (streams.getD 0 0)
  | 2 => expand16 (BitVec.ofNat 16 (streams.getD 0 0)) |||
      (expand16 (BitVec.ofNat 16 (streams.getD 1 0)) <<< 1)
  | 4 => spread4 (BitVec.ofNat 8 (streams.getD 0 0)) |||
      (spread4 (BitVec.ofNat 8 (streams.getD 1 0)) <<< 1) |||
      (spread4 (BitVec.ofNat 8 (streams.getD 2 0)) <<< 2) |||
      (spread4 (BitVec.ofNat 8 (streams.getD 3 0)) <<< 3)
  | _ => 0

/-- The concatenation of a line's streams over the words of a frame, each at its word's place; by default
the first word's most significant (rules R196, R197). -/
def concatStreams (c : Cfg) (i : Nat) (ws : List Word) : Nat :=
  (ws.mapIdx fun w cw => lineStream c cw i * 2 ^ (c.wordPlaceOf w * c.bpl)).sum

/-- FRAMESAMPLES (rule R196): the samples of a frame, each with its channel, from its capture words in
arrival order. -/
def frameSamples (c : Cfg) (ws : List Word) : List (Nat × Word) :=
  frameSlots c ((List.range c.nlines).map fun i => concatStreams c i ws)

end Sys2Proof.Machine
end

