-- ==== Sys2Proof/Machine/FirUpsampler.lean ====
section
/-! DEFINITION. The FIR upsampler (44_fir_upsampler.md): HSH, HPU, PRESCALE and FIRBLK. -/

namespace Sys2Proof.Machine

/-- `asr(z, n)`, floor of z / 2^n (rule R10): division by a positive number rounds toward minus
infinity. -/
def asr (z : Int) (n : Nat) : Int := z / 2 ^ n

/-- PRE_SHIFT (rule R7). -/
def preShift : Nat := 8

/-- PRESCALE (rule R211): the arithmetic right shift of an `i32` by 8. -/
def prescale (x : Word) : Int := asr x.toInt preShift

/-- `clamp(z, lo, hi)` (rule R10). -/
def clamp (z lo hi : Int) : Int := if z < lo then lo else if hi < z then hi else z

/-- A channel's window after HSH (rule R213): entries 0..TAPS-2 are a snapshot's entries FRAMES on, the
others keep their values. -/
def shiftWindow (c : Cfg) (old : List Int) : List Int :=
  old.mapIdx fun i v => if i < c.taps - 1 then old.getD (c.frames + i) 0 else v

/-- HSH ch (rule R213). -/
def execHsh (ch : BitVec 7) (s : State) : Result :=
  seqOp (channelLegal s.cfg ch) s fun s =>
    .next { s with h := s.h.modify ch.toNat (shiftWindow s.cfg) }.advance

/-- HPU ch, m (rule R214). -/
def execHpu (ch : BitVec 7) (m : BitVec 8) (s : State) : Result :=
  seqOp (channelLegal s.cfg ch && blockFrameLegal s.cfg m) s fun s =>
    .next { s with
      h := fileSet s.h ch.toNat (s.cfg.taps - 1 + m.toNat)
        (prescale (fileAt s.x ch.toNat m.toNat 0)) }.advance

/-! ### The block function -/

/-- `sum over j in 0..n-1 of Kp[j] * w[TAPS-1+m-j]` (rules R215, R232), exact in Z. -/
def firSum (c : Cfg) (p : Phase) (w : List Int) (m : Nat) : Nat → Int
  | 0 => 0
  | j + 1 => firSum c p w m j + c.coeff p j * w.getD (c.taps - 1 + m - j) 0

/-- One output sample (rules R215, R233, R234). -/
def firOut (c : Cfg) (p : Phase) (w : List Int) (m : Nat) : Int :=
  clamp (firSum c p w m c.taps) c.clampLo c.clampHi * 2 ^ c.outShift

/-- FIRBLK (rule R215): the output samples and the new DelayLine. -/
def firBlk (c : Cfg) (hist : List Int) (xs : List Word) : List Int × List Int :=
  let w := hist ++ xs.map prescale
  ((List.range xs.length).flatMap fun m => [firOut c .zero w m, firOut c .one w m],
    w.drop (w.length - (c.taps - 1)))

/-- Feeding a DelayLine one chunk of samples after another (rule R216): the outputs in order and the last
DelayLine. -/
def firChunks (c : Cfg) (hist : List Int) : List (List Word) → List Int × List Int
  | [] => ([], hist)
  | xs :: rest =>
    let first := firBlk c hist xs
    let others := firChunks c first.2 rest
    (first.1 ++ others.1, others.2)

/-- The DelayLine of a window (rule R31): its trailing TAPS - 1 entries, oldest first. -/
def delayLine (c : Cfg) (row : List Int) : List Int := (row.drop c.frames).take (c.taps - 1)

end Sys2Proof.Machine
end

