-- ==== Sys2Proof/Machine/HostControl.lean ====
section
/-! DEFINITION. Host control operations (40_host_config.md): NOP, RDREG, WRREG, CFG, START, ARM, STOP,
SRST. -/

namespace Sys2Proof.Machine

/-- NOP (rule R120). -/
def execNop (s : State) : Result := hostOp s fun s => s.answerOk 0

/-- The value of a ring register (rules R39 to R45). -/
def readRingReg (r : Nat) (g : Ring) : RingReg → Word
  | .addrA => g.addrA
  | .addrB => g.addrB
  | .len => g.len.setWidth 32
  | .rctrl => rctrlWord r g
  | .cur => g.cur
  | .rem => g.rem.setWidth 32
  | .rstat => rstatWord g

/-- `reg[off]` (rules R35 to R38, R49). -/
def readReg (s : State) : Reg → Word
  | .ctrl => s.ctrlWord
  | .irq => s.irqWord
  | .fault => s.faultCode.setWidth 32
  | .faultOp => s.faultOp
  | .upc => s.upc
  | .ring r f => readRingReg r (s.ringAt r) f

/-- RDREG off (rule R121). -/
def execRdreg (off : BitVec 12) (s : State) : Result :=
  hostAnyOp s fun s =>
    match regAt s.cfg off.toNat with
    | none => raiseFault .badReg s
    | some reg => s.answerOk (readReg s reg)

/-- A ring's registers after the host writes `data` to one of them, or `none` for a read-only one
(rule R122). -/
def writeRingReg (data : Word) (g : Ring) : RingReg → Option Ring
  | .addrA => some { g with addrA := data }.unconfigure
  | .addrB => some { g with addrB := data }.unconfigure
  | .len => some { g with len := data.extractLsb' 0 16 }.unconfigure
  | .rctrl => some (writeRctrl data g).unconfigure
  | .cur => none
  | .rem => none
  | .rstat => none

/-- What WRREG does to a register of ring `r` (rule R122): read-only first, then the ring enabled
(rule R272). -/
def writeRing (r : Nat) (f : RingReg) (s : State) : State :=
  match writeRingReg s.wdata (s.ringAt r) f with
  | none => raiseFault .badReg s
  | some g =>
    if (s.ringAt r).en then raiseFault .badReg s
    else (s.modifyRing r fun _ => g).answerOk 0

/-- WRREG off, data (rule R122). -/
def execWrreg (off : BitVec 12) (s : State) : Result :=
  hostOp s fun s =>
    match regAt s.cfg off.toNat with
    | some .irq => { s with irq := writeIrq s.cfg s.irq s.wdata }.answerOk 0
    | some (.ring r f) => writeRing r f s
    | some .ctrl => raiseFault .badReg s
    | some .fault => raiseFault .badReg s
    | some .faultOp => raiseFault .badReg s
    | some .upc => raiseFault .badReg s
    | none => raiseFault .badReg s

/-- The checks of CFG on ring `r`, in order (rules R123, R272): the first that fails. -/
def cfgCheck (c : Cfg) (r : BitVec 4) (g : Ring) : Option FaultCode :=
  let bytes := 4 * g.len.toNat
  if !ringLegal c r then some .illegalOp
  else if g.en then some .cfgBusy
  else if g.len.toNat ≠ c.ringLen r.toNat then some .cfgSize
  else if g.addrA.toNat % bytes ≠ 0 ∨ g.addrB.toNat % bytes ≠ 0 then some .cfgAlign
  else if c.memSize < g.addrA.toNat + bytes ∨ c.memSize < g.addrB.toNat + bytes then some .cfgRange
  else if g.addrA = g.addrB then some .cfgOverlap
  else none

/-- The two descriptors CFG installs (rule R123). -/
def Ring.install (g : Ring) : Ring :=
  { g with cur := g.addrA, rem := g.len, next := .b, cfgd := true }

/-- CFG r (rule R123). -/
def execCfg (r : BitVec 4) (s : State) : Result :=
  hostOp s fun s =>
    match cfgCheck s.cfg r (s.ringAt r.toNat) with
    | some code => raiseFault code s
    | none => (s.modifyRing r.toNat Ring.install).answerOk 0

/-- START (rule R124). -/
def execStart (s : State) : Result :=
  hostOp s fun s =>
    if s.started then raiseFault .notReady s
    else if s.rings.any fun g => !g.cfgd then raiseFault .notReady s
    else { (s.mapRings Ring.enable) with started := true }.answerOk 0

/-- ARM (rule R125). -/
def execArm (s : State) : Result :=
  hostOp s fun s =>
    if !s.started || s.armed then raiseFault .notReady s
    else { s with irq := 0, armed := true }.answerOk 0

/-- STOP (rule R126). -/
def execStop (s : State) : Result :=
  hostOp s fun s =>
    { (s.mapRings Ring.halted) with started := false, armed := false }.answerOk 0

/-- SRST (rule R127). -/
def execSrst (s : State) : Result := hostAnyOp s fun s => s.toReset.answerOk 0

/-! ### The host's own path to MEM (rule R74), which has no operation word -/

/-- `HostRead(addr)` (rule R74); the word it returns stands in `mdata`. -/
def hostRead (a : Word) (s : State) : Result :=
  orStop (s.memRead a.toNat) fun w => { s with mdata := w }

/-- `HostWrite(addr, v)` (rule R74). -/
def hostWrite (a v : Word) (s : State) : Result := orStop (s.memWrite a.toNat v) fun t => t

end Sys2Proof.Machine
end

