-- ==== Sys2Proof/Machine/MacPipeline.lean ====
section
/-! DEFINITION. The saturating MAC pipeline (45_mac_pipeline.md): CLR, MAC, SAT, SHL. -/

namespace Sys2Proof.Machine

/-- CLR p (rule R231). -/
def execClr (p : Phase) (s : State) : Result :=
  seqOp true s fun s => .next { s with acc := s.acc.set p 0 }.advance

/-- The product MAC adds (rule R232): signed by signed, exact in Z. -/
def macTerm (p : Phase) (ch : BitVec 7) (m j : BitVec 8) (s : State) : Int :=
  s.cfg.coeff p j.toNat * fileAt s.h ch.toNat (s.cfg.taps - 1 + m.toNat - j.toNat) 0

/-- MAC p, ch, m, j (rule R232). -/
def execMac (p : Phase) (ch : BitVec 7) (m j : BitVec 8) (s : State) : Result :=
  seqOp (channelLegal s.cfg ch && blockFrameLegal s.cfg m && tapLegal s.cfg j) s fun s =>
    .next { s with acc := s.acc.set p (s.acc.get p + macTerm p ch m j s) }.advance

/-- SAT p (rule R233). -/
def execSat (p : Phase) (s : State) : Result :=
  seqOp true s fun s =>
    .next { s with
      acc := s.acc.set p (clamp (s.acc.get p) s.cfg.clampLo s.cfg.clampHi) }.advance

/-- SHL p (rule R234): `ACC[p] * 2^OUT_SHIFT` as its 32-bit pattern; no bit is lost after SAT. -/
def execShl (p : Phase) (s : State) : Result :=
  seqOp true s fun s =>
    .next { s with
      y := s.y.set p (BitVec.ofInt 32 (s.acc.get p * 2 ^ s.cfg.outShift)) }.advance

end Sys2Proof.Machine
end

