-- ==== Sys2Proof/Machine/Orchestrator.lean ====
section
/-! DEFINITION. The block pipeline orchestrator (42_orchestrator.md): ENTER, PROBE, LDW, STW, LEAVE. -/

namespace Sys2Proof.Machine

/-- ENTER (rules R161, R273): the completion interrupt is taken. Its enabling condition is the fetch's
(`State.seqOpEnabled`). -/
def execEnter (s : State) : Result :=
  seqOp true s fun s =>
    .next { (s.emit (.statEntry s.draw)) with irq := clearPend s.irq 0, busy := true, upc := 1 }

/-- The half PROBE reports to the sequencer: `active(r)`, or a drawn one when there is none
(rule R162). -/
def probedHalf (r : Nat) (s : State) : Half :=
  match s.active r with
  | some half => half
  | none => Half.ofBool (s.draw.getLsbD 0)

/-- PROBE inside a pass (rule R162): PH and BASE of ring `r`. -/
def probeRing (r : Nat) (s : State) : State :=
  let half := probedHalf r s
  { s with
    ph := s.ph.set r half
    base := s.base.set r ((s.ringAt r).baseOf (otherHalf half)) }.advance

/-- What PROBE answers the host (rule R162). -/
def probeAnswer (r : Nat) (s : State) : Word :=
  match s.active r with
  | some half => BitVec.ofNat 32 (halfBit half)
  | none => 0x80000000

/-- PROBE r (rule R162), executed by the sequencer and by the host. -/
def execProbe (r : BitVec 4) (s : State) : Result :=
  match s.issuer with
  | .host =>
    hostOp s fun s =>
      if ringLegal s.cfg r then s.answerOk (probeAnswer r.toNat s) else raiseFault .illegalOp s
  | .seq => seqOp (ringLegal s.cfg r) s fun s => .next (probeRing r.toNat s)
  | .ring _ => .refused .neverFormed

/-- The address LDW reads from: base register plus scaled index (rule R163). -/
def loadAddress (k : BitVec 16) (s : State) : Nat := (s.base.getD 0 0).toNat + 4 * k.toNat

/-- LDW k (rule R163); at an address that MemRead excludes CW takes a drawn word (log 21). -/
def execLdw (k : BitVec 16) (s : State) : Result :=
  seqOp (wordIndexLegal s.cfg k) s fun s =>
    .next { s with cw := s.loadWord (loadAddress k s) }.advance

/-- The word index of an output sample in its half-block, `g*OCPL + q` with `g = 2m + p`
(rules R67, R164). -/
def outputIndex (c : Cfg) (p : Phase) (ch m : Nat) : Nat :=
  (2 * m + phaseIndex p) * c.ocpl + (c.outOf ch).2

/-- The address STW writes (rules R67, R164). -/
def storeAddress (p : Phase) (ch : BitVec 7) (m : BitVec 8) (s : State) : Nat :=
  (s.base.getD (1 + (s.cfg.outOf ch.toNat).1) 0).toNat + 4 * outputIndex s.cfg p ch.toNat m.toNat

/-- STW p, ch, m (rule R164). Y[p] is held as its 32-bit pattern `to_u32(Y[p])` (rule R68);
at an address that MemWrite excludes the place of the store is drawn (log 21). -/
def execStw (p : Phase) (ch : BitVec 7) (m : BitVec 8) (s : State) : Result :=
  seqOp (channelLegal s.cfg ch && blockFrameLegal s.cfg m) s fun s =>
    .next (s.storeWord (storeAddress p ch m s) (s.y.get p)).advance

/-- LEAVE (rules R165, R274): the return from the pass. -/
def execLeave (s : State) : Result :=
  seqOp true s fun s => .next { (s.emit (.statExit s.draw)) with busy := false, upc := 0 }

end Sys2Proof.Machine
end

