-- ==== Sys2Proof/Machine/TransferRing.lean ====
section
/-! DEFINITION. The double-buffered transfer ring (41_transfer_ring.md): MOVI, MOVO, RLD. -/

namespace Sys2Proof.Machine

/-- The address-reload descriptor's effect on a ring's registers (rule R143). -/
def Ring.reload (g : Ring) : Ring :=
  { g with cur := g.baseOf g.next, next := otherHalf g.next, rem := g.len }

/-- RLD as the tail of a move (rule R143): COMPLETE, the completion signal, the reload. -/
def reloadRing (r : BitVec 4) (s : State) : State :=
  let t := s.emit (.complete r)
  let t := { t with
    irq := if (s.ringAt r.toNat).irqen then setPend s.irq r.toNat else s.irq }
  t.modifyRing r.toNat Ring.reload

/-- The data-move descriptor after one word (rules R141, R142). -/
def Ring.moved (g : Ring) : Ring := { g with cur := g.cur + 4, rem := g.rem - 1 }

/-- The end of a move step (rules R141, R142): CUR and REM, and RLD in the same step when REM is 0. -/
def finishMove (r : BitVec 4) (s : State) : State :=
  let t := s.modifyRing r.toNat Ring.moved
  if (s.ringAt r.toNat).moved.rem = 0 then reloadRing r t else t

/-- MOVI r (rule R141): the word drawn from the serial timing engine is stored at CUR. -/
def execMovi (r : BitVec 4) (s : State) : Result :=
  ringOp r (captureLegal r) s fun s =>
    let cur := (s.ringAt r.toNat).cur
    orStop (s.memWrite cur.toNat s.draw) fun t => finishMove r (t.emit (.capIn cur s.draw))

/-- MOVO r (rule R142): the word at CUR is delivered to the serial timing engine. -/
def execMovo (r : BitVec 4) (s : State) : Result :=
  ringOp r (playbackLegal s.cfg r) s fun s =>
    let cur := (s.ringAt r.toNat).cur
    orStop (s.memRead cur.toNat) fun w => finishMove r (s.emit (.pbOut r cur w))

/-- RLD r (rule R143). It is a step of its own only in a state no run reaches (log 9). -/
def execRld (r : BitVec 4) (s : State) : Result :=
  ringOp r (ringLegal s.cfg r) s fun s => .next (reloadRing r s)

end Sys2Proof.Machine
end

