-- ==== Sys2Proof/Machine/Dispatch.lean ====
section
/-! DEFINITION. One arm per operation. -/

namespace Sys2Proof.Machine

def exec (i : Instr) (s : State) : Host.Outcome State Fault Refusal :=
  match i with
  | .nop => Sys2Proof.Machine.execNop s
  | .rdreg off => Sys2Proof.Machine.execRdreg off s
  | .wrreg off => Sys2Proof.Machine.execWrreg off s
  | .cfg ring => Sys2Proof.Machine.execCfg ring s
  | .start => Sys2Proof.Machine.execStart s
  | .arm => Sys2Proof.Machine.execArm s
  | .stop => Sys2Proof.Machine.execStop s
  | .srst => Sys2Proof.Machine.execSrst s
  | .movi ring => Sys2Proof.Machine.execMovi ring s
  | .movo ring => Sys2Proof.Machine.execMovo ring s
  | .rld ring => Sys2Proof.Machine.execRld ring s
  | .enter => Sys2Proof.Machine.execEnter s
  | .probe ring => Sys2Proof.Machine.execProbe ring s
  | .ldw k => Sys2Proof.Machine.execLdw k s
  | .stw p ch m => Sys2Proof.Machine.execStw p ch m s
  | .leave => Sys2Proof.Machine.execLeave s
  | .expand b => Sys2Proof.Machine.execExpand b s
  | .deint k => Sys2Proof.Machine.execDeint k s
  | .asm k => Sys2Proof.Machine.execAsm k s
  | .hsh ch => Sys2Proof.Machine.execHsh ch s
  | .hpu ch m => Sys2Proof.Machine.execHpu ch m s
  | .clr p => Sys2Proof.Machine.execClr p s
  | .mac p ch m j => Sys2Proof.Machine.execMac p ch m j s
  | .sat p => Sys2Proof.Machine.execSat p s
  | .shl p => Sys2Proof.Machine.execShl p s

end Sys2Proof.Machine
end

