-- ==== Sys2Proof/Decode.lean ====
section
/-! DEFINITION. The decoder of operation words (rule R100), total on any word and rejecting by name,
the encoder, and the opcode table's rows (rules R92 to R99). -/

namespace Sys2Proof

/-- Why a word is `invalid` (rule R100). -/
inductive DecodeError where
  /-- The opcode, bits 31:24, is not one of the 25. -/
  | opcodeNotAssigned
  /-- A must-be-zero bit of the opcode's format is 1. -/
  | mustBeZeroBitSet
deriving DecidableEq, Repr

/-- The phase a bit P names (rule R97). -/
def phaseOfBit (b : BitVec 1) : Phase := if b = 0#1 then .zero else .one

/-- The bit P of a phase (rule R97). -/
def phaseBit : Phase → BitVec 1
  | .zero => 0#1
  | .one => 1#1

/-- Field OPC, bits 31:24 (rule R90). -/
def opcField (w : Word) : BitVec 8 := w.extractLsb' 24 8

/-- Field OFF, bits 11:0 (rule R93). -/
def offField (w : Word) : BitVec 12 := w.extractLsb' 0 12

/-- Field RING, bits 23:20 (rule R94). -/
def ringField (w : Word) : BitVec 4 := w.extractLsb' 20 4

/-- Field K, bits 15:0 (rule R95). -/
def kField (w : Word) : BitVec 16 := w.extractLsb' 0 16

/-- Field B, bits 7:0 (rule R96). -/
def bField (w : Word) : BitVec 8 := w.extractLsb' 0 8

/-- Field P, bit 23 (rule R97). -/
def pField (w : Word) : BitVec 1 := w.extractLsb' 23 1

/-- Field CH, bits 22:16 (rule R97). -/
def chField (w : Word) : BitVec 7 := w.extractLsb' 16 7

/-- Field M, bits 15:8 (rule R97). -/
def mField (w : Word) : BitVec 8 := w.extractLsb' 8 8

/-- Field J, bits 7:0 (rule R97). -/
def jField (w : Word) : BitVec 8 := w.extractLsb' 0 8

/-- Accept an operation whose must-be-zero bits are all zero. -/
def whenZero (zero : Bool) (i : Instr) : Except DecodeError Instr :=
  if zero then .ok i else .error .mustBeZeroBitSet

/-- Format N (rule R92). -/
def formatN (w : Word) (i : Instr) : Except DecodeError Instr :=
  whenZero (w.extractLsb' 0 24 == 0#24) i

/-- Format G (rule R93). -/
def formatG (w : Word) (f : BitVec 12 → Instr) : Except DecodeError Instr :=
  whenZero (w.extractLsb' 12 12 == 0#12) (f (offField w))

/-- Format R (rule R94). -/
def formatR (w : Word) (f : BitVec 4 → Instr) : Except DecodeError Instr :=
  whenZero (w.extractLsb' 0 20 == 0#20) (f (ringField w))

/-- Format K (rule R95). -/
def formatK (w : Word) (f : BitVec 16 → Instr) : Except DecodeError Instr :=
  whenZero (w.extractLsb' 16 8 == 0#8) (f (kField w))

/-- Format B (rule R96). -/
def formatB (w : Word) (f : BitVec 8 → Instr) : Except DecodeError Instr :=
  whenZero (w.extractLsb' 8 16 == 0#16) (f (bField w))

/-- Format F with P alone: CH, M and J must be 0 (rule R97). -/
def formatFP (w : Word) (f : Phase → Instr) : Except DecodeError Instr :=
  whenZero (w.extractLsb' 0 23 == 0#23) (f (phaseOfBit (pField w)))

/-- Format F with CH alone: P, M and J must be 0 (rule R97). -/
def formatFC (w : Word) (f : BitVec 7 → Instr) : Except DecodeError Instr :=
  whenZero (pField w == 0#1 && mField w == 0#8 && jField w == 0#8) (f (chField w))

/-- Format F with CH and M: P and J must be 0 (rule R97). -/
def formatFCM (w : Word) (f : BitVec 7 → BitVec 8 → Instr) : Except DecodeError Instr :=
  whenZero (pField w == 0#1 && jField w == 0#8) (f (chField w) (mField w))

/-- Format F with P, CH and M: J must be 0 (rule R97). -/
def formatFPCM (w : Word) (f : Phase → BitVec 7 → BitVec 8 → Instr) :
    Except DecodeError Instr :=
  whenZero (jField w == 0#8) (f (phaseOfBit (pField w)) (chField w) (mField w))

/-- The decoder (rules R99, R100). -/
def decode (w : Word) : Except DecodeError Instr :=
  match (opcField w).toNat with
  | 0x00 => formatN w .nop
  | 0x01 => formatG w .rdreg
  | 0x02 => formatG w .wrreg
  | 0x03 => formatR w .cfg
  | 0x04 => formatN w .start
  | 0x05 => formatN w .arm
  | 0x06 => formatN w .stop
  | 0x07 => formatN w .srst
  | 0x10 => formatR w .movi
  | 0x11 => formatR w .movo
  | 0x12 => formatR w .rld
  | 0x20 => formatN w .enter
  | 0x21 => formatR w .probe
  | 0x22 => formatK w .ldw
  | 0x23 => formatFPCM w .stw
  | 0x24 => formatN w .leave
  | 0x30 => formatB w .expand
  | 0x31 => formatK w .deint
  | 0x32 => formatK w .asm
  | 0x40 => formatFC w .hsh
  | 0x41 => formatFCM w .hpu
  | 0x50 => formatFP w .clr
  | 0x51 => .ok (.mac (phaseOfBit (pField w)) (chField w) (mField w) (jField w))
  | 0x52 => formatFP w .sat
  | 0x53 => formatFP w .shl
  | _ => .error .opcodeNotAssigned

/-- A word of format N (rule R92). -/
def wordN (opc : BitVec 8) : Word := opc ++ 0#24

/-- A word of format G (rule R93). -/
def wordG (opc : BitVec 8) (off : BitVec 12) : Word := opc ++ 0#12 ++ off

/-- A word of format R (rule R94). -/
def wordR (opc : BitVec 8) (r : BitVec 4) : Word := opc ++ r ++ 0#20

/-- A word of format K (rule R95). -/
def wordK (opc : BitVec 8) (k : BitVec 16) : Word := opc ++ 0#8 ++ k

/-- A word of format B (rule R96). -/
def wordB (opc : BitVec 8) (b : BitVec 8) : Word := opc ++ 0#16 ++ b

/-- A word of format F (rule R97). -/
def wordF (opc : BitVec 8) (p : BitVec 1) (ch : BitVec 7) (m j : BitVec 8) : Word :=
  opc ++ p ++ ch ++ m ++ j

/-- The operation word of an operation (rules R92 to R99). -/
def encode : Instr → Word
  | .nop => wordN 0x00
  | .rdreg off => wordG 0x01 off
  | .wrreg off => wordG 0x02 off
  | .cfg r => wordR 0x03 r
  | .start => wordN 0x04
  | .arm => wordN 0x05
  | .stop => wordN 0x06
  | .srst => wordN 0x07
  | .movi r => wordR 0x10 r
  | .movo r => wordR 0x11 r
  | .rld r => wordR 0x12 r
  | .enter => wordN 0x20
  | .probe r => wordR 0x21 r
  | .ldw k => wordK 0x22 k
  | .stw p ch m => wordF 0x23 (phaseBit p) ch m 0
  | .leave => wordN 0x24
  | .expand b => wordB 0x30 b
  | .deint k => wordK 0x31 k
  | .asm k => wordK 0x32 k
  | .hsh ch => wordF 0x40 0 ch 0 0
  | .hpu ch m => wordF 0x41 0 ch m 0
  | .clr p => wordF 0x50 (phaseBit p) 0 0 0
  | .mac p ch m j => wordF 0x51 (phaseBit p) ch m j
  | .sat p => wordF 0x52 (phaseBit p) 0 0 0
  | .shl p => wordF 0x53 (phaseBit p) 0 0 0

/-- A row of the opcode table: `w` spells the operation exactly when `w &&& mask = val` (rule R99). -/
structure OpcodeRow where
  mnemonic : String
  val : Word
  mask : Word
deriving DecidableEq, Repr

/-- The row of the opcode table (rule R99) that an operation belongs to. -/
def rowOf : Instr → OpcodeRow
  | .nop => ⟨"NOP", 0x00000000, 0xFFFFFFFF⟩
  | .rdreg _ => ⟨"RDREG", 0x01000000, 0xFFFFF000⟩
  | .wrreg _ => ⟨"WRREG", 0x02000000, 0xFFFFF000⟩
  | .cfg _ => ⟨"CFG", 0x03000000, 0xFF0FFFFF⟩
  | .start => ⟨"START", 0x04000000, 0xFFFFFFFF⟩
  | .arm => ⟨"ARM", 0x05000000, 0xFFFFFFFF⟩
  | .stop => ⟨"STOP", 0x06000000, 0xFFFFFFFF⟩
  | .srst => ⟨"SRST", 0x07000000, 0xFFFFFFFF⟩
  | .movi _ => ⟨"MOVI", 0x10000000, 0xFF0FFFFF⟩
  | .movo _ => ⟨"MOVO", 0x11000000, 0xFF0FFFFF⟩
  | .rld _ => ⟨"RLD", 0x12000000, 0xFF0FFFFF⟩
  | .enter => ⟨"ENTER", 0x20000000, 0xFFFFFFFF⟩
  | .probe _ => ⟨"PROBE", 0x21000000, 0xFF0FFFFF⟩
  | .ldw _ => ⟨"LDW", 0x22000000, 0xFFFF0000⟩
  | .stw _ _ _ => ⟨"STW", 0x23000000, 0xFF0000FF⟩
  | .leave => ⟨"LEAVE", 0x24000000, 0xFFFFFFFF⟩
  | .expand _ => ⟨"EXPAND", 0x30000000, 0xFFFFFF00⟩
  | .deint _ => ⟨"DEINT", 0x31000000, 0xFFFF0000⟩
  | .asm _ => ⟨"ASM", 0x32000000, 0xFFFF0000⟩
  | .hsh _ => ⟨"HSH", 0x40000000, 0xFF80FFFF⟩
  | .hpu _ _ => ⟨"HPU", 0x41000000, 0xFF8000FF⟩
  | .clr _ => ⟨"CLR", 0x50000000, 0xFF7FFFFF⟩
  | .mac _ _ _ _ => ⟨"MAC", 0x51000000, 0xFF000000⟩
  | .sat _ => ⟨"SAT", 0x52000000, 0xFF7FFFFF⟩
  | .shl _ => ⟨"SHL", 0x53000000, 0xFF7FFFFF⟩

/-- The operation the decoder reads from an instruction of `nbits` bits with value `w`, numbered as the
opcode table numbers them. An operation word is one 32-bit value, with no storage order (rule R90). -/
def decodeTableWord (nbits w : Nat) : Option Instr :=
  match decode (BitVec.ofNat 32 (w % 2 ^ nbits)) with
  | .ok i => some i
  | .error _ => none

end Sys2Proof
end

