-- ==== Sys2Proof/Machine/Program.lean ====
section
/-! DEFINITION. The micro-program PASSPROG (rule R166), the pseudo-instructions (rule R103), and the
assembler syntax (rule R102). -/

namespace Sys2Proof.Machine

/-- FIRPT p, ch, m (rules R103, R235): one output sample of one phase. -/
def firpt (c : Cfg) (p : Phase) (ch m : Nat) : List Instr :=
  .clr p :: ((List.range c.taps).map fun j =>
    .mac p (BitVec.ofNat 7 ch) (BitVec.ofNat 8 m) (BitVec.ofNat 8 j)) ++ [.sat p, .shl p]

/-- One output sample and its store. -/
def firptStore (c : Cfg) (p : Phase) (ch m : Nat) : List Instr :=
  firpt c p ch m ++ [.stw p (BitVec.ofNat 7 ch) (BitVec.ofNat 8 m)]

/-- The operations of PASSPROG for frame `f` of the capture half-block (rule R166). -/
def frameOps (c : Cfg) (f : Nat) : List Instr :=
  ((List.range c.wpf).flatMap fun w =>
    [.ldw (BitVec.ofNat 16 (f * c.wpf + w)), .deint (BitVec.ofNat 16 w)]) ++
    [.asm (BitVec.ofNat 16 f)]

/-- The operations of PASSPROG for channel `ch` (rule R166): shift, push, evaluate and store. -/
def channelOps (c : Cfg) (ch : Nat) : List Instr :=
  .hsh (BitVec.ofNat 7 ch) ::
    ((List.range c.frames).map fun m => .hpu (BitVec.ofNat 7 ch) (BitVec.ofNat 8 m)) ++
    (List.range c.frames).flatMap fun m =>
      firptStore c .zero ch m ++ firptStore c .one ch m

/-- PASSPROG(cfg) (rule R166), as operations. -/
def passProg (c : Cfg) : List Instr :=
  .enter :: ((List.range c.nrings).map fun r => .probe (BitVec.ofNat 4 r)) ++
    (List.range c.frames).flatMap (frameOps c) ++
    (List.range c.channels).flatMap (channelOps c) ++ [.leave]

/-- PASSPROG(cfg) as the list of operation words it is (rules R90, R166). -/
def passWords (c : Cfg) : List Word := (passProg c).map encode

/-- The arguments of CONFIGURE but for the ring (rule R128). -/
structure RingSetup where
  addrA : Word
  addrB : Word
  len : Word
  pace : BitVec 4
  irq : Bool
deriving DecidableEq, Repr

/-- CONFIGURE r, addrA, addrB, len, pace, irq (rules R103, R128): transactions (OPW, WDATA). -/
def configureOps (r : BitVec 4) (u : RingSetup) : List (Word × Word) :=
  let off := BitVec.ofNat 12 (0x100 + 0x20 * r.toNat)
  [(encode (.wrreg off), u.addrA), (encode (.wrreg (off + 4)), u.addrB),
   (encode (.wrreg (off + 8)), u.len),
   (encode (.wrreg (off + 12)), BitVec.ofNat 32 (u.pace.toNat * 16 + u.irq.toNat * 2)),
   (encode (.cfg r), 0)]

/-- One CONFIGURE for every ring r in 0..NOUT, in order, then START and ARM (rules R130, R291). -/
def bringUpOps (c : Cfg) (setup : Nat → RingSetup) : List (Word × Word) :=
  ((List.range c.nrings).flatMap fun r => configureOps (BitVec.ofNat 4 r) (setup r)) ++
    [(encode .start, 0), (encode .arm, 0)]

/-- RESTART (rules R103, R130): STOP, a CONFIGURE for every ring, START, ARM. -/
def restartOps (c : Cfg) (setup : Nat → RingSetup) : List (Word × Word) :=
  (encode .stop, 0) :: bringUpOps c setup

/-- A restart after a fault begins with SRST in place of STOP (rule R130). -/
def restartAfterFaultOps (c : Cfg) (setup : Nat → RingSetup) : List (Word × Word) :=
  (encode .srst, 0) :: bringUpOps c setup

/-- One operand in assembler text. -/
def asmNat (n : Nat) : String := toString n

/-- A phase in assembler text. -/
def asmPhase (p : Phase) : String := asmNat (phaseIndex p)

/-- The assembler text of an operation (rule R102), operands in decimal; WRREG's second operand is the
data `wdata` beside it. -/
def asmText (wdata : Word) : Instr → String
  | .nop => "NOP"
  | .rdreg off => "RDREG " ++ asmNat off.toNat
  | .wrreg off => "WRREG " ++ asmNat off.toNat ++ ", " ++ asmNat wdata.toNat
  | .cfg r => "CFG " ++ asmNat r.toNat
  | .start => "START"
  | .arm => "ARM"
  | .stop => "STOP"
  | .srst => "SRST"
  | .movi r => "MOVI " ++ asmNat r.toNat
  | .movo r => "MOVO " ++ asmNat r.toNat
  | .rld r => "RLD " ++ asmNat r.toNat
  | .enter => "ENTER"
  | .probe r => "PROBE " ++ asmNat r.toNat
  | .ldw k => "LDW " ++ asmNat k.toNat
  | .stw p ch m => "STW " ++ asmPhase p ++ ", " ++ asmNat ch.toNat ++ ", " ++ asmNat m.toNat
  | .leave => "LEAVE"
  | .expand b => "EXPAND " ++ asmNat b.toNat
  | .deint k => "DEINT " ++ asmNat k.toNat
  | .asm k => "ASM " ++ asmNat k.toNat
  | .hsh ch => "HSH " ++ asmNat ch.toNat
  | .hpu ch m => "HPU " ++ asmNat ch.toNat ++ ", " ++ asmNat m.toNat
  | .clr p => "CLR " ++ asmPhase p
  | .mac p ch m j => "MAC " ++ asmPhase p ++ ", " ++ asmNat ch.toNat ++ ", " ++ asmNat m.toNat ++
      ", " ++ asmNat j.toNat
  | .sat p => "SAT " ++ asmPhase p
  | .shl p => "SHL " ++ asmPhase p

end Sys2Proof.Machine
end

