-- ==== Sys2Proof/Machine/Fetch.lean ====
section
/-! DEFINITION. Where each agent's next operation comes from: the host port (rule R91), the ring
engines (rules R140 to R143), the micro-program (rules R160, R166); the environment's next choice
(rule R70); and placing an operation word there. -/

namespace Sys2Proof.Machine

/-- The environment's next choice and the state after it is taken: the next one laid down, or, when
there is none, a free one (rule R70; log 1). -/
def State.takeTurn (s : State) : Turn × State :=
  match s.turns with
  | t :: rest => (t, { s with turns := rest })
  | [] => (Config.freeTurn s.tick, { s with tick := s.tick + 1 })

/-- The operation ring engine `r` steps next (rules R140 to R143): a move while EN = 1. With REM = 0, in
a state no run reaches, the reload that brings REM back is still due (log 9). -/
def State.ringNext (s : State) (r : BitVec 4) : Option Instr :=
  let g := s.ringAt r.toNat
  if !(ringLegal s.cfg r && g.en) then none
  else if g.rem = 0 then some (.rld r)
  else if r = 0 then some (.movi r)
  else some (.movo r)

/-- The sequencer has a step (rules R160, R161): always inside a pass; when idle, exactly when a capture
completion is pending and the block is armed. -/
def State.seqEnabled (s : State) : Bool := s.busy || (s.armed && s.pend 0)

/-- The operation word of the sequencer's next step, PASSPROG(cfg)[UPC] (rule R160). -/
def State.seqWord (s : State) : Option Word :=
  if s.seqEnabled then (passWords s.cfg)[s.upc.toNat]? else none

/-- The operation word an agent's turn executes, or none when that agent has no enabled step. -/
def State.fetch (s : State) : Turn → Option Word
  | .host opw _ => some opw
  | .ring r _ => (s.ringNext r).map encode
  | .seq _ => s.seqWord
  | .hostRead _ => none
  | .hostWrite _ _ => none
  | .reset => none

/-- The state in which an agent's operation executes: its issuer, its transaction's words, and what it
draws. -/
def State.present (s : State) : Turn → State
  | .host opw wdata => { s with issuer := .host, opw := opw, wdata := wdata }
  | .ring r w => { s with issuer := .ring r, draw := w }
  | .seq d => { s with issuer := .seq, draw := d }
  | .hostRead _ => s
  | .hostWrite _ _ => s
  | .reset => s

/-- Lay down a choice of the environment, to be taken next. -/
def State.lay (s : State) (t : Turn) : State := { s with turns := t :: s.turns }

/-- Enable ring `r` for a word of its engine (log 12): RLD is due with REM = 0, a plain move otherwise. -/
def readyRing (isReload : Bool) (g : Ring) : Ring :=
  { g with en := true, rem := if isReload then 0 else if g.rem = 0 then 2 else g.rem }

/-- Place an operation of ring engine `r` as its next step. -/
def State.placeRing (s : State) (r : BitVec 4) (isReload : Bool) : State :=
  (s.modifyRing r.toNat (readyRing isReload)).lay (.ring r 0)

/-- Place the micro-program's operation number `n` as the sequencer's next step: ENTER with its enabling
condition, any other inside a pass. -/
def State.placeSeq (s : State) (n : Nat) : State :=
  if n = 0 then
    { s with upc := 0, busy := false, armed := true, irq := setPend s.irq 0 }.lay (.seq 0)
  else { s with upc := BitVec.ofNat 32 n, busy := true }.lay (.seq 0)

/-- Place a word as the host's next transaction. -/
def State.placeHost (s : State) (w : Word) : State := s.lay (.host w 0)

/-- Place a sequencer's word: at its first index in PASSPROG, or, if PASSPROG does not hold it, at the
host port, the only place where it can be presented (rule R275). -/
def State.placeSeqWord (s : State) (w : Word) : State :=
  let n := (passWords s.cfg).idxOf w
  if n < (passWords s.cfg).length then s.placeSeq n else s.placeHost w

/-- Place an operation word where its executor fetches its next operation (rule R99; log 12). A word no
ring engine and no micro-program holds is placed at the host port. -/
def State.placeWord (s : State) (w : Word) : State :=
  match decode w with
  | .error _ => s.placeHost w
  | .ok (.movi r) => if captureLegal r then s.placeRing r false else s.placeHost w
  | .ok (.movo r) => if playbackLegal s.cfg r then s.placeRing r false else s.placeHost w
  | .ok (.rld r) => if ringLegal s.cfg r then s.placeRing r true else s.placeHost w
  | .ok .nop => s.placeHost w
  | .ok (.rdreg _) => s.placeHost w
  | .ok (.wrreg _) => s.placeHost w
  | .ok (.cfg _) => s.placeHost w
  | .ok .start => s.placeHost w
  | .ok .arm => s.placeHost w
  | .ok .stop => s.placeHost w
  | .ok .srst => s.placeHost w
  | .ok (.probe _) => s.placeHost w
  | .ok (.expand _) => s.placeHost w
  | .ok .enter => s.placeSeqWord w
  | .ok (.ldw _) => s.placeSeqWord w
  | .ok (.stw _ _ _) => s.placeSeqWord w
  | .ok .leave => s.placeSeqWord w
  | .ok (.deint _) => s.placeSeqWord w
  | .ok (.asm _) => s.placeSeqWord w
  | .ok (.hsh _) => s.placeSeqWord w
  | .ok (.hpu _ _) => s.placeSeqWord w
  | .ok (.clr _) => s.placeSeqWord w
  | .ok (.mac _ _ _ _) => s.placeSeqWord w
  | .ok (.sat _) => s.placeSeqWord w
  | .ok (.shl _) => s.placeSeqWord w

end Sys2Proof.Machine
end

