-- ==== Sys2Proof/Machine/Run.lean ====
section
/-! DEFINITION. Running what an agent presents (rules R13, R70, R91, R100). -/

namespace Sys2Proof.Machine

/-- Execute the operation word an agent presents: the decoded operation, or an invalid word
(rule R100). -/
def runWord (w : Word) (s : State) : Host.Outcome State Fault Refusal :=
  match decode w with
  | .ok i => exec i s
  | .error _ => invalidWord s

/-- The step an agent's turn takes in `s`. An agent with no enabled step changes nothing (rule R70;
log 1). -/
def runTurn (t : Turn) (s : State) : Host.Outcome State Fault Refusal :=
  match t with
  | .host opw wdata => runWord opw (s.present (.host opw wdata))
  | .ring r w =>
    match s.fetch (.ring r w) with
    | some opw => runWord opw (s.present (.ring r w))
    | none => .next s
  | .seq d =>
    match s.fetch (.seq d) with
    | some opw => runWord opw (s.present (.seq d))
    | none => .next s
  | .hostRead a => hostRead a s
  | .hostWrite a v => hostWrite a v s
  | .reset => .next s.toReset

end Sys2Proof.Machine
end

