-- ==== Sys2Proof/Machine/Step.lean ====
section
/-! DEFINITION. One step of the machine. -/

namespace Sys2Proof.Machine

/-- One step: the environment's next choice, taken and run (rules R13, R70). -/
def step (s : State) : Host.Outcome State Fault Refusal := runTurn s.takeTurn.1 s.takeTurn.2

/-- The state whose very next step runs the operation word `w mod 2^nbits` (log 12). -/
def State.withFetchWord (s : State) (nbits w : Nat) : State :=
  s.placeWord (BitVec.ofNat 32 (w % 2 ^ nbits))

end Sys2Proof.Machine
end

