-- ==== Sys2Proof/Safety.lean ====
section
/-! DEFINITION. What a safe run is, in the terms claims use: the invariants the spec derives (rules R27,
R29, R31, R35, R36, R37, R43, R44, R63, R144, R212), ownership and overrun (R72), the real-time premise
(R297), running a list of operations, and what the statistics sink receives (R251, R252). -/

namespace Sys2Proof.Machine

/-- Every register file has the size the configuration gives it (rules R20 to R24, R30, R31). -/
def State.shaped (s : State) : Prop :=
  s.rings.length = s.cfg.nrings ∧ s.lb.length = s.cfg.nlines ∧
  s.ph.length = s.cfg.nrings ∧ s.base.length = s.cfg.nrings ∧
  s.x.length = s.cfg.channels ∧ (∀ row ∈ s.x, row.length = s.cfg.frames) ∧
  s.h.length = s.cfg.channels ∧ (∀ row ∈ s.h, row.length = s.cfg.window)

/-- The base of the half a ring's data move is in: ADDRA when NEXT = 1, ADDRB when NEXT = 0
(rule R144 (b)). -/
def Ring.movingBase (g : Ring) : Word := g.baseOf (otherHalf g.next)

/-- A half-block of ring `r` at `a` as CFG accepts it (rules R62, R63, R123). -/
def halfAccepted (c : Cfg) (r : Nat) (a : Word) : Prop :=
  a.toNat % (4 * c.ringLen r) = 0 ∧ a.toNat + 4 * c.ringLen r ≤ c.memSize

/-- The descriptors of a configured ring `r` (rules R43, R44, R63, R123, R144 (a), (b)). -/
def Ring.descriptorsGood (c : Cfg) (r : Nat) (g : Ring) : Prop :=
  g.len.toNat = c.ringLen r ∧ halfAccepted c r g.addrA ∧ halfAccepted c r g.addrB ∧
  g.addrA ≠ g.addrB ∧ 1 ≤ g.rem.toNat ∧ g.rem.toNat ≤ g.len.toNat ∧
  g.cur.toNat = g.movingBase.toNat + 4 * (g.len.toNat - g.rem.toNat)

/-- Every enabled ring is configured and every configured ring has good descriptors (rules R45, R144). -/
def State.ringsGood (s : State) : Prop :=
  ∀ (r : Nat) (g : Ring), s.rings[r]? = some g →
    (g.en = true → g.cfgd = true) ∧ (g.cfgd = true → g.descriptorsGood s.cfg r)

/-- The control state (rules R27, R35, R37, R38, R45, R261). -/
def State.controlGood (s : State) : Prop :=
  (s.armed = true → s.started = true) ∧
  (s.halt = true → s.started = false ∧ s.armed = false) ∧
  (s.busy = true ↔ s.upc ≠ 0) ∧
  s.upc.toNat < s.cfg.plen ∧
  (∀ g ∈ s.rings, g.en = s.started) ∧
  (s.halt = true ↔ s.faultCode ≠ 0) ∧
  (s.faultCode = 0 → s.faultOp = 0) ∧
  s.faultCode.toNat ≤ 8

/-- The ranges of the data registers: H in -2^23..2^23-1 (rules R31, R212 (c)), LB of FB bits
(rule R22), no PEND bit above NOUT (rule R36). -/
def State.dataGood (s : State) : Prop :=
  (∀ row ∈ s.h, ∀ v ∈ row, -(2 ^ 23) ≤ v ∧ v < 2 ^ 23) ∧
  (∀ v ∈ s.lb, v < 2 ^ s.cfg.fb) ∧
  s.irq.toNat < 2 ^ (s.cfg.nout + 1)

/-- MEM in canonical form, nothing listed outside MEMSIZE bytes (rules R60, R63). -/
def State.memGood (s : State) : Prop :=
  Memory.wf s.mem ∧ ∀ p ∈ s.mem, p.1 < s.cfg.memSize

/-- The audio state, which only sequencer operations write (rule R169). -/
def State.sameAudio (s t : State) : Prop :=
  t.h = s.h ∧ t.x = s.x ∧ t.cw = s.cw ∧ t.lb = s.lb ∧ t.ph = s.ph ∧ t.base = s.base ∧
  t.y = s.y ∧ t.acc = s.acc

/-- Execute operations one after another in the state of one agent. -/
def runOps : List Instr → State → Result
  | [], s => .next s
  | i :: is, s =>
    match exec i s with
    | .next t => runOps is t
    | .fault f => .fault f
    | .refused r => .refused r

/-- `a` lies in half `half` of ring `g` (rules R43, R72). -/
def Ring.holds (g : Ring) (half : Half) (a : Nat) : Prop :=
  (g.baseOf half).toNat ≤ a ∧ a < (g.baseOf half).toNat + 4 * g.len.toNat

/-- An LDW of word `k` in `s` respects ownership (rule R72): it reads a word of MEM in the half ring 0 is not
in. THE MODEL'S CHOICE (log 22): where ring 0 has EN = 0 there is no such half, and no LDW respects ownership,
nor does one whose word is drawn. -/
def loadOwned (k : BitVec 16) (s : State) : Prop :=
  ∃ half, s.active 0 = some half ∧ accessStop s.cfg (loadAddress k s) = none ∧
    (s.ringAt 0).holds (otherHalf half) (loadAddress k s)

/-- An STW in `s` respects ownership (rule R72): the place it writes (`State.storePlace`) lies in the half its
playback ring is not in. THE MODEL'S CHOICE (log 22): where that ring has EN = 0 there is no such half, and no
STW respects ownership, nor does one that writes nowhere. -/
def storeOwned (p : Phase) (ch : BitVec 7) (m : BitVec 8) (s : State) : Prop :=
  let r := 1 + (s.cfg.outOf ch.toNat).1
  ∃ half a, s.active r = some half ∧ s.storePlace (storeAddress p ch m s) = some a ∧
    (s.ringAt r).holds (otherHalf half) a

/-- The operation the sequencer executes in the next step of `s`, if that step is one of its, with the state
that presents it (rules R13, R160). -/
def State.seqNext (s : State) : Option (Instr × State) :=
  match s.takeTurn with
  | (.seq d, s') =>
    (s'.fetch (.seq d)).bind fun w =>
      match decode w with
      | .ok i => some (i, s'.present (.seq d))
      | .error _ => none
  | _ => none

/-- The next step of `s` is no LDW and no STW that breaks ownership (rule R72). -/
def State.accessOwned (s : State) : Prop :=
  (∀ k u, s.seqNext = some (.ldw k, u) → loadOwned k u) ∧
  ∀ p ch m u, s.seqNext = some (.stw p ch m, u) → storeOwned p ch m u

/-- A run, or a stretch of one given by its states, respects ownership (rule R72): every LDW and STW step of
it does, at the moment of that step. -/
def respectsOwnership (run : List State) : Prop :=
  run.IsChain fun s t => step s = .next t ∧ s.accessOwned

/-- Ring `r` performs RLD in the step from `s` to `t` (rules R46, R143). -/
def completesIn (r : BitVec 4) (s t : State) : Prop :=
  t.events.head? = some (.complete r) ∧ s.events.length < t.events.length

/-- PROBE of ring `r` has been executed in the pass in progress (rule R166: it stands at index 1 + r). -/
def State.probed (s : State) (r : Nat) : Prop := s.busy = true ∧ 1 + r < s.upc.toNat

/-- An operation accesses the BufferPair of ring `r`: an LDW ring 0's, an STW its playback line's (rules R163,
R164). -/
def accessesRing (c : Cfg) (r : Nat) (i : Instr) : Prop :=
  (r = 0 ∧ ∃ k, i = .ldw k) ∨ ∃ p ch m, i = .stw p ch m ∧ r = 1 + (c.outOf ch.toNat).1

/-- The pass in progress has executed PROBE of ring `r` and has an LDW or STW on it still to execute
(rules R72, R166). -/
def State.accessesLeft (s : State) (r : Nat) : Prop :=
  s.probed r ∧ ∃ i ∈ (passProg s.cfg).drop s.upc.toNat, accessesRing s.cfg r i

/-- In the step from `s` to `t` a ring completes a half-block between a pass's PROBE of that ring and the
pass's last LDW or STW on it (rule R72). -/
def overrunIn (s t : State) : Prop :=
  ∃ r : BitVec 4, r.toNat ≤ s.cfg.nout ∧ completesIn r s t ∧ s.accessesLeft r.toNat

/-- A run, or a stretch of one given by its states, is an overrun (rules R72, R276 (a)). -/
def overrun (run : List State) : Prop :=
  (run.IsChain fun s t => step s = .next t) ∧ ∃ st ∈ run.zip run.tail, overrunIn st.1 st.2

/-- What the steps of a stretch of a run recorded, newest first (rule R46). -/
def recorded (run : List State) : List Event :=
  match run.head?, run.getLast? with
  | some first, some last => last.events.take (last.events.length - first.events.length)
  | _, _ => []

/-- Of a record, newest first: an ENTER stands since the last capture completion, or there is none. -/
def enteredSince : List Event → Bool
  | [] => true
  | .statEntry _ :: _ => true
  | .complete r :: older => r ≠ 0 && enteredSince older
  | _ :: older => enteredSince older

/-- Of a record, newest first: every capture completion is followed by ENTER before the next capture
completion (rule R297 (a)). -/
def everyCaptureEntered : List Event → Bool
  | [] => true
  | .complete r :: older => (r ≠ 0 || enteredSince older) && everyCaptureEntered older
  | _ :: older => everyCaptureEntered older

/-- Premise RT (a), of one step: a capture half completes neither while PEND[0] is set nor while a pass is
running (rule R297). -/
def promptEntry (s t : State) : Prop := completesIn 0 s t → s.pend 0 = false ∧ s.busy = false

/-- Premise RT (b), of one step: no RLD of a ring between its PROBE and LEAVE (rule R297). -/
def noOverrun (s t : State) : Prop :=
  ∀ r : BitVec 4, r.toNat ≤ s.cfg.nout → completesIn r s t → ¬s.probed r.toNat

/-- Two by two, the events of a list differ; a last one may stand alone. -/
def pairedOff : List Event → Bool
  | e :: f :: rest => e ≠ f && pairedOff rest
  | [_] => true
  | [] => true

/-- Of a record: the completions of ring `r` and of the capture ring pair off, one of each, in either order,
but for one at each end whose partner lies outside the record (rules R272 (b), R297 (c); log 23). -/
def onePerCapture (r : BitVec 4) (record : List Event) : Bool :=
  let completions := record.filter fun e => e = .complete 0 ∨ e = .complete r
  pairedOff completions || pairedOff completions.tail

/-- Premise RT (c), of a stretch of a run: each playback ring performs exactly one RLD per capture RLD
(rule R297; log 23). -/
def oneReloadPerCapture (run : List State) : Prop :=
  ∀ s ∈ run, ∀ r : BitVec 4, 1 ≤ r.toNat → r.toNat ≤ s.cfg.nout →
    onePerCapture r (recorded run) = true

/-- How many passes a record has seen end (rule R165). -/
def passesEnded (record : List Event) : Nat :=
  record.countP fun e => match e with | .statExit _ => true | _ => false

/-- Premise RT (c), of a state `s` of a stretch and a later one `t`: a ring that `s` finds between its PROBE
and LEAVE has completed one half-block for each pass that ended since, but for the one due before the next
pass, which it has completed when `t` too lies between its PROBE and LEAVE; so each pass finds it in the half
whose successor is played after the pass (rule R297; log 23). -/
def lockstep (s t : State) : Prop :=
  ∀ r : BitVec 4, r.toNat ≤ s.cfg.nout → s.probed r.toNat →
    let passes := passesEnded t.events - passesEnded s.events
    let reloads := t.events.count (.complete r) - s.events.count (.complete r)
    reloads ≤ passes ∧ passes ≤ reloads + 1 ∧ (t.probed r.toNat → reloads = passes)

/-- Premise RT (d), of a state: the half-blocks are pairwise disjoint (rules R76, R297). -/
def State.buffersDisjoint (s : State) : Prop :=
  ∀ (r q : Nat) (half other : Half), r ≤ s.cfg.nout → q ≤ s.cfg.nout → (r, half) ≠ (q, other) →
    ∀ a, ¬((s.ringAt r).holds half a ∧ (s.ringAt q).holds other a)

/-- Premise RT (d), of a state's next step: after START it is no HostWrite into a BufferPair (rules R74,
R297). -/
def State.noBufferWrite (s : State) : Prop :=
  s.started = true → ∀ a v, s.takeTurn.1 = .hostWrite a v →
    ∀ (r : Nat) (half : Half) (x : Nat), r ≤ s.cfg.nout → a.toNat ≤ x → x < a.toNat + 4 →
      ¬(s.ringAt r).holds half x

/-- Premise RT (e), of one step: it is no STOP, no SRST and no reset, and no fault is taken (rule R297). -/
def undisturbed (s t : State) : Prop :=
  s.halt = false ∧ t.halt = false ∧ s.takeTurn.1 ≠ .reset ∧
  ∀ opw wdata, s.takeTurn.1 = .host opw wdata → decode opw ≠ .ok .stop ∧ decode opw ≠ .ok .srst

/-- One step of a stretch under RT: what (a), (b), (d) and (e) ask of a step. -/
def RTStep (s t : State) : Prop :=
  step s = .next t ∧ promptEntry s t ∧ noOverrun s t ∧ s.noBufferWrite ∧ undisturbed s t

/-- The real-time premise `RT` (rule R297), of a stretch of a run given by its states: (a) to (e) together.
A run without end meets it when every finite stretch of it does. -/
def RT (run : List State) : Prop :=
  run.IsChain RTStep ∧ everyCaptureEntered (recorded run) = true ∧ oneReloadPerCapture run ∧
  run.Pairwise lockstep ∧ ∀ s ∈ run, s.buffersDisjoint

/-- The samples the execution-time Histogram receives (rule R252), newest first: each STAT_EXIT with the
nearest STAT_ENTRY before it. -/
def executionTimes : List Event → List Word
  | [] => []
  | .statExit t1 :: rest =>
    match rest.findSome? (fun e => match e with | .statEntry t0 => some t0 | _ => none) with
    | some t0 => (t1 - t0) :: executionTimes rest
    | none => executionTimes rest
  | _ :: rest => executionTimes rest

/-- The samples the call-interval Histogram receives (rule R251), newest first: the differences of
consecutive STAT_ENTRY timestamps. -/
def callIntervals (events : List Event) : List Word :=
  let ts := events.filterMap fun e => match e with | .statEntry t0 => some t0 | _ => none
  List.zipWith (fun now before => now - before) ts (ts.drop 1)

end Sys2Proof.Machine
end

