-- ==== Sys2Proof/WellFormed.lean ====
section
/-! DEFINITION. Well-formedness: an operation whose fields are all in their legal range for the
configuration (rule R100's "legal"; rules R94 to R97). Every operation has an encoding; a word whose
fields are out of range decodes and is illegal. -/

namespace Sys2Proof

open Machine in
/-- Every field is in its legal range for `c` (rules R93 to R97, R99). OFF and B have no illegal
value as encodings (rules R93, R96). -/
def Instr.wellFormed (c : Cfg) : Instr → Bool
  | .nop => true
  | .rdreg _ => true
  | .wrreg _ => true
  | .cfg r => ringLegal c r
  | .start => true
  | .arm => true
  | .stop => true
  | .srst => true
  | .movi r => captureLegal r
  | .movo r => playbackLegal c r
  | .rld r => ringLegal c r
  | .enter => true
  | .probe r => ringLegal c r
  | .ldw k => wordIndexLegal c k
  | .stw _ ch m => channelLegal c ch && blockFrameLegal c m
  | .leave => true
  | .expand _ => true
  | .deint k => frameWordLegal c k
  | .asm k => frameLegal c k
  | .hsh ch => channelLegal c ch
  | .hpu ch m => channelLegal c ch && blockFrameLegal c m
  | .clr _ => true
  | .mac _ ch m j => channelLegal c ch && blockFrameLegal c m && tapLegal c j
  | .sat _ => true
  | .shl _ => true

end Sys2Proof
end

