-- ==== Sys2Proof/Certificates/Slice0/Obligations.lean ====
section
/-! DEFINITION. The statements for the provers. Each docstring names the rules of spec/ it rests on. -/

open Sys2Proof Sys2Proof.Machine

/-! ### Encoding -/

/-- Decoding the word of any operation gives the operation back, whatever its fields (R92 to R100). -/
def Obligations.DecodeOfEncodeIsTheOperation : Prop := ∀ i : Instr, decode (encode i) = .ok i

/-- A word that decodes is the word of what it decodes to: no bit of a word is dropped (R92 to R100). -/
def Obligations.EncodeOfDecodeIsTheWord : Prop :=
  ∀ (w : Word) (i : Instr), decode w = .ok i → encode i = w

/-- A word decodes exactly when it matches a row of the opcode table, and then to an operation of that
row (R99, R100). -/
def Obligations.DecodeFollowsTheOpcodeTable : Prop :=
  (∀ (w : Word) (i : Instr), decode w = .ok i → w &&& (rowOf i).mask = (rowOf i).val) ∧
  ∀ (w : Word) (j : Instr), w &&& (rowOf j).mask = (rowOf j).val →
    ∃ i, decode w = .ok i ∧ rowOf i = rowOf j

/-- Words written out in 95_test_vectors.md section 2.1, one for each family, and some invalid ones. -/
def Obligations.WordsOfTheSpecDecode : Prop :=
  decode 0x0100010C#32 = .ok (.rdreg 0x10C#12) ∧
  decode 0x03200000#32 = .ok (.cfg 2#4) ∧
  decode 0x11200000#32 = .ok (.movo 2#4) ∧
  decode 0x23810200#32 = .ok (.stw .one 1#7 2#8) ∧
  decode 0x300000A5#32 = .ok (.expand 0xA5#8) ∧
  decode 0x41010300#32 = .ok (.hpu 1#7 3#8) ∧
  decode 0x51800201#32 = .ok (.mac .one 0#7 2#8 1#8) ∧
  decode 0x00000001#32 = .error .mustBeZeroBitSet ∧
  decode 0x40800000#32 = .error .mustBeZeroBitSet ∧
  decode 0x13000000#32 = .error .opcodeNotAssigned

/-! ### The step -/

/-- A step takes the environment's next choice; the agent's fetched word, when it decodes, is executed as
that operation in the state that presents it, and an agent without an enabled step changes nothing but
the choices left (R13, R70, R91, R100). That a step takes a laid-down choice and may be such a stutter is
the model's choice (log 1). -/
def Obligations.StepRunsTheFetchedOperation : Prop :=
  (∀ (s : State) (t : Turn) (rest : List Turn) (w : Word) (i : Instr),
    s.turns = t :: rest → State.fetch { s with turns := rest } t = some w → decode w = .ok i →
      step s = exec i (State.present { s with turns := rest } t)) ∧
  (∀ (s : State) (r : BitVec 4) (w : Word) (rest : List Turn),
    s.turns = .ring r w :: rest → State.fetch { s with turns := rest } (.ring r w) = none →
      step s = .next { s with turns := rest }) ∧
  ∀ (s : State) (d : Word) (rest : List Turn),
    s.turns = .seq d :: rest → State.fetch { s with turns := rest } (.seq d) = none →
      step s = .next { s with turns := rest }

/-- Where each agent's operation comes from: the host's from its transaction; an enabled ring engine's is
MOVI for ring 0 and MOVO for a playback ring; the sequencer's is PASSPROG(cfg)[UPC] inside a pass, and
when idle it has one exactly when ARMED = 1 and PEND[0] = 1 (R91, R140, R160, R161). -/
def Obligations.FetchFollowsEachAgent : Prop :=
  (∀ (s : State) (opw wdata : Word), s.fetch (.host opw wdata) = some opw) ∧
  (∀ (s : State) (r : BitVec 4) (w : Word) (g : Ring),
    s.rings[r.toNat]? = some g → r.toNat ≤ s.cfg.nout → 1 ≤ g.rem.toNat →
      s.fetch (.ring r w) =
        if g.en = true then
          if r = 0 then some 0x10000000#32 else some (encode (.movo r))
        else none) ∧
  (∀ (s : State) (d : Word), s.busy = true →
    s.fetch (.seq d) = ((passProg s.cfg)[s.upc.toNat]?).map encode) ∧
  ∀ (s : State) (d : Word), s.busy = false → s.upc = 0 →
    s.fetch (.seq d) =
      if s.armed = true ∧ s.irq.getLsbD 0 = true then some 0x20000000#32 else none

/-- A word the host presents that is no operation raises ILLEGAL_OP (R100, R101, R270). -/
def Obligations.InvalidWordRaisesIllegalOp : Prop :=
  ∀ (s : State) (opw wdata : Word) (rest : List Turn) (e : DecodeError),
    s.turns = .host opw wdata :: rest → decode opw = .error e →
      step s = .next (raiseFault .illegalOp
        { s with turns := rest, issuer := .host, opw := opw, wdata := wdata })

/-- `raise Fault`: the first fault records its code and word, halts the block and disables every ring,
and changes nothing else; in HALT it only answers (R261, R262). -/
def Obligations.RaiseFaultRecordsAndHalts : Prop :=
  (∀ (code : FaultCode) (s : State), s.halt = false →
    raiseFault code s =
      { s with
        faultCode :=
          match code with
          | .cfgSize => 1 | .cfgAlign => 2 | .cfgRange => 3 | .cfgOverlap => 4
          | .cfgBusy => 5 | .notReady => 6 | .badReg => 7 | .illegalOp => 8
        faultOp := s.opw
        halt := true
        started := false
        armed := false
        rings := s.rings.map fun g => { g with en := false }
        events := .faulted
          (match code with
            | .cfgSize => 1 | .cfgAlign => 2 | .cfgRange => 3 | .cfgOverlap => 4
            | .cfgBusy => 5 | .notReady => 6 | .badReg => 7 | .illegalOp => 8) s.opw :: s.events
        rdata := 0
        status := .fault }) ∧
  ∀ (code : FaultCode) (s : State), s.halt = true →
    raiseFault code s = { s with rdata := 0, status := .fault }

/-- While HALT = 1 every operation at the host port but RDREG and SRST is answered FAULT with RDATA = 0
and changes no state (R129). -/
def Obligations.HaltedPortOnlyAnswers : Prop :=
  ∀ (i : Instr) (s : State), s.issuer = .host → s.halt = true →
    (∀ off, i ≠ .rdreg off) → i ≠ .srst →
      exec i s = .next { s with rdata := 0, status := .fault }

/-- The operations of the rings and the sequencer raise ILLEGAL_OP at the host port, whatever their
fields (R129, R270). -/
def Obligations.EngineOperationsFaultAtThePort : Prop :=
  ∀ (i : Instr) (s : State), s.issuer = .host →
    (rowOf i).mnemonic ∈ ["MOVI", "MOVO", "RLD", "ENTER", "LDW", "STW", "LEAVE", "DEINT", "ASM",
      "HSH", "HPU", "CLR", "MAC", "SAT", "SHL"] →
      exec i s = .next (raiseFault .illegalOp s)

/-! ### Host control -/

/-- NOP does nothing but answer OK with RDATA 0 (R120). -/
def Obligations.NopOnlyAnswers : Prop :=
  encode .nop = 0x00000000#32 ∧
  ∀ s : State, s.issuer = .host → s.halt = false →
    exec .nop s = .next { s with rdata := 0, status := .ok }

/-- RDREG answers with the register at the offset, reserved bits 0, in HALT too, and changes nothing
else (R34 to R45, R49, R121). -/
def Obligations.RdregAnswersTheRegister : Prop :=
  ∀ s : State, s.issuer = .host → s.cfg.nout ≤ 15 →
    exec (.rdreg 0x000) s = .next { s with
      rdata := 0#28 ++ BitVec.ofBool s.halt ++ BitVec.ofBool s.busy ++ BitVec.ofBool s.armed ++
        BitVec.ofBool s.started
      status := .ok } ∧
    (∃ v : Word, exec (.rdreg 0x004) s = .next { s with rdata := v, status := .ok } ∧
      ∀ i, v.getLsbD i = (decide (i ≤ s.cfg.nout) && s.irq.getLsbD i)) ∧
    exec (.rdreg 0x008) s = .next { s with rdata := 0#24 ++ s.faultCode, status := .ok } ∧
    exec (.rdreg 0x00C) s = .next { s with rdata := s.faultOp, status := .ok } ∧
    exec (.rdreg 0x010) s = .next { s with rdata := s.upc, status := .ok } ∧
    ∀ (r : Nat) (g : Ring), r ≤ s.cfg.nout → s.rings[r]? = some g →
      let off := fun k : Nat => BitVec.ofNat 12 (0x100 + 0x20 * r + k)
      exec (.rdreg (off 0x00)) s = .next { s with rdata := g.addrA, status := .ok } ∧
      exec (.rdreg (off 0x04)) s = .next { s with rdata := g.addrB, status := .ok } ∧
      exec (.rdreg (off 0x08)) s = .next { s with rdata := 0#16 ++ g.len, status := .ok } ∧
      exec (.rdreg (off 0x0C)) s = .next { s with
        rdata := 0#24 ++ g.pace ++ 0#2 ++ BitVec.ofBool g.irqen ++ BitVec.ofBool (decide (r ≠ 0))
        status := .ok } ∧
      exec (.rdreg (off 0x10)) s = .next { s with rdata := g.cur, status := .ok } ∧
      exec (.rdreg (off 0x14)) s = .next { s with rdata := 0#16 ++ g.rem, status := .ok } ∧
      exec (.rdreg (off 0x18)) s = .next { s with
        rdata := 0#29 ++ BitVec.ofBool g.cfgd ++ BitVec.ofBool (decide (g.next = .b)) ++
          BitVec.ofBool g.en
        status := .ok }

/-- WRREG clears the pending bits written 1, and writes a stopped ring's configuration registers, which
clears CFGD; reserved bits and DIR are not written (R36, R39 to R42, R122). -/
def Obligations.WrregWritesTheRegister : Prop :=
  ∀ s : State, s.issuer = .host → s.halt = false → s.cfg.nout ≤ 15 →
    (∃ v : Word, exec (.wrreg 0x004) s = .next { s with irq := v, rdata := 0, status := .ok } ∧
      ∀ i, v.getLsbD i =
        (s.irq.getLsbD i && !(decide (i ≤ s.cfg.nout) && s.wdata.getLsbD i))) ∧
    ∀ (r : Nat) (g : Ring), r ≤ s.cfg.nout → s.rings[r]? = some g → g.en = false →
      let off := fun k : Nat => BitVec.ofNat 12 (0x100 + 0x20 * r + k)
      let written := fun g' : Ring =>
        { s with rings := s.rings.set r { g' with cfgd := false }, rdata := 0, status := .ok }
      exec (.wrreg (off 0x00)) s = .next (written { g with addrA := s.wdata }) ∧
      exec (.wrreg (off 0x04)) s = .next (written { g with addrB := s.wdata }) ∧
      exec (.wrreg (off 0x08)) s = .next (written { g with len := s.wdata.setWidth 16 }) ∧
      exec (.wrreg (off 0x0C)) s = .next (written
        { g with irqen := s.wdata.getLsbD 1, pace := s.wdata.extractLsb' 4 4 })

/-- BAD_REG: an offset that is misaligned or not in the map, for RDREG and WRREG; for WRREG also a
read-only register, and a configuration register of an enabled ring (R34, R121, R122, R269). -/
def Obligations.BadRegisterAccessFaults : Prop :=
  ∀ s : State, s.issuer = .host → s.cfg.nout ≤ 15 →
    (∀ off : BitVec 12,
      off.toNat ∉ [0x000, 0x004, 0x008, 0x00C, 0x010] →
      (∀ r k, r ≤ s.cfg.nout → k ∈ [0x00, 0x04, 0x08, 0x0C, 0x10, 0x14, 0x18] →
        off.toNat ≠ 0x100 + 0x20 * r + k) →
      exec (.rdreg off) s = .next (raiseFault .badReg s) ∧
      (s.halt = false → exec (.wrreg off) s = .next (raiseFault .badReg s))) ∧
    (s.halt = false →
      (∀ off : BitVec 12, off.toNat ∈ [0x000, 0x008, 0x00C, 0x010] →
        exec (.wrreg off) s = .next (raiseFault .badReg s)) ∧
      (∀ (off : BitVec 12) (r k : Nat), r ≤ s.cfg.nout → k ∈ [0x10, 0x14, 0x18] →
        off.toNat = 0x100 + 0x20 * r + k →
        exec (.wrreg off) s = .next (raiseFault .badReg s)) ∧
      (∀ (off : BitVec 12) (r k : Nat) (g : Ring), r ≤ s.cfg.nout →
        k ∈ [0x00, 0x04, 0x08, 0x0C] → off.toNat = 0x100 + 0x20 * r + k →
        s.rings[r]? = some g → g.en = true →
        exec (.wrreg off) s = .next (raiseFault .badReg s)))

/-- CFG of a stopped ring whose registers pass every check installs the two descriptors (R123). -/
def Obligations.CfgInstallsTheDescriptors : Prop :=
  ∀ (s : State) (r : BitVec 4) (g : Ring), s.issuer = .host → s.halt = false →
    r.toNat ≤ s.cfg.nout → s.rings[r.toNat]? = some g → g.en = false →
    g.len.toNat = (if r = 0 then s.cfg.capLen else s.cfg.pbLen) →
    g.addrA.toNat % (4 * g.len.toNat) = 0 → g.addrB.toNat % (4 * g.len.toNat) = 0 →
    g.addrA.toNat + 4 * g.len.toNat ≤ s.cfg.memSize →
    g.addrB.toNat + 4 * g.len.toNat ≤ s.cfg.memSize → g.addrA ≠ g.addrB →
      exec (.cfg r) s = .next { s with
        rings := s.rings.set r.toNat
          { g with cur := g.addrA, rem := g.len, next := .b, cfgd := true }
        rdata := 0
        status := .ok }

/-- CFG's checks in their order: the first that fails gives the code (R123, R263 to R267, R270, R272). -/
def Obligations.CfgFirstFailingCheckDecides : Prop :=
  ∀ (s : State) (r : BitVec 4), s.issuer = .host → s.halt = false →
    (s.cfg.nout < r.toNat → exec (.cfg r) s = .next (raiseFault .illegalOp s)) ∧
    ∀ g : Ring, r.toNat ≤ s.cfg.nout → s.rings[r.toNat]? = some g →
      (g.en = true → exec (.cfg r) s = .next (raiseFault .cfgBusy s)) ∧
      (g.en = false →
        let want := if r = 0 then s.cfg.capLen else s.cfg.pbLen
        let bytes := 4 * g.len.toNat
        (g.len.toNat ≠ want → exec (.cfg r) s = .next (raiseFault .cfgSize s)) ∧
        (g.len.toNat = want →
          (g.addrA.toNat % bytes ≠ 0 ∨ g.addrB.toNat % bytes ≠ 0 →
            exec (.cfg r) s = .next (raiseFault .cfgAlign s)) ∧
          (g.addrA.toNat % bytes = 0 → g.addrB.toNat % bytes = 0 →
            (s.cfg.memSize < g.addrA.toNat + bytes ∨ s.cfg.memSize < g.addrB.toNat + bytes →
              exec (.cfg r) s = .next (raiseFault .cfgRange s)) ∧
            (g.addrA.toNat + bytes ≤ s.cfg.memSize → g.addrB.toNat + bytes ≤ s.cfg.memSize →
              g.addrA = g.addrB → exec (.cfg r) s = .next (raiseFault .cfgOverlap s)))))

/-- START: NOT_READY when started or when a ring is not configured; else every ring is enabled in the
same step and STARTED is set (R124). -/
def Obligations.StartEnablesEveryRing : Prop :=
  encode .start = 0x04000000#32 ∧
  ∀ s : State, s.issuer = .host → s.halt = false →
    (s.started = true → exec .start s = .next (raiseFault .notReady s)) ∧
    (s.started = false → (∃ g ∈ s.rings, g.cfgd = false) →
      exec .start s = .next (raiseFault .notReady s)) ∧
    (s.started = false → (∀ g ∈ s.rings, g.cfgd = true) →
      exec .start s = .next { s with
        rings := s.rings.map fun g => { g with en := true }
        started := true
        rdata := 0
        status := .ok })

/-- ARM: NOT_READY when not started or already armed; else IRQ is cleared and ARMED set (R125). -/
def Obligations.ArmDiscardsCompletions : Prop :=
  encode .arm = 0x05000000#32 ∧
  ∀ s : State, s.issuer = .host → s.halt = false →
    (s.started = false ∨ s.armed = true → exec .arm s = .next (raiseFault .notReady s)) ∧
    (s.started = true → s.armed = false →
      exec .arm s = .next { s with irq := 0, armed := true, rdata := 0, status := .ok })

/-- STOP clears EN and CFGD of every ring, STARTED and ARMED, and nothing else: a pass in progress, IRQ,
the DelayLines, CUR, REM and NEXT are untouched (R126). -/
def Obligations.StopDisablesEveryRing : Prop :=
  encode .stop = 0x06000000#32 ∧
  ∀ s : State, s.issuer = .host → s.halt = false →
    exec .stop s = .next { s with
      rings := s.rings.map fun g => { g with en := false, cfgd := false }
      started := false
      armed := false
      rdata := 0
      status := .ok }

/-- SRST, in HALT and during a pass too, and the reset input: control registers and UPC 0, every ring
register 0, every H entry 0, MEM with nothing written; the configuration and the record of the run stay
(R48, R127, R290). The values of CW, LB, PH, BASE, Y, ACC and X are not stated: they are free. The model's
choices: a new epoch of free values and an empty MEM list (logs 4, 5), the record kept (log 11). -/
def Obligations.SrstGivesTheResetState : Prop :=
  let reset := fun s t : State =>
    t.started = false ∧ t.armed = false ∧ t.busy = false ∧ t.halt = false ∧
    t.irq = 0 ∧ t.faultCode = 0 ∧ t.faultOp = 0 ∧ t.upc = 0 ∧
    t.rings = List.replicate (1 + s.cfg.nout)
      { addrA := 0, addrB := 0, len := 0, irqen := false, pace := 0, cur := 0, rem := 0,
        en := false, next := .a, cfgd := false } ∧
    t.h = List.replicate s.cfg.channels (List.replicate (s.cfg.taps - 1 + s.cfg.frames) 0) ∧
    t.mem = [] ∧ t.epoch = s.epoch + 1 ∧ t.shaped ∧ t.cfg = s.cfg ∧ t.events = s.events
  (∀ s : State, s.issuer = .host →
    ∃ t : State, exec .srst s = .next t ∧ reset s t ∧ t.rdata = 0 ∧ t.status = .ok ∧
      t.turns = s.turns) ∧
  ∀ (s : State) (rest : List Turn), s.turns = .reset :: rest →
    ∃ t : State, step s = .next t ∧ reset s t ∧ t.turns = rest

/-- HostRead and HostWrite at an aligned address inside MEM: the word read or written, and nothing else
(R74); the word read stands in the model's field mdata (log 19). -/
def Obligations.HostPathReadsAndWritesWords : Prop :=
  ∀ (s : State) (a v : Word) (rest : List Turn), a.toNat % 4 = 0 →
    a.toNat + 4 ≤ s.cfg.memSize →
      (s.turns = .hostRead a :: rest →
        step s = .next { s with turns := rest, mdata := s.wordAt a.toNat }) ∧
      (s.turns = .hostWrite a v :: rest →
        ∃ t : State, step s = .next t ∧
          t = { s with turns := rest, mem := setWord s.mem a.toNat v } ∧
          t.wordAt a.toNat = v ∧
          ∀ x, x < a.toNat ∨ a.toNat + 4 ≤ x → t.byteAt x = s.byteAt x)

/-! ### The transfer ring -/

/-- MOVI stores the drawn word at CUR and advances CUR and REM; when it moves the last word, RLD happens
in the same step. No other byte of MEM and no other register changes (R141, R143). -/
def Obligations.MoviStoresTheCaptureWord : Prop :=
  ∀ (s : State) (g : Ring), s.issuer = .ring 0 → s.rings[0]? = some g →
    g.cur.toNat % 4 = 0 → g.cur.toNat + 4 ≤ s.cfg.memSize → 1 ≤ g.rem.toNat →
    ∃ t : State, exec (.movi 0) s = .next t ∧
      t.wordAt g.cur.toNat = s.draw ∧
      (∀ x, x < g.cur.toNat ∨ g.cur.toNat + 4 ≤ x → t.byteAt x = s.byteAt x) ∧
      (2 ≤ g.rem.toNat →
        t = { s with
          mem := setWord s.mem g.cur.toNat s.draw
          rings := s.rings.set 0 { g with cur := g.cur + 4, rem := g.rem - 1 }
          events := .capIn g.cur s.draw :: s.events }) ∧
      (g.rem.toNat = 1 →
        t = { s with
          mem := setWord s.mem g.cur.toNat s.draw
          rings := s.rings.set 0 { g with
            cur := match g.next with | .b => g.addrB | .a => g.addrA
            next := match g.next with | .b => .a | .a => .b
            rem := g.len }
          irq := if g.irqen then s.irq ||| 1#32 else s.irq
          events := .complete 0 :: .capIn g.cur s.draw :: s.events })

/-- MOVO delivers the word at CUR and advances CUR and REM; when it moves the last word, RLD happens in the
same step. MEM is not changed (R142, R143). -/
def Obligations.MovoDeliversThePlaybackWord : Prop :=
  ∀ (s : State) (r : BitVec 4) (g : Ring), s.issuer = .ring r → 1 ≤ r.toNat →
    r.toNat ≤ s.cfg.nout → s.rings[r.toNat]? = some g →
    g.cur.toNat % 4 = 0 → g.cur.toNat + 4 ≤ s.cfg.memSize → 1 ≤ g.rem.toNat →
    (2 ≤ g.rem.toNat →
      exec (.movo r) s = .next { s with
        rings := s.rings.set r.toNat { g with cur := g.cur + 4, rem := g.rem - 1 }
        events := .pbOut r g.cur (s.wordAt g.cur.toNat) :: s.events }) ∧
    (g.rem.toNat = 1 →
      exec (.movo r) s = .next { s with
        rings := s.rings.set r.toNat { g with
          cur := match g.next with | .b => g.addrB | .a => g.addrA
          next := match g.next with | .b => .a | .a => .b
          rem := g.len }
        irq := if g.irqen then s.irq ||| BitVec.twoPow 32 r.toNat else s.irq
        events := .complete r :: .pbOut r g.cur (s.wordAt g.cur.toNat) :: s.events })

/-- RLD emits COMPLETE, sets PEND[r] when IRQEN = 1, installs the base NEXT names, complements NEXT and
reloads REM; nothing else changes (R143). That the word has an effect of its own, outside a move, is the
model's choice (log 9). -/
def Obligations.RldReloadsTheDescriptor : Prop :=
  ∀ (s : State) (r : BitVec 4) (g : Ring), s.issuer = .ring r → r.toNat ≤ s.cfg.nout →
    s.rings[r.toNat]? = some g →
      exec (.rld r) s = .next { s with
        rings := s.rings.set r.toNat { g with
          cur := match g.next with | .b => g.addrB | .a => g.addrA
          next := match g.next with | .b => .a | .a => .b
          rem := g.len }
        irq := if g.irqen then s.irq ||| BitVec.twoPow 32 r.toNat else s.irq
        events := .complete r :: s.events }

/-! ### The orchestrator -/

/-- ENTER clears PEND[0], sets BUSY, emits STAT_ENTRY with the drawn timestamp and sets UPC to 1; it saves
nothing and changes nothing else (R161, R273). -/
def Obligations.EnterTakesTheCompletion : Prop :=
  ∀ s : State, s.issuer = .seq →
    ∃ t : State, exec .enter s = .next t ∧
      t = { s with irq := t.irq, busy := true, upc := 1, events := .statEntry s.draw :: s.events } ∧
      ∀ i, t.irq.getLsbD i = (decide (i ≠ 0) && s.irq.getLsbD i)

/-- PROBE inside a pass writes PH[r] with the half CUR lies in, or with a drawn one when `active(r)`
is none, and BASE[r] with the base of the opposite half; nothing else changes (R145, R162). That
the drawn half is bit 0 of the draw is the model's choice (log 16). -/
def Obligations.ProbeSelectsTheIdleHalf : Prop :=
  ∀ (s : State) (r : BitVec 4) (g : Ring), s.issuer = .seq → r.toNat ≤ s.cfg.nout →
    s.rings[r.toNat]? = some g →
    let bytes := 4 * g.len.toNat
    let probed := fun half : Half => Host.Outcome.next (φ := Machine.Fault) (ρ := Refusal) { s with
      ph := s.ph.set r.toNat half
      base := s.base.set r.toNat (match half with | .a => g.addrB | .b => g.addrA)
      upc := s.upc + 1 }
    (g.en = true → g.addrA.toNat ≤ g.cur.toNat → g.cur.toNat < g.addrA.toNat + bytes →
      exec (.probe r) s = probed .a) ∧
    (g.en = true → ¬(g.addrA.toNat ≤ g.cur.toNat ∧ g.cur.toNat < g.addrA.toNat + bytes) →
      g.addrB.toNat ≤ g.cur.toNat → g.cur.toNat < g.addrB.toNat + bytes →
      exec (.probe r) s = probed .b) ∧
    (g.en = false ∨ (¬(g.addrA.toNat ≤ g.cur.toNat ∧ g.cur.toNat < g.addrA.toNat + bytes) ∧
        ¬(g.addrB.toNat ≤ g.cur.toNat ∧ g.cur.toNat < g.addrB.toNat + bytes)) →
      exec (.probe r) s = probed (if s.draw.getLsbD 0 then .b else .a))

/-- PROBE at the host port answers 0 or 1, the half CUR lies in, or 0x80000000 when `active(r)`
is none, and writes neither PH nor BASE; a bad ring raises ILLEGAL_OP (R145, R162). -/
def Obligations.ProbeAnswersTheHost : Prop :=
  ∀ (s : State) (r : BitVec 4), s.issuer = .host → s.halt = false →
    (s.cfg.nout < r.toNat → exec (.probe r) s = .next (raiseFault .illegalOp s)) ∧
    ∀ g : Ring, r.toNat ≤ s.cfg.nout → s.rings[r.toNat]? = some g →
      let bytes := 4 * g.len.toNat
      (g.en = true → g.addrA.toNat ≤ g.cur.toNat → g.cur.toNat < g.addrA.toNat + bytes →
        exec (.probe r) s = .next { s with rdata := 0, status := .ok }) ∧
      (g.en = true → ¬(g.addrA.toNat ≤ g.cur.toNat ∧ g.cur.toNat < g.addrA.toNat + bytes) →
        g.addrB.toNat ≤ g.cur.toNat → g.cur.toNat < g.addrB.toNat + bytes →
        exec (.probe r) s = .next { s with rdata := 1, status := .ok }) ∧
      (g.en = false ∨ (¬(g.addrA.toNat ≤ g.cur.toNat ∧ g.cur.toNat < g.addrA.toNat + bytes) ∧
          ¬(g.addrB.toNat ≤ g.cur.toNat ∧ g.cur.toNat < g.addrB.toNat + bytes)) →
        exec (.probe r) s = .next { s with rdata := 0x80000000, status := .ok })

/-- LDW k latches the word at BASE[0] + 4k in CW; nothing else changes, no byte of MEM (R163). At an address
that MemRead excludes it completes too, with a drawn word in CW: that word is the model's choice (log 21). -/
def Obligations.LdwLatchesTheCaptureWord : Prop :=
  ∀ (s : State) (k : BitVec 16) (b : Word), s.issuer = .seq → k.toNat < s.cfg.capLen →
    s.base[0]? = some b →
    let a := b.toNat + 4 * k.toNat
    (a % 4 = 0 → a + 4 ≤ s.cfg.memSize →
      exec (.ldw k) s = .next { s with cw := s.wordAt a, upc := s.upc + 1 }) ∧
    (a % 4 ≠ 0 ∨ s.cfg.memSize < a + 4 →
      exec (.ldw k) s = .next { s with cw := s.draw, upc := s.upc + 1 })

/-- STW p, ch, m stores Y[p] at word `(2m + p)*OCPL + q` of BASE[1 + l], (l, q) = OUTMAP(ch); nothing else
changes, no other byte of MEM (R67, R68, R164). At an address that MemWrite excludes it completes too, and
the draw is the place of the store when it names a word of MEM, no byte of MEM changing otherwise: that place
is the model's choice (log 21). -/
def Obligations.StwPlacesTheOutputSample : Prop :=
  ∀ (s : State) (p : Phase) (ch : BitVec 7) (m : BitVec 8) (l q : Nat) (b : Word),
    s.issuer = .seq → ch.toNat < s.cfg.channels → m.toNat < s.cfg.frames →
    s.cfg.outMap[ch.toNat]? = some (l, q) → s.base[1 + l]? = some b →
    let stores := fun (a : Nat) =>
      ∃ t : State, exec (.stw p ch m) s = .next t ∧
        t = { s with mem := setWord s.mem a (s.y.get p), upc := s.upc + 1 } ∧
        t.wordAt a = s.y.get p ∧
        ∀ x, x < a ∨ a + 4 ≤ x → t.byteAt x = s.byteAt x
    let a := b.toNat +
      4 * ((2 * m.toNat + (match p with | .zero => 0 | .one => 1)) * s.cfg.ocpl + q)
    (a % 4 = 0 → a + 4 ≤ s.cfg.memSize → stores a) ∧
    (a % 4 ≠ 0 ∨ s.cfg.memSize < a + 4 → s.draw.toNat % 4 = 0 →
      s.draw.toNat + 4 ≤ s.cfg.memSize → stores s.draw.toNat) ∧
    (a % 4 ≠ 0 ∨ s.cfg.memSize < a + 4 →
      s.draw.toNat % 4 ≠ 0 ∨ s.cfg.memSize < s.draw.toNat + 4 →
      exec (.stw p ch m) s = .next { s with upc := s.upc + 1 })

/-- LEAVE emits STAT_EXIT with the drawn timestamp, clears BUSY and sets UPC to 0; it restores nothing and
changes nothing else (R165, R274). -/
def Obligations.LeaveReturnsToIdle : Prop :=
  ∀ s : State, s.issuer = .seq →
    exec .leave s = .next { s with
      busy := false, upc := 0, events := .statExit s.draw :: s.events }

/-! ### The deinterleaver -/

/-- EXPAND answers the table entry: bit 2k is bit k of the byte for k < 8, every other bit is 0; no state
changes (R191). -/
def Obligations.ExpandSpreadsTheByte : Prop :=
  (∀ b : Byte, encode (.expand b) = 0x30000000#32 ||| b.setWidth 32) ∧
  ∀ (s : State) (b : Byte), s.issuer = .host → s.halt = false →
    ∃ v : Word, exec (.expand b) s = .next { s with rdata := v, status := .ok } ∧
      ∀ n, v.getLsbD n = (decide (n < 16) && decide (n % 2 = 0) && b.getLsbD (n / 2))

/-- DEINT w writes each line's stream into the BPL-bit field of its line buffer at the place the
configuration gives word w of a frame (R197; a field of the model's record, log 3), which with the default
places is the spec's, earlier words more significant, and leaves the other of its FB bits; nothing else
changes (R190, R194). -/
def Obligations.DeintFillsTheLineBuffers : Prop :=
  ∀ (s : State) (k : BitVec 16), s.issuer = .seq → k.toNat < s.cfg.wpf →
    ∃ t : State, exec (.deint k) s = .next t ∧
      t = { s with lb := t.lb, upc := s.upc + 1 } ∧
      t.lb.length = s.cfg.nlines ∧
      (∀ i v v', t.lb[i]? = some v' → s.lb[i]? = some v →
        let lo := s.cfg.wordPlaceOf k.toNat * s.cfg.bpl
        v' < 2 ^ s.cfg.fb ∧ ∀ n, n < s.cfg.fb → v'.testBit n =
          if lo ≤ n ∧ n < lo + s.cfg.bpl then s.cw.getLsbD (s.cfg.lineBitOf i (n - lo))
          else v.testBit n) ∧
      (s.cfg.wordPlace = Cfg.defaultWordPlace s.cfg.wpf →
        s.cfg.wordPlaceOf k.toNat = s.cfg.wpf - 1 - k.toNat)

/-- ASM f writes the sample of every slot of every line at X[CHANMAP(i, q)][f], the slot's bits (slot 0 most
significant) sign-extended to 32, and leaves every other frame's samples; nothing else changes (R195). -/
def Obligations.AsmWritesTheSamples : Prop :=
  ∀ (s : State) (k : BitVec 16), s.issuer = .seq → s.cfg.Valid → s.shaped →
    k.toNat < s.cfg.frames →
    ∃ t : State, exec (.asm k) s = .next t ∧
      t = { s with x := t.x, upc := s.upc + 1 } ∧ t.shaped ∧
      (∀ i q, i < s.cfg.nlines → q < s.cfg.cpl → ∀ n, n < 32 →
        (fileAt t.x (s.cfg.chanOf i q) k.toNat 0).getLsbD n =
          (s.lb.getD i 0).testBit
            (s.cfg.fb - (q + 1) * s.cfg.slotBits + min n (s.cfg.slotBits - 1))) ∧
      ∀ ch f, f ≠ k.toNat → fileAt t.x ch f 0 = fileAt s.x ch f 0

/-- COMBINE packs line streams so that the streams DEINT recovers are the ones packed, and packing the
streams of a word gives the word, for every number of lines, with the default LINEBIT (R190, R193,
R194). -/
def Obligations.LineStreamsInvertCombine : Prop :=
  ∀ c : Cfg, (c.nlines = 1 ∨ c.nlines = 2 ∨ c.nlines = 4) →
    c.lineBit = Cfg.defaultLineBit c.nlines →
    (∀ streams : List Nat, streams.length = c.nlines → (∀ v ∈ streams, v < 2 ^ c.bpl) →
      (List.range c.nlines).map (lineStream c (combine c.nlines streams)) = streams) ∧
    ∀ w : Word, combine c.nlines ((List.range c.nlines).map (lineStream c w)) = w

/-! ### The FIR upsampler -/

/-- HSH moves the DelayLine of one channel to the front of its window, from a snapshot; the other entries,
the other channels and everything else stay (R213, R294). -/
def Obligations.HshShiftsFromASnapshot : Prop :=
  ∀ (s : State) (ch : BitVec 7) (row : List Int), s.issuer = .seq → ch.toNat < s.cfg.channels →
    s.h[ch.toNat]? = some row → row.length = s.cfg.taps - 1 + s.cfg.frames →
    ∃ row' : List Int,
      exec (.hsh ch) s = .next { s with h := s.h.set ch.toNat row', upc := s.upc + 1 } ∧
      row'.length = row.length ∧
      (∀ i, i < s.cfg.taps - 1 → row'[i]? = row[s.cfg.frames + i]?) ∧
      ∀ i, s.cfg.taps - 1 ≤ i → row'[i]? = row[i]?

/-- HPU writes one window entry with the floor of a sample divided by 256; nothing else changes
(R211, R214). -/
def Obligations.HpuPushesThePrescaledSample : Prop :=
  ∀ (s : State) (ch : BitVec 7) (m : BitVec 8) (row : List Int) (xs : List Word) (x : Word),
    s.issuer = .seq → ch.toNat < s.cfg.channels → m.toNat < s.cfg.frames →
    s.h[ch.toNat]? = some row → s.x[ch.toNat]? = some xs → xs[m.toNat]? = some x →
    ∃ v : Int,
      exec (.hpu ch m) s = .next { s with
        h := s.h.set ch.toNat (row.set (s.cfg.taps - 1 + m.toNat) v), upc := s.upc + 1 } ∧
      256 * v ≤ x.toInt ∧ x.toInt < 256 * (v + 1)

/-- Feeding samples in chunks, of any lengths and with any FRAMES, gives the outputs and the DelayLine of
feeding them at once (R216). -/
def Obligations.ChunkedFilteringIsSeamless : Prop :=
  ∀ (c : Cfg) (frames : Nat) (hist : List Int) (chunks : List (List Word)),
    hist.length = c.taps - 1 →
      firChunks { c with frames := frames } hist chunks = firBlk c hist chunks.flatten

/-- An impulse of pre-scaled value `a` at position `n0` of an otherwise zero input reproduces both kernels'
coefficients in index order, clamped and shifted, and every other output is 0 (R218). -/
def Obligations.ImpulseReproducesTheKernels : Prop :=
  ∀ (c : Cfg) (before after : Nat) (u : Word), c.Valid →
    let out := (firBlk c (List.replicate (c.taps - 1) 0)
      (List.replicate before 0 ++ u :: List.replicate after 0)).1
    ∀ (n : Nat) (p : Phase), n < before + 1 + after →
      out[2 * n + phaseIndex p]? = some
        (if before ≤ n ∧ n - before < c.taps then
          clamp (c.coeff p (n - before) * prescale u) c.clampLo c.clampHi * 2 ^ c.outShift
        else 0)

/-- An output of FIRBLK is the clamp boundary shifted left whenever the exact sum leaves the clamp range,
and the exact sum shifted left otherwise, never a wrapped value; every output fits an `i32` (R215, R219,
R230). -/
def Obligations.SaturationGivesTheBoundary : Prop :=
  ∀ (c : Cfg) (hist : List Int) (xs : List Word) (m : Nat) (p : Phase), c.Valid →
    hist.length = c.taps - 1 → m < xs.length →
    let w := hist ++ xs.map fun x => x.toInt / 256
    let acc := ((List.range c.taps).map fun j => c.coeff p j * w.getD (c.taps - 1 + m - j) 0).sum
    ∃ v : Int, (firBlk c hist xs).1[2 * m + phaseIndex p]? = some v ∧
      (c.clampHi < acc → v = c.clampHi * 2 ^ c.outShift) ∧
      (acc < c.clampLo → v = c.clampLo * 2 ^ c.outShift) ∧
      (c.clampLo ≤ acc → acc ≤ c.clampHi → v = acc * 2 ^ c.outShift) ∧
      -(2 ^ 31) ≤ v ∧ v < 2 ^ 31

/-! ### The MAC pipeline -/

/-- CLR clears the accumulator of its phase and nothing else (R231). -/
def Obligations.ClrClearsTheAccumulator : Prop :=
  encode (.clr .zero) = 0x50000000#32 ∧ encode (.clr .one) = 0x50800000#32 ∧
  ∀ s : State, s.issuer = .seq →
    exec (.clr .zero) s = .next { s with acc := ⟨0, s.acc.one⟩, upc := s.upc + 1 } ∧
    exec (.clr .one) s = .next { s with acc := ⟨s.acc.zero, 0⟩, upc := s.upc + 1 }

/-- MAC adds the exact product of the phase's coefficient and the window entry TAPS - 1 + m - j to the
accumulator of its phase, and changes nothing else (R232). -/
def Obligations.MacAccumulatesExactly : Prop :=
  ∀ (s : State) (ch : BitVec 7) (m j : BitVec 8) (row : List Int) (v k0 k1 : Int),
    s.issuer = .seq → ch.toNat < s.cfg.channels → m.toNat < s.cfg.frames →
    j.toNat < s.cfg.taps → s.h[ch.toNat]? = some row →
    row[s.cfg.taps - 1 + m.toNat - j.toNat]? = some v →
    s.cfg.k0[j.toNat]? = some k0 → s.cfg.k1[j.toNat]? = some k1 →
      exec (.mac .zero ch m j) s =
        .next { s with acc := ⟨s.acc.zero + k0 * v, s.acc.one⟩, upc := s.upc + 1 } ∧
      exec (.mac .one ch m j) s =
        .next { s with acc := ⟨s.acc.zero, s.acc.one + k1 * v⟩, upc := s.upc + 1 }

/-- SAT clamps the accumulator of its phase into CLAMP_LO..CLAMP_HI and changes nothing else (R233). -/
def Obligations.SatClampsTheAccumulator : Prop :=
  ∀ s : State, s.issuer = .seq → s.cfg.clampLo ≤ s.cfg.clampHi →
    exec (.sat .zero) s = .next { s with
      acc := ⟨max s.cfg.clampLo (min s.acc.zero s.cfg.clampHi), s.acc.one⟩
      upc := s.upc + 1 } ∧
    exec (.sat .one) s = .next { s with
      acc := ⟨s.acc.zero, max s.cfg.clampLo (min s.acc.one s.cfg.clampHi)⟩
      upc := s.upc + 1 }

/-- SHL writes the result register of its phase, for an accumulator in the clamp range with the exact value
ACC * 2^OUT_SHIFT, and changes nothing else (R234). -/
def Obligations.ShlRestoresTheScale : Prop :=
  ∀ (s : State) (p : Phase), s.issuer = .seq → s.cfg.Valid →
    s.cfg.clampLo ≤ s.acc.get p → s.acc.get p ≤ s.cfg.clampHi →
    ∃ v : Word,
      exec (.shl p) s = .next { s with
        y := (match p with | .zero => ⟨v, s.y.one⟩ | .one => ⟨s.y.zero, v⟩)
        upc := s.upc + 1 } ∧
      v.toInt = s.acc.get p * 2 ^ s.cfg.outShift

/-! ### Invariants every step keeps -/

/-- No step changes the configuration (geometry, kernels, shift, clamp bounds) nor the size of a register
file (R20, R32, R222). -/
def Obligations.EveryStepKeepsTheShape : Prop :=
  ∀ s t : State, step s = .next t → t.cfg = s.cfg ∧ (s.shaped → t.shaped)

/-- The ring invariants are kept: an enabled ring is configured, a configured ring's halves are as CFG
accepted them, and CUR and REM say how far the move is (R43, R44, R45, R63, R144). -/
def Obligations.EveryStepKeepsTheRingsGood : Prop :=
  ∀ s t : State, s.cfg.Valid → s.ringsGood → step s = .next t → t.ringsGood

/-- The control invariants are kept: ARMED implies STARTED, HALT excludes both, BUSY exactly when UPC ≠ 0,
UPC inside the micro-program, every EN equal to STARTED, FAULT recorded exactly in HALT (R27, R35,
R37, R38, R261). -/
def Obligations.EveryStepKeepsTheControlGood : Prop :=
  ∀ s t : State, s.cfg.Valid → s.controlGood → step s = .next t → t.controlGood

/-- The ranges of H, LB and IRQ are kept (R22, R31, R36, R212). -/
def Obligations.EveryStepKeepsTheDataGood : Prop :=
  ∀ s t : State, s.cfg.Valid → s.dataGood → step s = .next t → t.dataGood

/-- MEM stays in the model's canonical form (log 5) with nothing listed outside MEMSIZE bytes (R60, R63). -/
def Obligations.EveryStepKeepsTheMemoryGood : Prop :=
  ∀ s t : State, s.memGood → step s = .next t → t.memGood

/-- Every reset state of every valid configuration meets the invariants, no engine and no sequencer has a step
in it (R48, R290); the machine's own reset state is one of them, for a configuration the model chose
(log 2). -/
def Obligations.EveryResetStateIsGood : Prop :=
  (∀ (c : Cfg) (epoch : Nat), c.Valid →
    (State.resetWith c epoch).shaped ∧ (State.resetWith c epoch).ringsGood ∧
    (State.resetWith c epoch).controlGood ∧ (State.resetWith c epoch).dataGood ∧
    (State.resetWith c epoch).memGood ∧
    (∀ r w, (State.resetWith c epoch).fetch (.ring r w) = none) ∧
    ∀ d, (State.resetWith c epoch).fetch (.seq d) = none) ∧
  ∃ c : Cfg, c.Valid ∧ State.reset = State.resetWith c 0

/-! ### Rules of the whole machine -/

/-- THE MODEL'S CHOICE (log 7): an access of a ring or of the host's path to MEM at an address that MemRead
and MemWrite exclude stops by name, the misaligned address first (R11, R62, R74). -/
def Obligations.AccessesOutsideMemStop : Prop :=
  ∀ s : State,
    let stops := fun (r : Result) (a : Nat) =>
      (a % 4 ≠ 0 → r = .fault .misalignedAccess) ∧
      (a % 4 = 0 → s.cfg.memSize < a + 4 → r = .fault .addressOutsideMemory)
    (∀ g, s.issuer = .ring 0 → s.rings[0]? = some g → stops (exec (.movi 0) s) g.cur.toNat) ∧
    (∀ r g, s.issuer = .ring r → 1 ≤ r.toNat → r.toNat ≤ s.cfg.nout →
      s.rings[r.toNat]? = some g → stops (exec (.movo r) s) g.cur.toNat) ∧
    (∀ a rest, s.turns = .hostRead a :: rest → stops (step s) a.toNat) ∧
    ∀ a v rest, s.turns = .hostWrite a v :: rest → stops (step s) a.toNat

/-- THE MODEL'S CHOICE (log 8): an operation that the spec says an engine or the sequencer never forms
(another issuer's, another ring's, or one with a field out of range) is refused by name when `exec` is
asked for it (R100, R275). -/
def Obligations.OperationsNeverFormedAreRefused : Prop :=
  ∀ (i : Instr) (s : State),
    (s.issuer = .seq → (rowOf i).mnemonic ∉ ["ENTER", "PROBE", "LDW", "STW", "LEAVE", "DEINT",
      "ASM", "HSH", "HPU", "CLR", "MAC", "SAT", "SHL"] → exec i s = .refused .neverFormed) ∧
    (∀ r, s.issuer = .ring r → i ≠ .movi r → i ≠ .movo r → i ≠ .rld r →
      exec i s = .refused .neverFormed) ∧
    (s.issuer ≠ .host → i.wellFormed s.cfg = false → exec i s = .refused .neverFormed)

/-- No step of any state with a valid configuration is refused: the rings and the sequencer form only legal
operations of their own (R100, R166, R275). -/
def Obligations.NoStepIsRefused : Prop :=
  ∀ (s : State) (r : Refusal), s.cfg.Valid → step s ≠ .refused r

/-- The rings and the sequencer have no failing case: a ring's step always completes when the ring invariants
hold, the sequencer's in every state, whatever the rings or the host did, and neither takes nor clears a
fault (R63, R140, R160, R260). -/
def Obligations.RingAndSequencerStepsAlwaysComplete : Prop :=
  ∀ s : State, s.cfg.Valid →
    (∃ r w, s.takeTurn.1 = .ring r w ∧ s.ringsGood) ∨ (∃ d, s.takeTurn.1 = .seq d) →
    ∃ t : State, step s = .next t ∧
      t.halt = s.halt ∧ t.faultCode = s.faultCode ∧ t.faultOp = s.faultOp

/-- But for SRST at the host port and the reset input: HALT, once set, stays with its recorded fault, and
no step that is not a host transaction sets it or records a fault (R37, R38, R260, R262, R274). -/
def Obligations.FaultRecordIsTheHostsUntilReset : Prop :=
  ∀ s t : State, step s = .next t → s.takeTurn.1 ≠ .reset →
    (∀ opw wdata, s.takeTurn.1 = .host opw wdata → decode opw ≠ .ok .srst) →
    (s.halt = true ∨ ∀ opw wdata, s.takeTurn.1 ≠ .host opw wdata) →
      t.halt = s.halt ∧ t.faultCode = s.faultCode ∧ t.faultOp = s.faultOp

/-- The DelayLines, the staging file and the registers of the datapath are written by sequencer steps inside
a pass only, but for a reset (R129 (d), R169). -/
def Obligations.OnlyAPassWritesAudioState : Prop :=
  ∀ s t : State, step s = .next t → s.takeTurn.1 ≠ .reset →
    (∀ opw wdata, s.takeTurn.1 = .host opw wdata → decode opw ≠ .ok .srst) →
    ((∀ d, s.takeTurn.1 ≠ .seq d) ∨ (s.busy = false ∧ s.controlGood)) → s.sameAudio t

/-- The micro-program has PLEN operations, the first ENTER, the last LEAVE and neither elsewhere
(R27, R166). -/
def Obligations.MicroProgramHasPlenOperations : Prop :=
  ∀ c : Cfg, 1 ≤ c.taps →
    (passProg c).length =
      2 + (1 + c.nout) + c.frames * (2 * c.wpf + 1) +
        c.nlines * c.cpl * (1 + c.frames + 2 * c.frames * (c.taps + 4)) ∧
    (∀ n : Nat, (passProg c)[n]? = some .enter ↔ n = 0) ∧
    ∀ n : Nat, (passProg c)[n]? = some .leave ↔ n + 1 = (passProg c).length

/-- Every operation of the micro-program has legal fields for the configuration it is made for
(R100, R166). -/
def Obligations.MicroProgramIsLegal : Prop :=
  ∀ c : Cfg, c.Valid → ∀ i ∈ passProg c, i.wellFormed c = true

/-- The half a ring is in changes exactly when it completes a half-block, and then to the other one: under
address probing the halves alternate strictly (R144 (c), R145). -/
def Obligations.CompletionsAlternateTheHalves : Prop :=
  ∀ (s t : State) (r : BitVec 4) (g : Ring) (i : Instr), s.cfg.Valid → s.ringsGood →
    s.issuer = .ring r → s.rings[r.toNat]? = some g → g.en = true →
    (i = .movi r ∨ i = .movo r) → exec i s = .next t →
    ∃ half : Half, s.active r.toNat = some half ∧ half = otherHalf g.next ∧
      t.active r.toNat = some (if g.rem.toNat = 1 then otherHalf half else half)

/-- The operations of one channel compute FIRBLK: run by the sequencer they complete, the channel's
DelayLine becomes FIRBLK's, the output samples stand at their places in the half at BASE[1 + l], every
other byte of MEM and every other channel's window is unchanged (R67, R167 (b) (c), R210, R215, R235). -/
def Obligations.ChannelOperationsComputeFirBlk : Prop :=
  ∀ (s : State) (ch l q : Nat) (row : List Int) (xs : List Word) (b : Word),
    s.issuer = .seq → s.cfg.Valid → s.shaped → ch < s.cfg.channels →
    s.h[ch]? = some row → s.x[ch]? = some xs →
    s.cfg.outMap[ch]? = some (l, q) → s.base[1 + l]? = some b →
    b.toNat % 4 = 0 → b.toNat + 4 * s.cfg.pbLen ≤ s.cfg.memSize →
    let block := firBlk s.cfg (delayLine s.cfg row) xs
    let place := fun n : Nat => b.toNat + 4 * (n * s.cfg.ocpl + q)
    ∃ t : State, runOps (channelOps s.cfg ch) s = .next t ∧
      (∃ row', t.h = s.h.set ch row' ∧ delayLine s.cfg row' = block.2) ∧
      (∀ n v, block.1[n]? = some v → (t.wordAt (place n)).toInt = v) ∧
      (∀ a, (∀ n, n < 2 * s.cfg.frames → a < place n ∨ place n + 4 ≤ a) →
        t.byteAt a = s.byteAt a) ∧
      t.rings = s.rings ∧ t.x = s.x ∧ t.base = s.base ∧ t.irq = s.irq ∧ t.events = s.events

/-- A pass that only the sequencer steps in completes in PLEN steps: with every ring enabled and good, the
block armed and a capture completion pending, PLEN sequencer turns bring it back to idle with the
pending bit consumed and the two statistics events emitted, and no ring register changed (R27, R160,
R165, R167 (d), R255). -/
def Obligations.PassCompletesInPlenSteps : Prop :=
  ∀ (s : State) (ds : List Word), s.cfg.Valid → s.shaped → s.ringsGood →
    (∀ g ∈ s.rings, g.en = true) → s.busy = false → s.upc = 0 → s.armed = true →
    s.irq.getLsbD 0 = true → ds.length = s.cfg.plen → s.turns = ds.map Turn.seq →
    ∃ t : State, Host.Core.run Sys2Proof.core s.cfg.plen s = .next t ∧
      t.busy = false ∧ t.upc = 0 ∧ t.irq.getLsbD 0 = false ∧ t.rings = s.rings ∧ t.turns = [] ∧
      ∃ t0 t1, ds.head? = some t0 ∧ ds.getLast? = some t1 ∧
        t.events = .statExit t1 :: .statEntry t0 :: s.events
end

