-- ==== Sys2Proof/Laws/Encoding.lean ====
section
/-! SUPPORT. The fields of the words the encoder writes: each decoder field of each format. -/

namespace Sys2Proof

@[simp] theorem opcField_wordN (opc : BitVec 8) :
    opcField (wordN opc) = opc := by
  unfold opcField wordN
  rw [BitVec.extractLsb'_append_eq_of_le (by decide)]
  simp

@[simp] theorem wordN_zero (opc : BitVec 8) :
    (wordN opc).extractLsb' 0 24 = 0#24 := by
  unfold wordN
  rw [BitVec.extractLsb'_append_eq_of_add_le (by decide)]
  simp

@[simp] theorem opcField_wordG (opc : BitVec 8) (off : BitVec 12) :
    opcField (wordG opc off) = opc := by
  unfold opcField wordG
  rw [BitVec.extractLsb'_append_eq_of_le (by decide)]
  rw [BitVec.extractLsb'_append_eq_of_le (by decide)]
  simp

@[simp] theorem wordG_zero (opc : BitVec 8) (off : BitVec 12) :
    (wordG opc off).extractLsb' 12 12 = 0#12 := by
  unfold wordG
  rw [BitVec.extractLsb'_append_eq_of_le (by decide)]
  rw [BitVec.extractLsb'_append_eq_of_add_le (by decide)]
  simp

@[simp] theorem offField_wordG (opc : BitVec 8) (off : BitVec 12) :
    offField (wordG opc off) = off := by
  unfold offField wordG
  rw [BitVec.extractLsb'_append_eq_of_add_le (by decide)]
  simp

@[simp] theorem opcField_wordR (opc : BitVec 8) (r : BitVec 4) :
    opcField (wordR opc r) = opc := by
  unfold opcField wordR
  rw [BitVec.extractLsb'_append_eq_of_le (by decide)]
  rw [BitVec.extractLsb'_append_eq_of_le (by decide)]
  simp

@[simp] theorem ringField_wordR (opc : BitVec 8) (r : BitVec 4) :
    ringField (wordR opc r) = r := by
  unfold ringField wordR
  rw [BitVec.extractLsb'_append_eq_of_le (by decide)]
  rw [BitVec.extractLsb'_append_eq_of_add_le (by decide)]
  simp

@[simp] theorem wordR_zero (opc : BitVec 8) (r : BitVec 4) :
    (wordR opc r).extractLsb' 0 20 = 0#20 := by
  unfold wordR
  rw [BitVec.extractLsb'_append_eq_of_add_le (by decide)]
  simp

@[simp] theorem opcField_wordK (opc : BitVec 8) (k : BitVec 16) :
    opcField (wordK opc k) = opc := by
  unfold opcField wordK
  rw [BitVec.extractLsb'_append_eq_of_le (by decide)]
  rw [BitVec.extractLsb'_append_eq_of_le (by decide)]
  simp

@[simp] theorem wordK_zero (opc : BitVec 8) (k : BitVec 16) :
    (wordK opc k).extractLsb' 16 8 = 0#8 := by
  unfold wordK
  rw [BitVec.extractLsb'_append_eq_of_le (by decide)]
  rw [BitVec.extractLsb'_append_eq_of_add_le (by decide)]
  simp

@[simp] theorem kField_wordK (opc : BitVec 8) (k : BitVec 16) :
    kField (wordK opc k) = k := by
  unfold kField wordK
  rw [BitVec.extractLsb'_append_eq_of_add_le (by decide)]
  simp

@[simp] theorem opcField_wordB (opc : BitVec 8) (b : BitVec 8) :
    opcField (wordB opc b) = opc := by
  unfold opcField wordB
  rw [BitVec.extractLsb'_append_eq_of_le (by decide)]
  rw [BitVec.extractLsb'_append_eq_of_le (by decide)]
  simp

@[simp] theorem wordB_zero (opc : BitVec 8) (b : BitVec 8) :
    (wordB opc b).extractLsb' 8 16 = 0#16 := by
  unfold wordB
  rw [BitVec.extractLsb'_append_eq_of_le (by decide)]
  rw [BitVec.extractLsb'_append_eq_of_add_le (by decide)]
  simp

@[simp] theorem bField_wordB (opc : BitVec 8) (b : BitVec 8) :
    bField (wordB opc b) = b := by
  unfold bField wordB
  rw [BitVec.extractLsb'_append_eq_of_add_le (by decide)]
  simp

@[simp] theorem opcField_wordF (opc : BitVec 8) (p : BitVec 1) (ch : BitVec 7) (m : BitVec 8) (j : BitVec 8) :
    opcField (wordF opc p ch m j) = opc := by
  unfold opcField wordF
  rw [BitVec.extractLsb'_append_eq_of_le (by decide)]
  rw [BitVec.extractLsb'_append_eq_of_le (by decide)]
  rw [BitVec.extractLsb'_append_eq_of_le (by decide)]
  rw [BitVec.extractLsb'_append_eq_of_le (by decide)]
  simp

@[simp] theorem pField_wordF (opc : BitVec 8) (p : BitVec 1) (ch : BitVec 7) (m : BitVec 8) (j : BitVec 8) :
    pField (wordF opc p ch m j) = p := by
  unfold pField wordF
  rw [BitVec.extractLsb'_append_eq_of_le (by decide)]
  rw [BitVec.extractLsb'_append_eq_of_le (by decide)]
  rw [BitVec.extractLsb'_append_eq_of_le (by decide)]
  rw [BitVec.extractLsb'_append_eq_of_add_le (by decide)]
  simp

@[simp] theorem chField_wordF (opc : BitVec 8) (p : BitVec 1) (ch : BitVec 7) (m : BitVec 8) (j : BitVec 8) :
    chField (wordF opc p ch m j) = ch := by
  unfold chField wordF
  rw [BitVec.extractLsb'_append_eq_of_le (by decide)]
  rw [BitVec.extractLsb'_append_eq_of_le (by decide)]
  rw [BitVec.extractLsb'_append_eq_of_add_le (by decide)]
  simp

@[simp] theorem mField_wordF (opc : BitVec 8) (p : BitVec 1) (ch : BitVec 7) (m : BitVec 8) (j : BitVec 8) :
    mField (wordF opc p ch m j) = m := by
  unfold mField wordF
  rw [BitVec.extractLsb'_append_eq_of_le (by decide)]
  rw [BitVec.extractLsb'_append_eq_of_add_le (by decide)]
  simp

@[simp] theorem jField_wordF (opc : BitVec 8) (p : BitVec 1) (ch : BitVec 7) (m : BitVec 8) (j : BitVec 8) :
    jField (wordF opc p ch m j) = j := by
  unfold jField wordF
  rw [BitVec.extractLsb'_append_eq_of_add_le (by decide)]
  simp

/-- CH, M and J of a word of format F that are all 0 (rule R97: CLR, SAT, SHL). -/
@[simp] theorem wordF_zero (opc : BitVec 8) (p : BitVec 1) :
    (wordF opc p 0 0 0).extractLsb' 0 23 = 0#23 := by
  ext i hi
  simp only [wordF, BitVec.getElem_extractLsb', BitVec.getLsbD_append]
  have h : i < 8 ∨ i - 8 < 8 ∨ i - 8 - 8 < 7 := by omega
  rcases h with h | h | h <;> simp [h]

@[simp] theorem phaseOfBit_phaseBit (p : Phase) : phaseOfBit (phaseBit p) = p := by cases p <;> rfl

@[simp] theorem phaseBit_phaseOfBit (b : BitVec 1) : phaseBit (phaseOfBit b) = b := by
  revert b; decide

end Sys2Proof
end

