-- ==== Sys2Proof/Laws/State.lean ====
section
/-! SUPPORT. The small lemmas of the record updates of `State`: one per field and update. -/

namespace Sys2Proof.Machine

variable (s : State)

@[simp] theorem State.emit_cfg (e : Event) : (s.emit e).cfg = s.cfg := rfl
@[simp] theorem State.emit_started (e : Event) : (s.emit e).started = s.started := rfl
@[simp] theorem State.emit_armed (e : Event) : (s.emit e).armed = s.armed := rfl
@[simp] theorem State.emit_busy (e : Event) : (s.emit e).busy = s.busy := rfl
@[simp] theorem State.emit_halt (e : Event) : (s.emit e).halt = s.halt := rfl
@[simp] theorem State.emit_irq (e : Event) : (s.emit e).irq = s.irq := rfl
@[simp] theorem State.emit_faultCode (e : Event) : (s.emit e).faultCode = s.faultCode := rfl
@[simp] theorem State.emit_faultOp (e : Event) : (s.emit e).faultOp = s.faultOp := rfl
@[simp] theorem State.emit_upc (e : Event) : (s.emit e).upc = s.upc := rfl
@[simp] theorem State.emit_rings (e : Event) : (s.emit e).rings = s.rings := rfl
@[simp] theorem State.emit_cw (e : Event) : (s.emit e).cw = s.cw := rfl
@[simp] theorem State.emit_lb (e : Event) : (s.emit e).lb = s.lb := rfl
@[simp] theorem State.emit_ph (e : Event) : (s.emit e).ph = s.ph := rfl
@[simp] theorem State.emit_base (e : Event) : (s.emit e).base = s.base := rfl
@[simp] theorem State.emit_y (e : Event) : (s.emit e).y = s.y := rfl
@[simp] theorem State.emit_acc (e : Event) : (s.emit e).acc = s.acc := rfl
@[simp] theorem State.emit_x (e : Event) : (s.emit e).x = s.x := rfl
@[simp] theorem State.emit_h (e : Event) : (s.emit e).h = s.h := rfl
@[simp] theorem State.emit_mem (e : Event) : (s.emit e).mem = s.mem := rfl
@[simp] theorem State.emit_opw (e : Event) : (s.emit e).opw = s.opw := rfl
@[simp] theorem State.emit_wdata (e : Event) : (s.emit e).wdata = s.wdata := rfl
@[simp] theorem State.emit_rdata (e : Event) : (s.emit e).rdata = s.rdata := rfl
@[simp] theorem State.emit_status (e : Event) : (s.emit e).status = s.status := rfl
@[simp] theorem State.emit_mdata (e : Event) : (s.emit e).mdata = s.mdata := rfl
@[simp] theorem State.emit_issuer (e : Event) : (s.emit e).issuer = s.issuer := rfl
@[simp] theorem State.emit_draw (e : Event) : (s.emit e).draw = s.draw := rfl
@[simp] theorem State.emit_epoch (e : Event) : (s.emit e).epoch = s.epoch := rfl
@[simp] theorem State.emit_turns (e : Event) : (s.emit e).turns = s.turns := rfl
@[simp] theorem State.emit_tick (e : Event) : (s.emit e).tick = s.tick := rfl
@[simp] theorem State.emit_events (e : Event) : (s.emit e).events = e :: s.events := rfl

@[simp] theorem State.advance_cfg : (s.advance).cfg = s.cfg := rfl
@[simp] theorem State.advance_started : (s.advance).started = s.started := rfl
@[simp] theorem State.advance_armed : (s.advance).armed = s.armed := rfl
@[simp] theorem State.advance_busy : (s.advance).busy = s.busy := rfl
@[simp] theorem State.advance_halt : (s.advance).halt = s.halt := rfl
@[simp] theorem State.advance_irq : (s.advance).irq = s.irq := rfl
@[simp] theorem State.advance_faultCode : (s.advance).faultCode = s.faultCode := rfl
@[simp] theorem State.advance_faultOp : (s.advance).faultOp = s.faultOp := rfl
@[simp] theorem State.advance_upc : (s.advance).upc = s.upc + 1 := rfl
@[simp] theorem State.advance_rings : (s.advance).rings = s.rings := rfl
@[simp] theorem State.advance_cw : (s.advance).cw = s.cw := rfl
@[simp] theorem State.advance_lb : (s.advance).lb = s.lb := rfl
@[simp] theorem State.advance_ph : (s.advance).ph = s.ph := rfl
@[simp] theorem State.advance_base : (s.advance).base = s.base := rfl
@[simp] theorem State.advance_y : (s.advance).y = s.y := rfl
@[simp] theorem State.advance_acc : (s.advance).acc = s.acc := rfl
@[simp] theorem State.advance_x : (s.advance).x = s.x := rfl
@[simp] theorem State.advance_h : (s.advance).h = s.h := rfl
@[simp] theorem State.advance_mem : (s.advance).mem = s.mem := rfl
@[simp] theorem State.advance_opw : (s.advance).opw = s.opw := rfl
@[simp] theorem State.advance_wdata : (s.advance).wdata = s.wdata := rfl
@[simp] theorem State.advance_rdata : (s.advance).rdata = s.rdata := rfl
@[simp] theorem State.advance_status : (s.advance).status = s.status := rfl
@[simp] theorem State.advance_mdata : (s.advance).mdata = s.mdata := rfl
@[simp] theorem State.advance_issuer : (s.advance).issuer = s.issuer := rfl
@[simp] theorem State.advance_draw : (s.advance).draw = s.draw := rfl
@[simp] theorem State.advance_epoch : (s.advance).epoch = s.epoch := rfl
@[simp] theorem State.advance_turns : (s.advance).turns = s.turns := rfl
@[simp] theorem State.advance_tick : (s.advance).tick = s.tick := rfl
@[simp] theorem State.advance_events : (s.advance).events = s.events := rfl

@[simp] theorem State.answer_cfg (w : Word) (st : PortStatus) : (s.answer w st).cfg = s.cfg := rfl
@[simp] theorem State.answer_started (w : Word) (st : PortStatus) : (s.answer w st).started = s.started := rfl
@[simp] theorem State.answer_armed (w : Word) (st : PortStatus) : (s.answer w st).armed = s.armed := rfl
@[simp] theorem State.answer_busy (w : Word) (st : PortStatus) : (s.answer w st).busy = s.busy := rfl
@[simp] theorem State.answer_halt (w : Word) (st : PortStatus) : (s.answer w st).halt = s.halt := rfl
@[simp] theorem State.answer_irq (w : Word) (st : PortStatus) : (s.answer w st).irq = s.irq := rfl
@[simp] theorem State.answer_faultCode (w : Word) (st : PortStatus) : (s.answer w st).faultCode = s.faultCode := rfl
@[simp] theorem State.answer_faultOp (w : Word) (st : PortStatus) : (s.answer w st).faultOp = s.faultOp := rfl
@[simp] theorem State.answer_upc (w : Word) (st : PortStatus) : (s.answer w st).upc = s.upc := rfl
@[simp] theorem State.answer_rings (w : Word) (st : PortStatus) : (s.answer w st).rings = s.rings := rfl
@[simp] theorem State.answer_cw (w : Word) (st : PortStatus) : (s.answer w st).cw = s.cw := rfl
@[simp] theorem State.answer_lb (w : Word) (st : PortStatus) : (s.answer w st).lb = s.lb := rfl
@[simp] theorem State.answer_ph (w : Word) (st : PortStatus) : (s.answer w st).ph = s.ph := rfl
@[simp] theorem State.answer_base (w : Word) (st : PortStatus) : (s.answer w st).base = s.base := rfl
@[simp] theorem State.answer_y (w : Word) (st : PortStatus) : (s.answer w st).y = s.y := rfl
@[simp] theorem State.answer_acc (w : Word) (st : PortStatus) : (s.answer w st).acc = s.acc := rfl
@[simp] theorem State.answer_x (w : Word) (st : PortStatus) : (s.answer w st).x = s.x := rfl
@[simp] theorem State.answer_h (w : Word) (st : PortStatus) : (s.answer w st).h = s.h := rfl
@[simp] theorem State.answer_mem (w : Word) (st : PortStatus) : (s.answer w st).mem = s.mem := rfl
@[simp] theorem State.answer_opw (w : Word) (st : PortStatus) : (s.answer w st).opw = s.opw := rfl
@[simp] theorem State.answer_wdata (w : Word) (st : PortStatus) : (s.answer w st).wdata = s.wdata := rfl
@[simp] theorem State.answer_rdata (w : Word) (st : PortStatus) : (s.answer w st).rdata = w := rfl
@[simp] theorem State.answer_status (w : Word) (st : PortStatus) : (s.answer w st).status = st := rfl
@[simp] theorem State.answer_mdata (w : Word) (st : PortStatus) : (s.answer w st).mdata = s.mdata := rfl
@[simp] theorem State.answer_issuer (w : Word) (st : PortStatus) : (s.answer w st).issuer = s.issuer := rfl
@[simp] theorem State.answer_draw (w : Word) (st : PortStatus) : (s.answer w st).draw = s.draw := rfl
@[simp] theorem State.answer_epoch (w : Word) (st : PortStatus) : (s.answer w st).epoch = s.epoch := rfl
@[simp] theorem State.answer_turns (w : Word) (st : PortStatus) : (s.answer w st).turns = s.turns := rfl
@[simp] theorem State.answer_tick (w : Word) (st : PortStatus) : (s.answer w st).tick = s.tick := rfl
@[simp] theorem State.answer_events (w : Word) (st : PortStatus) : (s.answer w st).events = s.events := rfl

@[simp] theorem State.answerOk_cfg (w : Word) : (s.answerOk w).cfg = s.cfg := rfl
@[simp] theorem State.answerOk_started (w : Word) : (s.answerOk w).started = s.started := rfl
@[simp] theorem State.answerOk_armed (w : Word) : (s.answerOk w).armed = s.armed := rfl
@[simp] theorem State.answerOk_busy (w : Word) : (s.answerOk w).busy = s.busy := rfl
@[simp] theorem State.answerOk_halt (w : Word) : (s.answerOk w).halt = s.halt := rfl
@[simp] theorem State.answerOk_irq (w : Word) : (s.answerOk w).irq = s.irq := rfl
@[simp] theorem State.answerOk_faultCode (w : Word) : (s.answerOk w).faultCode = s.faultCode := rfl
@[simp] theorem State.answerOk_faultOp (w : Word) : (s.answerOk w).faultOp = s.faultOp := rfl
@[simp] theorem State.answerOk_upc (w : Word) : (s.answerOk w).upc = s.upc := rfl
@[simp] theorem State.answerOk_rings (w : Word) : (s.answerOk w).rings = s.rings := rfl
@[simp] theorem State.answerOk_cw (w : Word) : (s.answerOk w).cw = s.cw := rfl
@[simp] theorem State.answerOk_lb (w : Word) : (s.answerOk w).lb = s.lb := rfl
@[simp] theorem State.answerOk_ph (w : Word) : (s.answerOk w).ph = s.ph := rfl
@[simp] theorem State.answerOk_base (w : Word) : (s.answerOk w).base = s.base := rfl
@[simp] theorem State.answerOk_y (w : Word) : (s.answerOk w).y = s.y := rfl
@[simp] theorem State.answerOk_acc (w : Word) : (s.answerOk w).acc = s.acc := rfl
@[simp] theorem State.answerOk_x (w : Word) : (s.answerOk w).x = s.x := rfl
@[simp] theorem State.answerOk_h (w : Word) : (s.answerOk w).h = s.h := rfl
@[simp] theorem State.answerOk_mem (w : Word) : (s.answerOk w).mem = s.mem := rfl
@[simp] theorem State.answerOk_opw (w : Word) : (s.answerOk w).opw = s.opw := rfl
@[simp] theorem State.answerOk_wdata (w : Word) : (s.answerOk w).wdata = s.wdata := rfl
@[simp] theorem State.answerOk_rdata (w : Word) : (s.answerOk w).rdata = w := rfl
@[simp] theorem State.answerOk_status (w : Word) : (s.answerOk w).status = .ok := rfl
@[simp] theorem State.answerOk_mdata (w : Word) : (s.answerOk w).mdata = s.mdata := rfl
@[simp] theorem State.answerOk_issuer (w : Word) : (s.answerOk w).issuer = s.issuer := rfl
@[simp] theorem State.answerOk_draw (w : Word) : (s.answerOk w).draw = s.draw := rfl
@[simp] theorem State.answerOk_epoch (w : Word) : (s.answerOk w).epoch = s.epoch := rfl
@[simp] theorem State.answerOk_turns (w : Word) : (s.answerOk w).turns = s.turns := rfl
@[simp] theorem State.answerOk_tick (w : Word) : (s.answerOk w).tick = s.tick := rfl
@[simp] theorem State.answerOk_events (w : Word) : (s.answerOk w).events = s.events := rfl

@[simp] theorem State.modifyRing_cfg (r : Nat) (f : Ring → Ring) : (s.modifyRing r f).cfg = s.cfg := rfl
@[simp] theorem State.modifyRing_started (r : Nat) (f : Ring → Ring) : (s.modifyRing r f).started = s.started := rfl
@[simp] theorem State.modifyRing_armed (r : Nat) (f : Ring → Ring) : (s.modifyRing r f).armed = s.armed := rfl
@[simp] theorem State.modifyRing_busy (r : Nat) (f : Ring → Ring) : (s.modifyRing r f).busy = s.busy := rfl
@[simp] theorem State.modifyRing_halt (r : Nat) (f : Ring → Ring) : (s.modifyRing r f).halt = s.halt := rfl
@[simp] theorem State.modifyRing_irq (r : Nat) (f : Ring → Ring) : (s.modifyRing r f).irq = s.irq := rfl
@[simp] theorem State.modifyRing_faultCode (r : Nat) (f : Ring → Ring) : (s.modifyRing r f).faultCode = s.faultCode := rfl
@[simp] theorem State.modifyRing_faultOp (r : Nat) (f : Ring → Ring) : (s.modifyRing r f).faultOp = s.faultOp := rfl
@[simp] theorem State.modifyRing_upc (r : Nat) (f : Ring → Ring) : (s.modifyRing r f).upc = s.upc := rfl
@[simp] theorem State.modifyRing_rings (r : Nat) (f : Ring → Ring) : (s.modifyRing r f).rings = s.rings.modify r f := rfl
@[simp] theorem State.modifyRing_cw (r : Nat) (f : Ring → Ring) : (s.modifyRing r f).cw = s.cw := rfl
@[simp] theorem State.modifyRing_lb (r : Nat) (f : Ring → Ring) : (s.modifyRing r f).lb = s.lb := rfl
@[simp] theorem State.modifyRing_ph (r : Nat) (f : Ring → Ring) : (s.modifyRing r f).ph = s.ph := rfl
@[simp] theorem State.modifyRing_base (r : Nat) (f : Ring → Ring) : (s.modifyRing r f).base = s.base := rfl
@[simp] theorem State.modifyRing_y (r : Nat) (f : Ring → Ring) : (s.modifyRing r f).y = s.y := rfl
@[simp] theorem State.modifyRing_acc (r : Nat) (f : Ring → Ring) : (s.modifyRing r f).acc = s.acc := rfl
@[simp] theorem State.modifyRing_x (r : Nat) (f : Ring → Ring) : (s.modifyRing r f).x = s.x := rfl
@[simp] theorem State.modifyRing_h (r : Nat) (f : Ring → Ring) : (s.modifyRing r f).h = s.h := rfl
@[simp] theorem State.modifyRing_mem (r : Nat) (f : Ring → Ring) : (s.modifyRing r f).mem = s.mem := rfl
@[simp] theorem State.modifyRing_opw (r : Nat) (f : Ring → Ring) : (s.modifyRing r f).opw = s.opw := rfl
@[simp] theorem State.modifyRing_wdata (r : Nat) (f : Ring → Ring) : (s.modifyRing r f).wdata = s.wdata := rfl
@[simp] theorem State.modifyRing_rdata (r : Nat) (f : Ring → Ring) : (s.modifyRing r f).rdata = s.rdata := rfl
@[simp] theorem State.modifyRing_status (r : Nat) (f : Ring → Ring) : (s.modifyRing r f).status = s.status := rfl
@[simp] theorem State.modifyRing_mdata (r : Nat) (f : Ring → Ring) : (s.modifyRing r f).mdata = s.mdata := rfl
@[simp] theorem State.modifyRing_issuer (r : Nat) (f : Ring → Ring) : (s.modifyRing r f).issuer = s.issuer := rfl
@[simp] theorem State.modifyRing_draw (r : Nat) (f : Ring → Ring) : (s.modifyRing r f).draw = s.draw := rfl
@[simp] theorem State.modifyRing_epoch (r : Nat) (f : Ring → Ring) : (s.modifyRing r f).epoch = s.epoch := rfl
@[simp] theorem State.modifyRing_turns (r : Nat) (f : Ring → Ring) : (s.modifyRing r f).turns = s.turns := rfl
@[simp] theorem State.modifyRing_tick (r : Nat) (f : Ring → Ring) : (s.modifyRing r f).tick = s.tick := rfl
@[simp] theorem State.modifyRing_events (r : Nat) (f : Ring → Ring) : (s.modifyRing r f).events = s.events := rfl

@[simp] theorem State.mapRings_cfg (f : Ring → Ring) : (s.mapRings f).cfg = s.cfg := rfl
@[simp] theorem State.mapRings_started (f : Ring → Ring) : (s.mapRings f).started = s.started := rfl
@[simp] theorem State.mapRings_armed (f : Ring → Ring) : (s.mapRings f).armed = s.armed := rfl
@[simp] theorem State.mapRings_busy (f : Ring → Ring) : (s.mapRings f).busy = s.busy := rfl
@[simp] theorem State.mapRings_halt (f : Ring → Ring) : (s.mapRings f).halt = s.halt := rfl
@[simp] theorem State.mapRings_irq (f : Ring → Ring) : (s.mapRings f).irq = s.irq := rfl
@[simp] theorem State.mapRings_faultCode (f : Ring → Ring) : (s.mapRings f).faultCode = s.faultCode := rfl
@[simp] theorem State.mapRings_faultOp (f : Ring → Ring) : (s.mapRings f).faultOp = s.faultOp := rfl
@[simp] theorem State.mapRings_upc (f : Ring → Ring) : (s.mapRings f).upc = s.upc := rfl
@[simp] theorem State.mapRings_rings (f : Ring → Ring) : (s.mapRings f).rings = s.rings.map f := rfl
@[simp] theorem State.mapRings_cw (f : Ring → Ring) : (s.mapRings f).cw = s.cw := rfl
@[simp] theorem State.mapRings_lb (f : Ring → Ring) : (s.mapRings f).lb = s.lb := rfl
@[simp] theorem State.mapRings_ph (f : Ring → Ring) : (s.mapRings f).ph = s.ph := rfl
@[simp] theorem State.mapRings_base (f : Ring → Ring) : (s.mapRings f).base = s.base := rfl
@[simp] theorem State.mapRings_y (f : Ring → Ring) : (s.mapRings f).y = s.y := rfl
@[simp] theorem State.mapRings_acc (f : Ring → Ring) : (s.mapRings f).acc = s.acc := rfl
@[simp] theorem State.mapRings_x (f : Ring → Ring) : (s.mapRings f).x = s.x := rfl
@[simp] theorem State.mapRings_h (f : Ring → Ring) : (s.mapRings f).h = s.h := rfl
@[simp] theorem State.mapRings_mem (f : Ring → Ring) : (s.mapRings f).mem = s.mem := rfl
@[simp] theorem State.mapRings_opw (f : Ring → Ring) : (s.mapRings f).opw = s.opw := rfl
@[simp] theorem State.mapRings_wdata (f : Ring → Ring) : (s.mapRings f).wdata = s.wdata := rfl
@[simp] theorem State.mapRings_rdata (f : Ring → Ring) : (s.mapRings f).rdata = s.rdata := rfl
@[simp] theorem State.mapRings_status (f : Ring → Ring) : (s.mapRings f).status = s.status := rfl
@[simp] theorem State.mapRings_mdata (f : Ring → Ring) : (s.mapRings f).mdata = s.mdata := rfl
@[simp] theorem State.mapRings_issuer (f : Ring → Ring) : (s.mapRings f).issuer = s.issuer := rfl
@[simp] theorem State.mapRings_draw (f : Ring → Ring) : (s.mapRings f).draw = s.draw := rfl
@[simp] theorem State.mapRings_epoch (f : Ring → Ring) : (s.mapRings f).epoch = s.epoch := rfl
@[simp] theorem State.mapRings_turns (f : Ring → Ring) : (s.mapRings f).turns = s.turns := rfl
@[simp] theorem State.mapRings_tick (f : Ring → Ring) : (s.mapRings f).tick = s.tick := rfl
@[simp] theorem State.mapRings_events (f : Ring → Ring) : (s.mapRings f).events = s.events := rfl

@[simp] theorem State.lay_cfg (t : Turn) : (s.lay t).cfg = s.cfg := rfl
@[simp] theorem State.lay_started (t : Turn) : (s.lay t).started = s.started := rfl
@[simp] theorem State.lay_armed (t : Turn) : (s.lay t).armed = s.armed := rfl
@[simp] theorem State.lay_busy (t : Turn) : (s.lay t).busy = s.busy := rfl
@[simp] theorem State.lay_halt (t : Turn) : (s.lay t).halt = s.halt := rfl
@[simp] theorem State.lay_irq (t : Turn) : (s.lay t).irq = s.irq := rfl
@[simp] theorem State.lay_faultCode (t : Turn) : (s.lay t).faultCode = s.faultCode := rfl
@[simp] theorem State.lay_faultOp (t : Turn) : (s.lay t).faultOp = s.faultOp := rfl
@[simp] theorem State.lay_upc (t : Turn) : (s.lay t).upc = s.upc := rfl
@[simp] theorem State.lay_rings (t : Turn) : (s.lay t).rings = s.rings := rfl
@[simp] theorem State.lay_cw (t : Turn) : (s.lay t).cw = s.cw := rfl
@[simp] theorem State.lay_lb (t : Turn) : (s.lay t).lb = s.lb := rfl
@[simp] theorem State.lay_ph (t : Turn) : (s.lay t).ph = s.ph := rfl
@[simp] theorem State.lay_base (t : Turn) : (s.lay t).base = s.base := rfl
@[simp] theorem State.lay_y (t : Turn) : (s.lay t).y = s.y := rfl
@[simp] theorem State.lay_acc (t : Turn) : (s.lay t).acc = s.acc := rfl
@[simp] theorem State.lay_x (t : Turn) : (s.lay t).x = s.x := rfl
@[simp] theorem State.lay_h (t : Turn) : (s.lay t).h = s.h := rfl
@[simp] theorem State.lay_mem (t : Turn) : (s.lay t).mem = s.mem := rfl
@[simp] theorem State.lay_opw (t : Turn) : (s.lay t).opw = s.opw := rfl
@[simp] theorem State.lay_wdata (t : Turn) : (s.lay t).wdata = s.wdata := rfl
@[simp] theorem State.lay_rdata (t : Turn) : (s.lay t).rdata = s.rdata := rfl
@[simp] theorem State.lay_status (t : Turn) : (s.lay t).status = s.status := rfl
@[simp] theorem State.lay_mdata (t : Turn) : (s.lay t).mdata = s.mdata := rfl
@[simp] theorem State.lay_issuer (t : Turn) : (s.lay t).issuer = s.issuer := rfl
@[simp] theorem State.lay_draw (t : Turn) : (s.lay t).draw = s.draw := rfl
@[simp] theorem State.lay_epoch (t : Turn) : (s.lay t).epoch = s.epoch := rfl
@[simp] theorem State.lay_turns (t : Turn) : (s.lay t).turns = t :: s.turns := rfl
@[simp] theorem State.lay_tick (t : Turn) : (s.lay t).tick = s.tick := rfl
@[simp] theorem State.lay_events (t : Turn) : (s.lay t).events = s.events := rfl

@[simp] theorem State.toReset_cfg : s.toReset.cfg = s.cfg := rfl
@[simp] theorem State.toReset_started : s.toReset.started = (State.resetWith s.cfg (s.epoch + 1)).started := rfl
@[simp] theorem State.toReset_armed : s.toReset.armed = (State.resetWith s.cfg (s.epoch + 1)).armed := rfl
@[simp] theorem State.toReset_busy : s.toReset.busy = (State.resetWith s.cfg (s.epoch + 1)).busy := rfl
@[simp] theorem State.toReset_halt : s.toReset.halt = (State.resetWith s.cfg (s.epoch + 1)).halt := rfl
@[simp] theorem State.toReset_irq : s.toReset.irq = (State.resetWith s.cfg (s.epoch + 1)).irq := rfl
@[simp] theorem State.toReset_faultCode : s.toReset.faultCode = (State.resetWith s.cfg (s.epoch + 1)).faultCode := rfl
@[simp] theorem State.toReset_faultOp : s.toReset.faultOp = (State.resetWith s.cfg (s.epoch + 1)).faultOp := rfl
@[simp] theorem State.toReset_upc : s.toReset.upc = (State.resetWith s.cfg (s.epoch + 1)).upc := rfl
@[simp] theorem State.toReset_rings : s.toReset.rings = (State.resetWith s.cfg (s.epoch + 1)).rings := rfl
@[simp] theorem State.toReset_cw : s.toReset.cw = (State.resetWith s.cfg (s.epoch + 1)).cw := rfl
@[simp] theorem State.toReset_lb : s.toReset.lb = (State.resetWith s.cfg (s.epoch + 1)).lb := rfl
@[simp] theorem State.toReset_ph : s.toReset.ph = (State.resetWith s.cfg (s.epoch + 1)).ph := rfl
@[simp] theorem State.toReset_base : s.toReset.base = (State.resetWith s.cfg (s.epoch + 1)).base := rfl
@[simp] theorem State.toReset_y : s.toReset.y = (State.resetWith s.cfg (s.epoch + 1)).y := rfl
@[simp] theorem State.toReset_acc : s.toReset.acc = (State.resetWith s.cfg (s.epoch + 1)).acc := rfl
@[simp] theorem State.toReset_x : s.toReset.x = (State.resetWith s.cfg (s.epoch + 1)).x := rfl
@[simp] theorem State.toReset_h : s.toReset.h = (State.resetWith s.cfg (s.epoch + 1)).h := rfl
@[simp] theorem State.toReset_mem : s.toReset.mem = (State.resetWith s.cfg (s.epoch + 1)).mem := rfl
@[simp] theorem State.toReset_opw : s.toReset.opw = s.opw := rfl
@[simp] theorem State.toReset_wdata : s.toReset.wdata = s.wdata := rfl
@[simp] theorem State.toReset_rdata : s.toReset.rdata = s.rdata := rfl
@[simp] theorem State.toReset_status : s.toReset.status = s.status := rfl
@[simp] theorem State.toReset_mdata : s.toReset.mdata = s.mdata := rfl
@[simp] theorem State.toReset_issuer : s.toReset.issuer = s.issuer := rfl
@[simp] theorem State.toReset_draw : s.toReset.draw = s.draw := rfl
@[simp] theorem State.toReset_epoch : s.toReset.epoch = s.epoch + 1 := rfl
@[simp] theorem State.toReset_turns : s.toReset.turns = s.turns := rfl
@[simp] theorem State.toReset_tick : s.toReset.tick = s.tick := rfl
@[simp] theorem State.toReset_events : s.toReset.events = s.events := rfl

variable (code : FaultCode)

@[simp] theorem raiseFault_cfg : (raiseFault code s).cfg = s.cfg := by
  unfold raiseFault; split <;> rfl
@[simp] theorem raiseFault_busy : (raiseFault code s).busy = s.busy := by
  unfold raiseFault; split <;> rfl
@[simp] theorem raiseFault_irq : (raiseFault code s).irq = s.irq := by
  unfold raiseFault; split <;> rfl
@[simp] theorem raiseFault_upc : (raiseFault code s).upc = s.upc := by
  unfold raiseFault; split <;> rfl
@[simp] theorem raiseFault_cw : (raiseFault code s).cw = s.cw := by
  unfold raiseFault; split <;> rfl
@[simp] theorem raiseFault_lb : (raiseFault code s).lb = s.lb := by
  unfold raiseFault; split <;> rfl
@[simp] theorem raiseFault_ph : (raiseFault code s).ph = s.ph := by
  unfold raiseFault; split <;> rfl
@[simp] theorem raiseFault_base : (raiseFault code s).base = s.base := by
  unfold raiseFault; split <;> rfl
@[simp] theorem raiseFault_y : (raiseFault code s).y = s.y := by
  unfold raiseFault; split <;> rfl
@[simp] theorem raiseFault_acc : (raiseFault code s).acc = s.acc := by
  unfold raiseFault; split <;> rfl
@[simp] theorem raiseFault_x : (raiseFault code s).x = s.x := by
  unfold raiseFault; split <;> rfl
@[simp] theorem raiseFault_h : (raiseFault code s).h = s.h := by
  unfold raiseFault; split <;> rfl
@[simp] theorem raiseFault_mem : (raiseFault code s).mem = s.mem := by
  unfold raiseFault; split <;> rfl
@[simp] theorem raiseFault_opw : (raiseFault code s).opw = s.opw := by
  unfold raiseFault; split <;> rfl
@[simp] theorem raiseFault_wdata : (raiseFault code s).wdata = s.wdata := by
  unfold raiseFault; split <;> rfl
@[simp] theorem raiseFault_mdata : (raiseFault code s).mdata = s.mdata := by
  unfold raiseFault; split <;> rfl
@[simp] theorem raiseFault_issuer : (raiseFault code s).issuer = s.issuer := by
  unfold raiseFault; split <;> rfl
@[simp] theorem raiseFault_draw : (raiseFault code s).draw = s.draw := by
  unfold raiseFault; split <;> rfl
@[simp] theorem raiseFault_epoch : (raiseFault code s).epoch = s.epoch := by
  unfold raiseFault; split <;> rfl
@[simp] theorem raiseFault_turns : (raiseFault code s).turns = s.turns := by
  unfold raiseFault; split <;> rfl
@[simp] theorem raiseFault_tick : (raiseFault code s).tick = s.tick := by
  unfold raiseFault; split <;> rfl

@[simp] theorem raiseFault_halt : (raiseFault code s).halt = true := by
  unfold raiseFault; split <;> simp_all

@[simp] theorem raiseFault_rdata : (raiseFault code s).rdata = 0 := by
  unfold raiseFault; split <;> rfl

@[simp] theorem raiseFault_status : (raiseFault code s).status = .fault := by
  unfold raiseFault; split <;> rfl

variable (t : Turn)

@[simp] theorem State.present_cfg : (s.present t).cfg = s.cfg := by cases t <;> rfl
@[simp] theorem State.present_started : (s.present t).started = s.started := by cases t <;> rfl
@[simp] theorem State.present_armed : (s.present t).armed = s.armed := by cases t <;> rfl
@[simp] theorem State.present_busy : (s.present t).busy = s.busy := by cases t <;> rfl
@[simp] theorem State.present_halt : (s.present t).halt = s.halt := by cases t <;> rfl
@[simp] theorem State.present_irq : (s.present t).irq = s.irq := by cases t <;> rfl
@[simp] theorem State.present_faultCode : (s.present t).faultCode = s.faultCode := by cases t <;> rfl
@[simp] theorem State.present_faultOp : (s.present t).faultOp = s.faultOp := by cases t <;> rfl
@[simp] theorem State.present_upc : (s.present t).upc = s.upc := by cases t <;> rfl
@[simp] theorem State.present_rings : (s.present t).rings = s.rings := by cases t <;> rfl
@[simp] theorem State.present_cw : (s.present t).cw = s.cw := by cases t <;> rfl
@[simp] theorem State.present_lb : (s.present t).lb = s.lb := by cases t <;> rfl
@[simp] theorem State.present_ph : (s.present t).ph = s.ph := by cases t <;> rfl
@[simp] theorem State.present_base : (s.present t).base = s.base := by cases t <;> rfl
@[simp] theorem State.present_y : (s.present t).y = s.y := by cases t <;> rfl
@[simp] theorem State.present_acc : (s.present t).acc = s.acc := by cases t <;> rfl
@[simp] theorem State.present_x : (s.present t).x = s.x := by cases t <;> rfl
@[simp] theorem State.present_h : (s.present t).h = s.h := by cases t <;> rfl
@[simp] theorem State.present_mem : (s.present t).mem = s.mem := by cases t <;> rfl
@[simp] theorem State.present_rdata : (s.present t).rdata = s.rdata := by cases t <;> rfl
@[simp] theorem State.present_status : (s.present t).status = s.status := by cases t <;> rfl
@[simp] theorem State.present_mdata : (s.present t).mdata = s.mdata := by cases t <;> rfl
@[simp] theorem State.present_epoch : (s.present t).epoch = s.epoch := by cases t <;> rfl
@[simp] theorem State.present_turns : (s.present t).turns = s.turns := by cases t <;> rfl
@[simp] theorem State.present_tick : (s.present t).tick = s.tick := by cases t <;> rfl
@[simp] theorem State.present_events : (s.present t).events = s.events := by cases t <;> rfl

end Sys2Proof.Machine
end

