-- ==== Sys2Proof/Laws/Memory.lean ====
section
/-! SUPPORT. The laws of MEM: read after write, the frame of a write, and the canonical form kept by
every memory operation. -/

namespace Sys2Proof.Machine

theorem memGet_memSet_same (m : Memory) (a : Nat) (b : Byte) : memGet (memSet m a b) a = some b := by
  induction m with
  | nil => simp [memSet, memGet]
  | cons p rest ih =>
    obtain ⟨a', b'⟩ := p
    simp only [memSet]
    split
    · simp [memGet]
    · split
      · simp [memGet]
      · simp [memGet, *]

theorem memGet_memSet_other (m : Memory) {a x : Nat} (b : Byte) (hx : x ≠ a) :
    memGet (memSet m a b) x = memGet m x := by
  induction m with
  | nil => simp [memSet, memGet, hx]
  | cons p rest ih =>
    obtain ⟨a', b'⟩ := p
    simp only [memSet]
    split
    · simp [memGet, hx]
    · split
      · rename_i h; subst h; simp [memGet, hx]
      · simp [memGet, ih]

/-- Every entry of a memory after a write is the written one or was there before. -/
theorem mem_of_mem_memSet {m : Memory} {a : Nat} {b : Byte} {p : Host.Cell} (hp : p ∈ memSet m a b) :
    p = (a, b) ∨ p ∈ m := by
  induction m with
  | nil => simpa [memSet] using hp
  | cons q rest ih =>
    obtain ⟨a', b'⟩ := q
    simp only [memSet] at hp
    split at hp
    · simpa using hp
    · split at hp
      · rcases List.mem_cons.1 hp with h | h
        · exact .inl h
        · exact .inr (List.mem_cons_of_mem _ h)
      · rcases List.mem_cons.1 hp with h | h
        · exact .inr (h ▸ List.mem_cons_self)
        · exact (ih h).imp id (List.mem_cons_of_mem _)

theorem memSet_wf {m : Memory} (hm : Memory.wf m) (a : Nat) (b : Byte) : Memory.wf (memSet m a b) := by
  induction m with
  | nil => simp [memSet, Memory.wf]
  | cons q rest ih =>
    obtain ⟨a', b'⟩ := q
    obtain ⟨hq, hr⟩ := List.pairwise_cons.1 hm
    simp only [memSet]
    split
    · rename_i h
      refine List.pairwise_cons.2 ⟨fun p hp => ?_, hm⟩
      rcases List.mem_cons.1 hp with rfl | hp
      · exact h
      · exact h.trans (hq p hp)
    · split
      · rename_i h
        subst h
        exact List.pairwise_cons.2 ⟨hq, hr⟩
      · rename_i h1 h2
        refine List.pairwise_cons.2 ⟨fun p hp => ?_, ih hr⟩
        rcases mem_of_mem_memSet hp with rfl | hp
        · show a' < a
          omega
        · exact hq p hp

theorem setWord_wf {m : Memory} (hm : Memory.wf m) (a : Nat) (v : Word) :
    Memory.wf (setWord m a v) :=
  memSet_wf (memSet_wf (memSet_wf (memSet_wf hm _ _) _ _) _ _) _ _

theorem mem_of_mem_setWord {m : Memory} {a : Nat} {v : Word} {p : Host.Cell}
    (hp : p ∈ setWord m a v) : (a ≤ p.1 ∧ p.1 < a + 4) ∨ p ∈ m := by
  unfold setWord at hp
  rcases mem_of_mem_memSet hp with rfl | hp
  · exact .inl (by simp)
  rcases mem_of_mem_memSet hp with rfl | hp
  · exact .inl (by simp)
  rcases mem_of_mem_memSet hp with rfl | hp
  · exact .inl (by simp)
  rcases mem_of_mem_memSet hp with rfl | hp
  · exact .inl (by simp)
  · exact .inr hp

/-- The frame of a word write. -/
theorem memGet_setWord_outside (m : Memory) {a x : Nat} (v : Word) (hx : x < a ∨ a + 4 ≤ x) :
    memGet (setWord m a v) x = memGet m x := by
  unfold setWord
  rw [memGet_memSet_other _ _ (by omega), memGet_memSet_other _ _ (by omega),
    memGet_memSet_other _ _ (by omega), memGet_memSet_other _ _ (by omega)]

/-- The four bytes of a word write, least significant first (rule R61). -/
theorem memGet_setWord_bytes (m : Memory) (a : Nat) (v : Word) :
    memGet (setWord m a v) a = some (v.extractLsb' 0 8) ∧
    memGet (setWord m a v) (a + 1) = some (v.extractLsb' 8 8) ∧
    memGet (setWord m a v) (a + 2) = some (v.extractLsb' 16 8) ∧
    memGet (setWord m a v) (a + 3) = some (v.extractLsb' 24 8) := by
  unfold setWord
  refine ⟨?_, ?_, ?_, ?_⟩
  · rw [memGet_memSet_other _ _ (by omega), memGet_memSet_other _ _ (by omega),
      memGet_memSet_other _ _ (by omega), memGet_memSet_same]
  · rw [memGet_memSet_other _ _ (by omega), memGet_memSet_other _ _ (by omega), memGet_memSet_same]
  · rw [memGet_memSet_other _ _ (by omega), memGet_memSet_same]
  · rw [memGet_memSet_same]

/-- The four bytes of a word, joined again, are the word. -/
theorem word_of_bytes (v : Word) :
    (v.extractLsb' 24 8 ++ v.extractLsb' 16 8 ++ v.extractLsb' 8 8 ++ v.extractLsb' 0 8 : Word) = v := by
  ext i hi
  simp only [BitVec.getElem_append, BitVec.getElem_extractLsb']
  split
  · simp [BitVec.getLsbD_eq_getElem hi]
  · split
    · simp only [BitVec.getLsbD_eq_getElem hi, show 8 + (i - 8) = i by omega]
    · split
      · simp only [BitVec.getLsbD_eq_getElem hi, show 16 + (i - 8 - 8) = i by omega]
      · simp only [BitVec.getLsbD_eq_getElem hi, show 24 + (i - 8 - 8 - 8) = i by omega]

/-- What MemRead gives: the word at the address, which is aligned and inside MEM. -/
theorem memRead_ok {s : State} {a : Nat} {w : Word} (h : s.memRead a = .ok w) :
    accessStop s.cfg a = none ∧ w = s.wordAt a := by
  unfold State.memRead at h
  split at h
  · cases h
  · cases h; exact ⟨‹_›, rfl⟩

/-- What MemWrite gives: the same state with the word written. -/
theorem memWrite_ok {s t : State} {a : Nat} {v : Word} (h : s.memWrite a v = .ok t) :
    accessStop s.cfg a = none ∧ t = { s with mem := setWord s.mem a v } := by
  unfold State.memWrite at h
  split at h
  · cases h
  · cases h; exact ⟨‹_›, rfl⟩

theorem accessStop_none {c : Cfg} {a : Nat} :
    accessStop c a = none ↔ a % 4 = 0 ∧ a + 4 ≤ c.memSize := by
  unfold accessStop
  split
  · simp; omega
  · split
    · simp; omega
    · simp; omega

/-- Read after write. -/
theorem wordAt_setWord (s : State) (a : Nat) (v : Word) :
    State.wordAt { s with mem := setWord s.mem a v } a = v := by
  obtain ⟨h0, h1, h2, h3⟩ := memGet_setWord_bytes s.mem a v
  simp [State.wordAt, State.byteAt, h0, h1, h2, h3, word_of_bytes]

/-- A write leaves every other byte alone. -/
theorem byteAt_setWord_outside (s : State) {a x : Nat} (v : Word) (hx : x < a ∨ a + 4 ≤ x) :
    State.byteAt { s with mem := setWord s.mem a v } x = s.byteAt x := by
  simp [State.byteAt, memGet_setWord_outside _ _ hx]

/-- A write keeps the canonical form and lists nothing outside MEM. -/
theorem memWrite_memGood {s t : State} {a : Nat} {v : Word} (hs : s.memGood)
    (h : s.memWrite a v = .ok t) : t.memGood := by
  obtain ⟨ha, rfl⟩ := memWrite_ok h
  have hin := (accessStop_none.1 ha).2
  refine ⟨setWord_wf hs.1 _ _, fun p hp => ?_⟩
  rcases mem_of_mem_setWord hp with h' | h'
  · show p.1 < s.cfg.memSize
    omega
  · exact hs.2 p h'

/-- Memories in canonical form that list the same byte at every address are the same data. -/
theorem mem_ext {m n : Memory} (hm : Memory.wf m) (hn : Memory.wf n)
    (h : ∀ a, memGet m a = memGet n a) : m = n := by
  induction m generalizing n with
  | nil =>
    cases n with
    | nil => rfl
    | cons q n' => have := h q.1; simp [memGet] at this
  | cons p m' ih =>
    cases n with
    | nil => have := h p.1; simp [memGet] at this
    | cons q n' =>
      obtain ⟨hp, hm'⟩ := List.pairwise_cons.1 hm
      obtain ⟨hq, hn'⟩ := List.pairwise_cons.1 hn
      have low : ∀ (l : Memory) (x : Nat), (∀ e ∈ l, x < e.1) → memGet l x = none := by
        intro l x hl
        induction l with
        | nil => rfl
        | cons e l' ihl =>
          have := hl e List.mem_cons_self
          rw [show e = (e.1, e.2) from rfl, memGet, if_neg (by omega)]
          exact ihl fun e' he' => hl e' (List.mem_cons_of_mem _ he')
      obtain ⟨pa, pb⟩ := p
      obtain ⟨qa, qb⟩ := q
      simp only at hp hq
      have key : pa = qa := by
        rcases Nat.lt_trichotomy pa qa with hlt | heq | hgt
        · have h1 := h pa
          rw [memGet, if_pos rfl, low ((qa, qb) :: n') pa (by
            intro e he
            rcases List.mem_cons.1 he with rfl | he
            · exact hlt
            · exact hlt.trans (hq e he))] at h1
          cases h1
        · exact heq
        · have h1 := h qa
          rw [low ((pa, pb) :: m') qa (by
            intro e he
            rcases List.mem_cons.1 he with rfl | he
            · exact hgt
            · exact hgt.trans (hp e he)), memGet, if_pos rfl] at h1
          cases h1
      subst key
      have hb := h pa
      simp only [memGet, if_true, Option.some.injEq] at hb
      subst hb
      refine congrArg _ (ih hm' hn' fun x => ?_)
      by_cases hx : x = pa
      · subst hx
        rw [low m' x hp, low n' x hq]
      · have := h x
        simpa [memGet, hx] using this

end Sys2Proof.Machine
end

