-- ==== Sys2Proof/Laws/Ops.lean ====
section
/-! SUPPORT. What each shared operation can do, once: a caller cites these instead of unfolding it. -/

namespace Sys2Proof.Machine

/-! ### Who executes what -/

/-- A host operation that answers a next state was presented by the host; in HALT it only answered. -/
theorem hostOp_next {s t : State} {k : State → State} (h : hostOp s k = .next t) :
    s.issuer = .host ∧
      ((s.halt = true ∧ t = s.answer 0 .fault) ∨ (s.halt = false ∧ t = k s)) := by
  unfold hostOp at h
  split at h
  · cases h
    refine ⟨‹_›, ?_⟩
    cases hh : s.halt <;> simp
  · cases h
  · cases h

theorem hostOp_run {s : State} (k : State → State) (hi : s.issuer = .host) (hh : s.halt = false) :
    hostOp s k = .next (k s) := by
  simp [hostOp, hi, hh]

theorem hostOp_halted {s : State} (k : State → State) (hi : s.issuer = .host) (hh : s.halt = true) :
    hostOp s k = .next (s.answer 0 .fault) := by
  simp [hostOp, hi, hh]

theorem hostAnyOp_next {s t : State} {k : State → State} (h : hostAnyOp s k = .next t) :
    s.issuer = .host ∧ t = k s := by
  unfold hostAnyOp at h
  split at h
  · cases h; exact ⟨‹_›, rfl⟩
  · cases h
  · cases h

theorem hostAnyOp_run {s : State} (k : State → State) (hi : s.issuer = .host) :
    hostAnyOp s k = .next (k s) := by
  simp [hostAnyOp, hi]

/-- A ring operation that answers a next state raised ILLEGAL_OP for the host, or ran for its own
engine. -/
theorem ringOp_next {r : BitVec 4} {legal : Bool} {s t : State} {k : State → Result}
    (h : ringOp r legal s k = .next t) :
    (s.issuer = .host ∧ t = raiseFault .illegalOp s) ∨
      (s.issuer = .ring r ∧ legal = true ∧ k s = .next t) := by
  unfold ringOp at h
  split at h
  · cases h; exact .inl ⟨‹_›, rfl⟩
  · split at h
    · rename_i hq
      simp only [Bool.and_eq_true, decide_eq_true_eq] at hq
      exact .inr ⟨by simp_all, hq.2, h⟩
    · cases h
  · cases h

theorem ringOp_run {r : BitVec 4} {s : State} (k : State → Result) {legal : Bool}
    (hi : s.issuer = .ring r) (hl : legal = true) : ringOp r legal s k = k s := by
  simp [ringOp, hi, hl]

/-- A sequencer operation that answers a next state raised ILLEGAL_OP for the host, or ran for the
sequencer. -/
theorem seqOp_next {legal : Bool} {s t : State} {k : State → Result}
    (h : seqOp legal s k = .next t) :
    (s.issuer = .host ∧ t = raiseFault .illegalOp s) ∨
      (s.issuer = .seq ∧ legal = true ∧ k s = .next t) := by
  unfold seqOp at h
  split at h
  · cases h; exact .inl ⟨‹_›, rfl⟩
  · cases h
  · split at h
    · exact .inr ⟨‹_›, ‹_›, h⟩
    · cases h

theorem seqOp_run {s : State} (k : State → Result) {legal : Bool} (hi : s.issuer = .seq)
    (hl : legal = true) : seqOp legal s k = k s := by
  simp [seqOp, hi, hl]

theorem invalidWord_next {s t : State} (h : invalidWord s = .next t) :
    s.issuer = .host ∧ t = raiseFault .illegalOp s := by
  unfold invalidWord at h
  split at h
  · cases h; exact ⟨‹_›, rfl⟩
  · cases h
  · cases h

/-- Going on after a memory access means that the access was made. -/
theorem orStop_next {α : Type} {e : Except Fault α} {k : α → State} {t : State}
    (h : orStop e k = .next t) : ∃ v, e = .ok v ∧ t = k v := by
  cases e with
  | error f => cases h
  | ok v => cases h; exact ⟨v, rfl, rfl⟩

@[simp] theorem orStop_ok {α : Type} (v : α) (k : α → State) : orStop (.ok v) k = .next (k v) := rfl

theorem orStop_memRead {s : State} {a : Nat} (k : Word → State)
    (ha : a % 4 = 0) (hm : a + 4 ≤ s.cfg.memSize) :
    orStop (s.memRead a) k = .next (k (s.wordAt a)) := by
  simp [State.memRead, accessStop_none.2 ⟨ha, hm⟩]

theorem orStop_memWrite {s : State} {a : Nat} {v : Word} (k : State → State)
    (ha : a % 4 = 0) (hm : a + 4 ≤ s.cfg.memSize) :
    orStop (s.memWrite a v) k = .next (k { s with mem := setWord s.mem a v }) := by
  simp [State.memWrite, accessStop_none.2 ⟨ha, hm⟩]

/-- A load of the sequencer at an aligned address inside MEM. -/
theorem loadWord_inside {s : State} {a : Nat} (ha : a % 4 = 0) (hm : a + 4 ≤ s.cfg.memSize) :
    s.loadWord a = s.wordAt a := by
  simp [State.loadWord, accessStop_none.2 ⟨ha, hm⟩]

/-- A load of the sequencer at an address that MemRead excludes (log 21). -/
theorem loadWord_excluded {s : State} {a : Nat} (h : accessStop s.cfg a ≠ none) :
    s.loadWord a = s.draw := by
  unfold State.loadWord
  split
  · contradiction
  · rfl

theorem storePlace_inside {s : State} {a : Nat} (ha : a % 4 = 0) (hm : a + 4 ≤ s.cfg.memSize) :
    s.storePlace a = some a := by
  simp [State.storePlace, accessStop_none.2 ⟨ha, hm⟩]

/-- Wherever a store of the sequencer lands is an aligned word of MEM (rules R62, R63). -/
theorem storePlace_some {s : State} {a b : Nat} (h : s.storePlace a = some b) :
    accessStop s.cfg b = none := by
  unfold State.storePlace at h
  split at h <;> cases h <;> assumption

/-- Everything a store of the sequencer can do: nothing, or one MemWrite that is no excluded one. -/
theorem storeWord_cases (s : State) (a : Nat) (v : Word) :
    (s.storePlace a = none ∧ s.storeWord a v = s) ∨
    ∃ b, s.storePlace a = some b ∧ s.memWrite b v = .ok (s.storeWord a v) ∧
      s.storeWord a v = { s with mem := setWord s.mem b v } := by
  cases h : s.storePlace a with
  | none => exact .inl ⟨rfl, by simp [State.storeWord, h]⟩
  | some b => exact .inr ⟨b, rfl, by simp [State.storeWord, State.memWrite, storePlace_some h, h]⟩

theorem storeWord_inside {s : State} {a : Nat} {v : Word} (ha : a % 4 = 0)
    (hm : a + 4 ≤ s.cfg.memSize) : s.storeWord a v = { s with mem := setWord s.mem a v } := by
  simp [State.storeWord, storePlace_inside ha hm]

/-- A store of the sequencer changes MEM and nothing else. -/
theorem storeWord_eq (s : State) (a : Nat) (v : Word) :
    s.storeWord a v = { s with mem := (s.storeWord a v).mem } := by
  unfold State.storeWord
  split <;> rfl

/-- The frame of a store of the sequencer. -/
theorem byteAt_storeWord_outside {s : State} {a x : Nat} (v : Word)
    (hx : ∀ b, s.storePlace a = some b → x < b ∨ b + 4 ≤ x) :
    (s.storeWord a v).byteAt x = s.byteAt x := by
  obtain ⟨-, h⟩ | ⟨b, hb, -, h⟩ := storeWord_cases s a v
  · rw [h]
  · rw [h]
    exact byteAt_setWord_outside s v (hx b hb)

/-- A store of the sequencer keeps MEM in canonical form and inside MEMSIZE bytes. -/
theorem storeWord_memGood {s : State} (hs : s.memGood) (a : Nat) (v : Word) :
    (s.storeWord a v).memGood := by
  obtain ⟨-, h⟩ | ⟨b, -, hw, -⟩ := storeWord_cases s a v
  · rwa [h]
  · exact memWrite_memGood hs hw

/-! ### Taking a fault -/

/-- In HALT nothing new is recorded (rule R129). -/
theorem raiseFault_halted (code : FaultCode) {s : State} (h : s.halt = true) :
    raiseFault code s = s.answer 0 .fault := by
  simp [raiseFault, h]

/-- The first fault, whole (rule R262). -/
theorem raiseFault_first (code : FaultCode) {s : State} (h : s.halt = false) :
    raiseFault code s =
      { s with
        faultCode := faultNumber code
        faultOp := s.opw
        halt := true
        started := false
        armed := false
        rings := s.rings.map Ring.disable
        events := .faulted (faultNumber code) s.opw :: s.events
        rdata := 0
        status := .fault } := by
  simp [raiseFault, h, State.mapRings, State.emit, State.answer]

/-- `raise Fault`, in one case distinction. -/
theorem raiseFault_cases (code : FaultCode) (s : State) :
    (s.halt = true ∧ raiseFault code s = s.answer 0 .fault) ∨
    (s.halt = false ∧ raiseFault code s =
      { s with
        faultCode := faultNumber code
        faultOp := s.opw
        halt := true
        started := false
        armed := false
        rings := s.rings.map Ring.disable
        events := .faulted (faultNumber code) s.opw :: s.events
        rdata := 0
        status := .fault }) := by
  cases h : s.halt
  · exact .inr ⟨rfl, raiseFault_first code h⟩
  · exact .inl ⟨rfl, raiseFault_halted code h⟩

/-! ### Rings -/

theorem ringAt_of_getElem? {s : State} {r : Nat} {g : Ring} (h : s.rings[r]? = some g) :
    s.ringAt r = g := by
  simp [State.ringAt, List.getD_eq_getElem?_getD, h]

theorem modify_eq_set_of_getElem? {α : Type} {l : List α} {i : Nat} {a : α} (f : α → α)
    (h : l[i]? = some a) : l.modify i f = l.set i (f a) := by
  apply List.ext_getElem?
  intro j
  rw [List.getElem?_modify, List.getElem?_set]
  by_cases hij : i = j
  · subst hij
    have := List.getElem?_eq_some_iff.1 h
    obtain ⟨hl, rfl⟩ := this
    simp [hl]
  · simp [hij]

/-- The end of a move that leaves words to move: CUR and REM alone (rules R141, R142). -/
theorem finishMove_more {r : BitVec 4} {s : State} {g : Ring} (hg : s.rings[r.toNat]? = some g)
    (hrem : g.rem - 1 ≠ 0) :
    finishMove r s =
      { s with rings := s.rings.set r.toNat { g with cur := g.cur + 4, rem := g.rem - 1 } } := by
  unfold finishMove
  rw [ringAt_of_getElem? hg]
  rw [if_neg (by simpa [Ring.moved] using hrem)]
  simp [State.modifyRing, modify_eq_set_of_getElem? _ hg, Ring.moved]

/-- RLD, whole (rule R143). -/
theorem reloadRing_eq {r : BitVec 4} {s : State} {g : Ring} (hg : s.rings[r.toNat]? = some g) :
    reloadRing r s =
      { s with
        events := .complete r :: s.events
        irq := if g.irqen then setPend s.irq r.toNat else s.irq
        rings := s.rings.set r.toNat
          { g with cur := g.baseOf g.next, next := otherHalf g.next, rem := g.len } } := by
  unfold reloadRing
  simp [ringAt_of_getElem? hg, State.modifyRing, State.emit, modify_eq_set_of_getElem? _ hg,
    Ring.reload]

/-- The end of a move that moved the last word: RLD in the same step (rules R141 to R143). -/
theorem finishMove_last {r : BitVec 4} {s : State} {g : Ring} (hg : s.rings[r.toNat]? = some g)
    (hrem : g.rem - 1 = 0) :
    finishMove r s =
      { s with
        events := .complete r :: s.events
        irq := if g.irqen then setPend s.irq r.toNat else s.irq
        rings := s.rings.set r.toNat
          { g with cur := g.baseOf g.next, next := otherHalf g.next, rem := g.len } } := by
  unfold finishMove
  rw [ringAt_of_getElem? hg, if_pos (by simpa [Ring.moved] using hrem)]
  have hl : r.toNat < s.rings.length := (List.getElem?_eq_some_iff.1 hg).1
  have hg' : (s.modifyRing r.toNat Ring.moved).rings[r.toNat]? = some g.moved := by
    simp [State.modifyRing, hg]
  rw [reloadRing_eq hg']
  simp only [State.modifyRing, modify_eq_set_of_getElem? _ hg, List.set_set]
  simp [Ring.moved, Ring.baseOf]
  rfl

/-- A reload changes ring registers, IRQ and the record alone. -/
theorem reloadRing_frame (r : BitVec 4) (s : State) :
    ∃ rings irq, reloadRing r s =
      { s with rings := rings, irq := irq, events := .complete r :: s.events } ∧
      rings.length = s.rings.length := by
  unfold reloadRing
  exact ⟨_, _, rfl, by simp⟩

/-- The end of a move changes ring registers, IRQ and the record alone. -/
theorem finishMove_frame (r : BitVec 4) (s : State) :
    ∃ rings irq events, finishMove r s =
      { s with rings := rings, irq := irq, events := events } ∧
      rings.length = s.rings.length := by
  unfold finishMove
  split
  · obtain ⟨rings, irq, h, hl⟩ := reloadRing_frame r (s.modifyRing r.toNat Ring.moved)
    exact ⟨rings, irq, _, h, by simpa using hl⟩
  · exact ⟨_, s.irq, s.events, rfl, by simp⟩

/-- `active` is the half CUR lies in (rule R145). -/
theorem Ring.active_some {g : Ring} {half : Half} (h : g.active = some half) :
    g.en = true ∧ (g.baseOf half).toNat ≤ g.cur.toNat ∧
      g.cur.toNat < (g.baseOf half).toNat + 4 * g.len.toNat := by
  unfold Ring.active at h
  split at h
  · cases h
  · rename_i hen
    split at h
    · cases h; exact ⟨by simpa using hen, ‹_›⟩
    · split at h
      · cases h; exact ⟨by simpa using hen, ‹_›⟩
      · cases h

/-! ### Bits -/

theorem natOfBits_lt (f : Nat → Bool) (n : Nat) : natOfBits f n < 2 ^ n := by
  induction n with
  | zero => simp [natOfBits]
  | succ n ih =>
    have : (f n).toNat ≤ 1 := Bool.toNat_le _
    simp only [natOfBits, Nat.pow_succ]
    nlinarith

/-- Bit `i` of `sum over c < n of f c << c` is `f i` below `n`. -/
theorem natOfBits_testBit (f : Nat → Bool) (n i : Nat) :
    (natOfBits f n).testBit i = (decide (i < n) && f i) := by
  induction n with
  | zero => simp [natOfBits]
  | succ n ih =>
    have hlt := natOfBits_lt f n
    rw [natOfBits, Nat.add_comm, Nat.mul_comm, Nat.testBit_two_pow_mul_add _ hlt]
    split
    · rename_i h
      rw [ih]; simp [h, Nat.lt_succ_of_lt h]
    · rename_i h
      by_cases hi : i = n
      · subst hi; cases hf : f i <;> simp
      · have : ¬ i < n + 1 := by omega
        rw [decide_eq_false this]
        have hne : i - n = (i - n - 1) + 1 := by omega
        cases hf : f n
        · simp
        · rw [hne, Nat.testBit_succ]
          simp

/-! ### Files and small types -/

@[simp] theorem otherHalf_otherHalf (h : Half) : otherHalf (otherHalf h) = h := by cases h <;> rfl

@[simp] theorem PerPhase.get_set_same {α : Type} (v : PerPhase α) (p : Phase) (a : α) :
    (v.set p a).get p = a := by cases p <;> rfl

@[simp] theorem PerPhase.set_set {α : Type} (v : PerPhase α) (p : Phase) (a b : α) :
    (v.set p a).set p b = v.set p b := by cases p <;> rfl

@[simp] theorem fileSet_length {α : Type} (file : List (List α)) (r i : Nat) (v : α) :
    (fileSet file r i v).length = file.length := by simp [fileSet]

theorem fileAt_fileSet_same {α : Type} {file : List (List α)} {row : List α} {r i : Nat} (v d : α)
    (hr : file[r]? = some row) (hi : i < row.length) : fileAt (fileSet file r i v) r i d = v := by
  simp [fileAt, fileSet, List.getD_eq_getElem?_getD, hr, hi]

theorem fileAt_fileSet_other {α : Type} (file : List (List α)) {r i r' i' : Nat} (v d : α)
    (h : r' ≠ r ∨ i' ≠ i) : fileAt (fileSet file r i v) r' i' d = fileAt file r' i' d := by
  simp only [fileAt, fileSet, List.getD_eq_getElem?_getD, List.getElem?_modify]
  by_cases hr : r = r'
  · subst hr
    have hi : i' ≠ i := by simpa using h
    cases hrow : file[r]? with
    | none => simp
    | some row => simp [List.getElem?_set_ne (Ne.symm hi)]
  · simp [hr]

/-- PRESCALE's range (rule R211). -/
theorem prescale_range (x : Word) : -(2 ^ 23) ≤ prescale x ∧ prescale x < 2 ^ 23 := by
  have h1 := BitVec.le_toInt x
  have h2 := BitVec.toInt_lt (x := x)
  simp only [prescale, asr, preShift]
  norm_num at *
  omega

end Sys2Proof.Machine
end

