-- ==== Sys2Proof/Laws/PerInstr.lean ====
section
/-! SUPPORT. Per-instruction lemmas: every operation's word matches its row of the opcode table. -/

namespace Sys2Proof.Laws

/-- The word of an operation matches its row of the opcode table (rule R99). -/
def EncodeMatchesRow.Statement (i : Instr) : Prop := encode i &&& (rowOf i).mask = (rowOf i).val

theorem maskG (opc : BitVec 8) (off : BitVec 12) : wordG opc off &&& 0xFFFFF000 = wordG opc 0 := by
  show (opc ++ 0#12 ++ off : BitVec 32) &&& (0xFF#8 ++ 0xFFF#12 ++ 0#12 : BitVec 32) = _
  rw [BitVec.and_append, BitVec.and_append, BitVec.and_zero, BitVec.zero_and,
    show opc &&& 0xFF#8 = opc from BitVec.and_allOnes]
  rfl

theorem maskR (opc : BitVec 8) (r : BitVec 4) : wordR opc r &&& 0xFF0FFFFF = wordR opc 0 := by
  show (opc ++ r ++ 0#20 : BitVec 32) &&& (0xFF#8 ++ 0#4 ++ 0xFFFFF#20 : BitVec 32) = _
  rw [BitVec.and_append, BitVec.and_append, BitVec.and_zero, BitVec.zero_and,
    show opc &&& 0xFF#8 = opc from BitVec.and_allOnes]
  rfl

theorem maskK (opc : BitVec 8) (k : BitVec 16) : wordK opc k &&& 0xFFFF0000 = wordK opc 0 := by
  show (opc ++ 0#8 ++ k : BitVec 32) &&& (0xFF#8 ++ 0xFF#8 ++ 0#16 : BitVec 32) = _
  rw [BitVec.and_append, BitVec.and_append, BitVec.and_zero, BitVec.zero_and,
    show opc &&& 0xFF#8 = opc from BitVec.and_allOnes]
  rfl

theorem maskB (opc : BitVec 8) (b : BitVec 8) : wordB opc b &&& 0xFFFFFF00 = wordB opc 0 := by
  show (opc ++ 0#16 ++ b : BitVec 32) &&& (0xFF#8 ++ 0xFFFF#16 ++ 0#8 : BitVec 32) = _
  rw [BitVec.and_append, BitVec.and_append, BitVec.and_zero, BitVec.zero_and,
    show opc &&& 0xFF#8 = opc from BitVec.and_allOnes]
  rfl

/-- The fields a row's mask covers are those its match fixes (format F, rule R97). -/
theorem maskF (opc mo : BitVec 8) (p mp : BitVec 1) (ch mc : BitVec 7) (m mm j mj : BitVec 8) :
    wordF opc p ch m j &&& wordF mo mp mc mm mj =
      wordF (opc &&& mo) (p &&& mp) (ch &&& mc) (m &&& mm) (j &&& mj) := by
  unfold wordF
  rw [BitVec.and_append, BitVec.and_append, BitVec.and_append, BitVec.and_append]

theorem EncodeMatchesRow.nop : EncodeMatchesRow.Statement .nop := rfl

theorem EncodeMatchesRow.rdreg (off : BitVec 12) : EncodeMatchesRow.Statement (.rdreg off) :=
  (maskG 0x01 off).trans rfl

theorem EncodeMatchesRow.wrreg (off : BitVec 12) : EncodeMatchesRow.Statement (.wrreg off) :=
  (maskG 0x02 off).trans rfl

theorem EncodeMatchesRow.cfg (r : BitVec 4) : EncodeMatchesRow.Statement (.cfg r) :=
  (maskR 0x03 r).trans rfl

theorem EncodeMatchesRow.start : EncodeMatchesRow.Statement .start := rfl

theorem EncodeMatchesRow.arm : EncodeMatchesRow.Statement .arm := rfl

theorem EncodeMatchesRow.stop : EncodeMatchesRow.Statement .stop := rfl

theorem EncodeMatchesRow.srst : EncodeMatchesRow.Statement .srst := rfl

theorem EncodeMatchesRow.movi (r : BitVec 4) : EncodeMatchesRow.Statement (.movi r) :=
  (maskR 0x10 r).trans rfl

theorem EncodeMatchesRow.movo (r : BitVec 4) : EncodeMatchesRow.Statement (.movo r) :=
  (maskR 0x11 r).trans rfl

theorem EncodeMatchesRow.rld (r : BitVec 4) : EncodeMatchesRow.Statement (.rld r) :=
  (maskR 0x12 r).trans rfl

theorem EncodeMatchesRow.enter : EncodeMatchesRow.Statement .enter := rfl

theorem EncodeMatchesRow.probe (r : BitVec 4) : EncodeMatchesRow.Statement (.probe r) :=
  (maskR 0x21 r).trans rfl

theorem EncodeMatchesRow.ldw (k : BitVec 16) : EncodeMatchesRow.Statement (.ldw k) :=
  (maskK 0x22 k).trans rfl

theorem EncodeMatchesRow.stw (p : Phase) (ch : BitVec 7) (m : BitVec 8) :
    EncodeMatchesRow.Statement (.stw p ch m) := by
  show wordF 0x23 (phaseBit p) ch m 0 &&& wordF 0xFF 0 0 0 0xFF = _
  rw [maskF]
  simp only [BitVec.and_zero, BitVec.zero_and, show (0 : BitVec 7) = 0#7 from rfl,
    show (0 : BitVec 8) = 0#8 from rfl, show (0 : BitVec 1) = 0#1 from rfl]
  rfl

theorem EncodeMatchesRow.leave : EncodeMatchesRow.Statement .leave := rfl

theorem EncodeMatchesRow.expand (b : Byte) : EncodeMatchesRow.Statement (.expand b) :=
  (maskB 0x30 b).trans rfl

theorem EncodeMatchesRow.deint (k : BitVec 16) : EncodeMatchesRow.Statement (.deint k) :=
  (maskK 0x31 k).trans rfl

theorem EncodeMatchesRow.asm (k : BitVec 16) : EncodeMatchesRow.Statement (.asm k) :=
  (maskK 0x32 k).trans rfl

theorem EncodeMatchesRow.hsh (ch : BitVec 7) :
    EncodeMatchesRow.Statement (.hsh ch) := by
  show wordF 0x40 0 ch 0 0 &&& wordF 0xFF 1 0 0xFF 0xFF = _
  rw [maskF]
  simp only [BitVec.and_zero, BitVec.zero_and, show (0 : BitVec 7) = 0#7 from rfl,
    show (0 : BitVec 8) = 0#8 from rfl, show (0 : BitVec 1) = 0#1 from rfl]
  rfl

theorem EncodeMatchesRow.hpu (ch : BitVec 7) (m : BitVec 8) :
    EncodeMatchesRow.Statement (.hpu ch m) := by
  show wordF 0x41 0 ch m 0 &&& wordF 0xFF 1 0 0 0xFF = _
  rw [maskF]
  simp only [BitVec.and_zero, BitVec.zero_and, show (0 : BitVec 7) = 0#7 from rfl,
    show (0 : BitVec 8) = 0#8 from rfl, show (0 : BitVec 1) = 0#1 from rfl]
  rfl

theorem EncodeMatchesRow.clr (p : Phase) :
    EncodeMatchesRow.Statement (.clr p) := by
  show wordF 0x50 (phaseBit p) 0 0 0 &&& wordF 0xFF 0 0x7F 0xFF 0xFF = _
  rw [maskF]
  simp only [BitVec.and_zero, BitVec.zero_and, show (0 : BitVec 7) = 0#7 from rfl,
    show (0 : BitVec 8) = 0#8 from rfl, show (0 : BitVec 1) = 0#1 from rfl]
  rfl

theorem EncodeMatchesRow.mac (p : Phase) (ch : BitVec 7) (m : BitVec 8) (j : BitVec 8) :
    EncodeMatchesRow.Statement (.mac p ch m j) := by
  show wordF 0x51 (phaseBit p) ch m j &&& wordF 0xFF 0 0 0 0 = _
  rw [maskF]
  simp only [BitVec.and_zero, show (0 : BitVec 7) = 0#7 from rfl,
    show (0 : BitVec 8) = 0#8 from rfl, show (0 : BitVec 1) = 0#1 from rfl]
  rfl

theorem EncodeMatchesRow.sat (p : Phase) :
    EncodeMatchesRow.Statement (.sat p) := by
  show wordF 0x52 (phaseBit p) 0 0 0 &&& wordF 0xFF 0 0x7F 0xFF 0xFF = _
  rw [maskF]
  simp only [BitVec.and_zero, BitVec.zero_and, show (0 : BitVec 7) = 0#7 from rfl,
    show (0 : BitVec 8) = 0#8 from rfl, show (0 : BitVec 1) = 0#1 from rfl]
  rfl

theorem EncodeMatchesRow.shl (p : Phase) :
    EncodeMatchesRow.Statement (.shl p) := by
  show wordF 0x53 (phaseBit p) 0 0 0 &&& wordF 0xFF 0 0x7F 0xFF 0xFF = _
  rw [maskF]
  simp only [BitVec.and_zero, BitVec.zero_and, show (0 : BitVec 7) = 0#7 from rfl,
    show (0 : BitVec 8) = 0#8 from rfl, show (0 : BitVec 1) = 0#1 from rfl]
  rfl

end Sys2Proof.Laws
end

