-- ==== Sys2Proof/Laws/Program.lean ====
section
/-! SUPPORT. What the bring-up and restart transactions are (rules R128, R130, R291). -/

namespace Sys2Proof.Machine

theorem configureOps_length (r : BitVec 4) (u : RingSetup) : (configureOps r u).length = 5 := rfl

/-- CONFIGURE ends with CFG of its ring. -/
theorem configureOps_getLast? (r : BitVec 4) (u : RingSetup) :
    (configureOps r u).getLast? = some (encode (.cfg r), 0) := rfl

/-- A bring-up is five transactions a ring, then START and ARM. -/
theorem bringUpOps_length (c : Cfg) (setup : Nat → RingSetup) :
    (bringUpOps c setup).length = 5 * c.nrings + 2 := by
  simp [bringUpOps, configureOps_length, Nat.mul_comm]

/-- A bring-up holds a whole CONFIGURE of every ring of the configuration. -/
theorem configureOps_infix_bringUpOps (c : Cfg) (setup : Nat → RingSetup) {r : Nat}
    (hr : r ≤ c.nout) : configureOps (BitVec.ofNat 4 r) (setup r) <:+: bringUpOps c setup := by
  have hmem : r ∈ List.range c.nrings := List.mem_range.2 (by unfold Cfg.nrings; omega)
  obtain ⟨before, after, h⟩ := List.append_of_mem hmem
  refine ⟨before.flatMap fun n => configureOps (BitVec.ofNat 4 n) (setup n),
    (after.flatMap fun n => configureOps (BitVec.ofNat 4 n) (setup n)) ++
      [(encode .start, 0), (encode .arm, 0)], ?_⟩
  simp [bringUpOps, h]

/-- RESTART holds a whole CONFIGURE of every ring of the configuration (rule R130). -/
theorem configureOps_infix_restartOps (c : Cfg) (setup : Nat → RingSetup) {r : Nat}
    (hr : r ≤ c.nout) : configureOps (BitVec.ofNat 4 r) (setup r) <:+: restartOps c setup :=
  (configureOps_infix_bringUpOps c setup hr).trans (List.suffix_cons _ _).isInfix

/-- So does a restart after a fault. -/
theorem configureOps_infix_restartAfterFaultOps (c : Cfg) (setup : Nat → RingSetup) {r : Nat}
    (hr : r ≤ c.nout) :
    configureOps (BitVec.ofNat 4 r) (setup r) <:+: restartAfterFaultOps c setup :=
  (configureOps_infix_bringUpOps c setup hr).trans (List.suffix_cons _ _).isInfix

end Sys2Proof.Machine
end

