-- ==== Sys2Proof/Laws/Safety.lean ====
section
/-! SUPPORT. What ownership, overrun and the premise RT imply (rules R72, R297). -/

namespace Sys2Proof.Machine

/-- An LDW that respects ownership latches the word MEM holds at the address it computes. -/
theorem loadWord_of_owned {k : BitVec 16} {s : State} (h : loadOwned k s) :
    s.loadWord (loadAddress k s) = s.wordAt (loadAddress k s) := by
  obtain ⟨_, _, ha, _⟩ := h
  exact loadWord_inside (accessStop_none.1 ha).1 (accessStop_none.1 ha).2

/-- An STW that respects ownership writes one word of MEM, in the half its ring is not in. -/
theorem storeWord_of_owned {p : Phase} {ch : BitVec 7} {m : BitVec 8} {s : State} (v : Word)
    (h : storeOwned p ch m s) :
    ∃ half a, s.active (1 + (s.cfg.outOf ch.toNat).1) = some half ∧
      (s.ringAt (1 + (s.cfg.outOf ch.toNat).1)).holds (otherHalf half) a ∧
      s.storeWord (storeAddress p ch m s) v = { s with mem := setWord s.mem a v } := by
  obtain ⟨half, a, hh, ha, ho⟩ := h
  exact ⟨half, a, hh, ho, by simp [State.storeWord, ha]⟩

/-- Premise RT (b) of a step excludes an overrun in it. -/
theorem not_overrunIn_of_noOverrun {s t : State} (h : noOverrun s t) : ¬overrunIn s t := by
  rintro ⟨r, hr, hc, hp, _⟩
  exact h r hr hc hp

/-- What holds of every step of a chain holds of every two neighbours. -/
theorem of_mem_zip_tail {α : Type} {R : α → α → Prop} {l : List α} (h : l.IsChain R) {p : α × α}
    (hp : p ∈ l.zip l.tail) : R p.1 p.2 := by
  induction l with
  | nil => simp at hp
  | cons a l ih =>
    cases l with
    | nil => simp at hp
    | cons b l =>
      obtain ⟨hab, hl⟩ := List.isChain_cons_cons.1 h
      rcases List.mem_cons.1 hp with rfl | hp
      · exact hab
      · exact ih hl hp

/-- A stretch that meets RT is no overrun (rules R72, R297). -/
theorem not_overrun_of_RT {run : List State} (h : RT run) : ¬overrun run := by
  rintro ⟨-, st, hst, ho⟩
  exact not_overrunIn_of_noOverrun (of_mem_zip_tail h.1 hst).2.2.1 ho

end Sys2Proof.Machine
end

