-- ==== Sys2Proof/Laws/Step.lean ====
section
/-! SUPPORT. Everything a step can do, said once: a proof about every step takes these cases apart instead
of unfolding the meanings. -/

namespace Sys2Proof.Machine

/-- What an operation can do when it answers a next state. -/
inductive Effect (s : State) : Instr → State → Prop where
  | halted (i : Instr) (hi : s.issuer = .host) (hh : s.halt = true) :
      Effect s i (s.answer 0 .fault)
  | faults (i : Instr) (code : FaultCode) (hi : s.issuer = .host) :
      Effect s i (raiseFault code s)
  | nop (hi : s.issuer = .host) (hh : s.halt = false) : Effect s .nop (s.answerOk 0)
  | rdreg (off : BitVec 12) (reg : Reg) (hi : s.issuer = .host)
      (hr : regAt s.cfg off.toNat = some reg) : Effect s (.rdreg off) (s.answerOk (readReg s reg))
  | wrIrq (off : BitVec 12) (hi : s.issuer = .host) (hh : s.halt = false)
      (hr : regAt s.cfg off.toNat = some .irq) :
      Effect s (.wrreg off) ({ s with irq := writeIrq s.cfg s.irq s.wdata }.answerOk 0)
  | wrRing (off : BitVec 12) (r : Nat) (f : RingReg) (g : Ring) (hi : s.issuer = .host)
      (hh : s.halt = false) (hr : regAt s.cfg off.toNat = some (.ring r f))
      (hg : writeRingReg s.wdata (s.ringAt r) f = some g) (hen : (s.ringAt r).en = false) :
      Effect s (.wrreg off) ((s.modifyRing r fun _ => g).answerOk 0)
  | cfg (r : BitVec 4) (hi : s.issuer = .host) (hh : s.halt = false)
      (hc : cfgCheck s.cfg r (s.ringAt r.toNat) = none) :
      Effect s (.cfg r) ((s.modifyRing r.toNat Ring.install).answerOk 0)
  | start (hi : s.issuer = .host) (hh : s.halt = false) (hs : s.started = false)
      (hc : ∀ g ∈ s.rings, g.cfgd = true) :
      Effect s .start ({ (s.mapRings Ring.enable) with started := true }.answerOk 0)
  | arm (hi : s.issuer = .host) (hh : s.halt = false) (hs : s.started = true)
      (ha : s.armed = false) : Effect s .arm ({ s with irq := 0, armed := true }.answerOk 0)
  | stop (hi : s.issuer = .host) (hh : s.halt = false) :
      Effect s .stop ({ (s.mapRings Ring.halted) with started := false, armed := false }.answerOk 0)
  | srst (hi : s.issuer = .host) : Effect s .srst (s.toReset.answerOk 0)
  | movi (t : State) (hi : s.issuer = .ring 0)
      (hw : s.memWrite (s.ringAt 0).cur.toNat s.draw = .ok t) :
      Effect s (.movi 0) (finishMove 0 (t.emit (.capIn (s.ringAt 0).cur s.draw)))
  | movo (r : BitVec 4) (w : Word) (hi : s.issuer = .ring r) (h1 : 1 ≤ r.toNat)
      (hn : r.toNat ≤ s.cfg.nout) (hw : s.memRead (s.ringAt r.toNat).cur.toNat = .ok w) :
      Effect s (.movo r) (finishMove r (s.emit (.pbOut r (s.ringAt r.toNat).cur w)))
  | rld (r : BitVec 4) (hi : s.issuer = .ring r) (hn : r.toNat ≤ s.cfg.nout) :
      Effect s (.rld r) (reloadRing r s)
  | enter (hi : s.issuer = .seq) :
      Effect s .enter
        { (s.emit (.statEntry s.draw)) with irq := clearPend s.irq 0, busy := true, upc := 1 }
  | probe (r : BitVec 4) (hi : s.issuer = .seq) (hn : r.toNat ≤ s.cfg.nout) :
      Effect s (.probe r) (probeRing r.toNat s)
  | probeHost (r : BitVec 4) (hi : s.issuer = .host) (hh : s.halt = false)
      (hn : r.toNat ≤ s.cfg.nout) : Effect s (.probe r) (s.answerOk (probeAnswer r.toNat s))
  | ldw (k : BitVec 16) (hi : s.issuer = .seq) (hk : k.toNat < s.cfg.capLen) :
      Effect s (.ldw k) { s with cw := s.loadWord (loadAddress k s) }.advance
  | stw (p : Phase) (ch : BitVec 7) (m : BitVec 8) (hi : s.issuer = .seq)
      (hc : ch.toNat < s.cfg.channels) (hm : m.toNat < s.cfg.frames) :
      Effect s (.stw p ch m) (s.storeWord (storeAddress p ch m s) (s.y.get p)).advance
  | leave (hi : s.issuer = .seq) :
      Effect s .leave { (s.emit (.statExit s.draw)) with busy := false, upc := 0 }
  | expand (b : Byte) (hi : s.issuer = .host) (hh : s.halt = false) :
      Effect s (.expand b) (s.answerOk (expTab b))
  | deint (k : BitVec 16) (hi : s.issuer = .seq) (hk : k.toNat < s.cfg.wpf) :
      Effect s (.deint k) { s with lb := deintBuffers s.cfg s.cw k.toNat s.lb }.advance
  | asm (k : BitVec 16) (hi : s.issuer = .seq) (hk : k.toNat < s.cfg.frames) :
      Effect s (.asm k)
        { s with x := storeSamples s.x k.toNat (frameSlots s.cfg s.lb) }.advance
  | hsh (ch : BitVec 7) (hi : s.issuer = .seq) (hc : ch.toNat < s.cfg.channels) :
      Effect s (.hsh ch) { s with h := s.h.modify ch.toNat (shiftWindow s.cfg) }.advance
  | hpu (ch : BitVec 7) (m : BitVec 8) (hi : s.issuer = .seq)
      (hc : ch.toNat < s.cfg.channels) (hm : m.toNat < s.cfg.frames) :
      Effect s (.hpu ch m) { s with
        h := fileSet s.h ch.toNat (s.cfg.taps - 1 + m.toNat)
          (prescale (fileAt s.x ch.toNat m.toNat 0)) }.advance
  | clr (p : Phase) (hi : s.issuer = .seq) :
      Effect s (.clr p) { s with acc := s.acc.set p 0 }.advance
  | mac (p : Phase) (ch : BitVec 7) (m j : BitVec 8) (hi : s.issuer = .seq)
      (hc : ch.toNat < s.cfg.channels) (hm : m.toNat < s.cfg.frames) (hj : j.toNat < s.cfg.taps) :
      Effect s (.mac p ch m j)
        { s with acc := s.acc.set p (s.acc.get p + macTerm p ch m j s) }.advance
  | sat (p : Phase) (hi : s.issuer = .seq) :
      Effect s (.sat p)
        { s with acc := s.acc.set p (clamp (s.acc.get p) s.cfg.clampLo s.cfg.clampHi) }.advance
  | shl (p : Phase) (hi : s.issuer = .seq) :
      Effect s (.shl p)
        { s with y := s.y.set p (BitVec.ofInt 32 (s.acc.get p * 2 ^ s.cfg.outShift)) }.advance

/-- A host operation's next state is the halted answer or its own effect. -/
theorem hostOp_effect {i : Instr} {s t : State} {k : State → State} (h : hostOp s k = .next t)
    (hk : s.issuer = .host → s.halt = false → Effect s i (k s)) : Effect s i t := by
  obtain ⟨hi, ⟨hh, rfl⟩ | ⟨hh, rfl⟩⟩ := hostOp_next h
  · exact .halted i hi hh
  · exact hk hi hh

/-- A sequencer operation's next state is ILLEGAL_OP for the host or its own effect. -/
theorem seqOp_effect {i : Instr} {legal : Bool} {s t : State} {k : State → Result}
    (h : seqOp legal s k = .next t)
    (hk : s.issuer = .seq → legal = true → k s = .next t → Effect s i t) : Effect s i t := by
  obtain ⟨hi, rfl⟩ | ⟨hi, hl, hn⟩ := seqOp_next h
  · exact .faults i .illegalOp hi
  · exact hk hi hl hn

/-- A ring operation's next state is ILLEGAL_OP for the host or its own effect. -/
theorem ringOp_effect {i : Instr} {r : BitVec 4} {legal : Bool} {s t : State} {k : State → Result}
    (h : ringOp r legal s k = .next t)
    (hk : s.issuer = .ring r → legal = true → k s = .next t → Effect s i t) : Effect s i t := by
  obtain ⟨hi, rfl⟩ | ⟨hi, hl, hn⟩ := ringOp_next h
  · exact .faults i .illegalOp hi
  · exact hk hi hl hn

theorem execRdreg_effect {off : BitVec 12} {s t : State} (h : execRdreg off s = .next t) :
    Effect s (.rdreg off) t := by
  unfold execRdreg at h
  obtain ⟨hi, rfl⟩ := hostAnyOp_next h
  split
  · exact .faults _ .badReg hi
  · exact .rdreg off _ hi ‹_›

theorem execWrreg_effect {off : BitVec 12} {s t : State} (h : execWrreg off s = .next t) :
    Effect s (.wrreg off) t := by
  unfold execWrreg at h
  refine hostOp_effect h fun hi hh => ?_
  split
  · exact .wrIrq off hi hh ‹_›
  · rename_i r f hr
    unfold writeRing
    split
    · exact .faults _ .badReg hi
    · rename_i g hg
      split
      · exact .faults _ .badReg hi
      · rename_i hen
        exact .wrRing off r f g hi hh hr hg (by simpa using hen)
  all_goals exact .faults _ .badReg hi

theorem execCfg_effect {r : BitVec 4} {s t : State} (h : execCfg r s = .next t) :
    Effect s (.cfg r) t := by
  unfold execCfg at h
  refine hostOp_effect h fun hi hh => ?_
  split
  · exact .faults _ _ hi
  · exact .cfg r hi hh ‹_›

theorem execStart_effect {s t : State} (h : execStart s = .next t) : Effect s .start t := by
  unfold execStart at h
  refine hostOp_effect h fun hi hh => ?_
  split
  · exact .faults _ _ hi
  · rename_i hs
    split
    · exact .faults _ _ hi
    · rename_i hc
      exact .start hi hh (by simpa using hs) (by simpa using hc)

theorem execArm_effect {s t : State} (h : execArm s = .next t) : Effect s .arm t := by
  unfold execArm at h
  refine hostOp_effect h fun hi hh => ?_
  split
  · exact .faults _ _ hi
  · rename_i hc
    simp only [Bool.or_eq_true, Bool.not_eq_true', not_or, Bool.not_eq_false,
      Bool.not_eq_true] at hc
    exact .arm hi hh hc.1 hc.2

theorem execMovi_effect {r : BitVec 4} {s t : State} (h : execMovi r s = .next t) :
    Effect s (.movi r) t := by
  unfold execMovi at h
  refine ringOp_effect h fun hi hl hn => ?_
  obtain rfl : r = 0 := by simpa [captureLegal] using hl
  obtain ⟨t', hw, rfl⟩ := orStop_next hn
  exact .movi t' hi hw

theorem execMovo_effect {r : BitVec 4} {s t : State} (h : execMovo r s = .next t) :
    Effect s (.movo r) t := by
  unfold execMovo at h
  refine ringOp_effect h fun hi hl hn => ?_
  have hl' : 1 ≤ r.toNat ∧ r.toNat ≤ s.cfg.nout := by simpa [playbackLegal] using hl
  obtain ⟨w, hw, rfl⟩ := orStop_next hn
  exact .movo r w hi hl'.1 hl'.2 hw

theorem execProbe_effect {r : BitVec 4} {s t : State} (h : execProbe r s = .next t) :
    Effect s (.probe r) t := by
  unfold execProbe at h
  split at h
  · refine hostOp_effect h fun hi hh => ?_
    split
    · rename_i hl
      exact .probeHost r hi hh (by simpa [ringLegal] using hl)
    · exact .faults _ _ hi
  · refine seqOp_effect h fun hi hl hn => ?_
    cases hn
    exact .probe r hi (by simpa [ringLegal] using hl)
  · cases h

/-- Everything an operation can do (rules R120 to R234). -/
theorem exec_effect {i : Instr} {s t : State} (h : exec i s = .next t) : Effect s i t := by
  cases i with
  | nop =>
    unfold exec execNop at h
    exact hostOp_effect h fun hi hh => .nop hi hh
  | rdreg off => exact execRdreg_effect h
  | wrreg off => exact execWrreg_effect h
  | cfg r => exact execCfg_effect h
  | start => exact execStart_effect h
  | arm => exact execArm_effect h
  | stop =>
    unfold exec execStop at h
    exact hostOp_effect h fun hi hh => .stop hi hh
  | srst =>
    unfold exec execSrst at h
    obtain ⟨hi, rfl⟩ := hostAnyOp_next h
    exact .srst hi
  | movi r => exact execMovi_effect h
  | movo r => exact execMovo_effect h
  | rld r =>
    unfold exec execRld at h
    refine ringOp_effect h fun hi hl hn => ?_
    cases hn
    exact .rld r hi (by simpa [ringLegal] using hl)
  | enter =>
    unfold exec execEnter at h
    refine seqOp_effect h fun hi _ hn => ?_
    cases hn
    exact .enter hi
  | probe r => exact execProbe_effect h
  | ldw k =>
    unfold exec execLdw at h
    refine seqOp_effect h fun hi hl hn => ?_
    cases hn
    exact .ldw k hi (by simpa [wordIndexLegal] using hl)
  | stw p ch m =>
    unfold exec execStw at h
    refine seqOp_effect h fun hi hl hn => ?_
    cases hn
    simp only [Bool.and_eq_true, channelLegal, blockFrameLegal, decide_eq_true_eq] at hl
    exact .stw p ch m hi hl.1 hl.2
  | leave =>
    unfold exec execLeave at h
    refine seqOp_effect h fun hi _ hn => ?_
    cases hn
    exact .leave hi
  | expand b =>
    unfold exec execExpand at h
    exact hostOp_effect h fun hi hh => .expand b hi hh
  | deint k =>
    unfold exec execDeint at h
    refine seqOp_effect h fun hi hl hn => ?_
    cases hn
    exact .deint k hi (by simpa [frameWordLegal] using hl)
  | asm k =>
    unfold exec execAsm at h
    refine seqOp_effect h fun hi hl hn => ?_
    cases hn
    exact .asm k hi (by simpa [frameLegal] using hl)
  | hsh ch =>
    unfold exec execHsh at h
    refine seqOp_effect h fun hi hl hn => ?_
    cases hn
    exact .hsh ch hi (by simpa [channelLegal] using hl)
  | hpu ch m =>
    unfold exec execHpu at h
    refine seqOp_effect h fun hi hl hn => ?_
    cases hn
    simp only [Bool.and_eq_true, channelLegal, blockFrameLegal, decide_eq_true_eq] at hl
    exact .hpu ch m hi hl.1 hl.2
  | clr p =>
    unfold exec execClr at h
    refine seqOp_effect h fun hi _ hn => ?_
    cases hn
    exact .clr p hi
  | mac p ch m j =>
    unfold exec execMac at h
    refine seqOp_effect h fun hi hl hn => ?_
    cases hn
    simp only [Bool.and_eq_true, channelLegal, blockFrameLegal, tapLegal, decide_eq_true_eq] at hl
    exact .mac p ch m j hi hl.1.1 hl.1.2 hl.2
  | sat p =>
    unfold exec execSat at h
    refine seqOp_effect h fun hi _ hn => ?_
    cases hn
    exact .sat p hi
  | shl p =>
    unfold exec execShl at h
    refine seqOp_effect h fun hi _ hn => ?_
    cases hn
    exact .shl p hi

/-- Everything a turn can do. -/
inductive TurnEffect (s : State) : Turn → State → Prop where
  | runs (tn : Turn) (w : Word) (i : Instr) (t : State) (hf : s.fetch tn = some w)
      (hd : decode w = .ok i) (he : Effect (s.present tn) i t) : TurnEffect s tn t
  | invalid (opw wdata : Word) (e : DecodeError) (hd : decode opw = .error e) :
      TurnEffect s (.host opw wdata)
        (raiseFault .illegalOp { s with issuer := .host, opw := opw, wdata := wdata })
  | idleRing (r : BitVec 4) (w : Word) (hf : s.fetch (.ring r w) = none) :
      TurnEffect s (.ring r w) s
  | idleSeq (d : Word) (hf : s.fetch (.seq d) = none) : TurnEffect s (.seq d) s
  | hostRead (a w : Word) (hr : s.memRead a.toNat = .ok w) :
      TurnEffect s (.hostRead a) { s with mdata := w }
  | hostWrite (a v : Word) (t : State) (hw : s.memWrite a.toNat v = .ok t) :
      TurnEffect s (.hostWrite a v) t
  | reset : TurnEffect s .reset s.toReset

theorem encode_of_seqWord {s : State} {w : Word} (h : s.seqWord = some w) :
    ∃ i ∈ passProg s.cfg, w = encode i := by
  unfold State.seqWord at h
  split at h
  · obtain ⟨i, hi, rfl⟩ := List.mem_map.1 (List.mem_of_getElem? h)
    exact ⟨i, hi, rfl⟩
  · cases h

/-- Everything a turn that answers a next state can do. -/
theorem runTurn_effect {tn : Turn} {s t : State} (h : runTurn tn s = .next t) :
    TurnEffect s tn t := by
  cases tn with
  | host opw wdata =>
    change runWord opw _ = _ at h
    unfold runWord at h
    split at h
    · exact .runs _ opw _ t rfl ‹_› (exec_effect h)
    · obtain ⟨_, rfl⟩ := invalidWord_next h
      exact .invalid opw wdata _ ‹_›
  | ring r w =>
    simp only [runTurn] at h
    split at h
    · rename_i opw hf
      unfold runWord at h
      split at h
      · exact .runs _ opw _ t hf ‹_› (exec_effect h)
      · cases h
    · cases h; exact .idleRing r w ‹_›
  | seq d =>
    simp only [runTurn] at h
    split at h
    · rename_i opw hf
      unfold runWord at h
      split at h
      · exact .runs _ opw _ t hf ‹_› (exec_effect h)
      · cases h
    · cases h; exact .idleSeq d ‹_›
  | hostRead a =>
    unfold runTurn Sys2Proof.Machine.hostRead at h
    obtain ⟨w, hw, rfl⟩ := orStop_next h
    exact .hostRead a w hw
  | hostWrite a v =>
    unfold runTurn Sys2Proof.Machine.hostWrite at h
    obtain ⟨_, hw, rfl⟩ := orStop_next h
    exact .hostWrite a v _ hw
  | reset => cases h; exact .reset

/-- Everything a step that answers a next state can do. -/
theorem step_effect {s t : State} (h : step s = .next t) :
    ∃ tn s', s.takeTurn = (tn, s') ∧ TurnEffect s' tn t :=
  ⟨_, _, rfl, runTurn_effect h⟩

/-- Taking a turn changes the choices left and nothing else. -/
theorem takeTurn_state (s : State) :
    s.takeTurn.2 = { s with turns := s.takeTurn.2.turns, tick := s.takeTurn.2.tick } := by
  unfold State.takeTurn
  split <;> rfl

/-- A choice that has been laid down is the next one taken. -/
theorem takeTurn_of_turns {s : State} {tn : Turn} {rest : List Turn} (h : s.turns = tn :: rest) :
    s.takeTurn = (tn, { s with turns := rest }) := by
  simp [State.takeTurn, h]

/-- What holds of a state however its choices stand, and is kept by every fetched operation, by a fault,
by the host's path and by reset, is kept by every step. -/
theorem step_keeps {P : State → Prop}
    (turn : ∀ s turns tick, P s → P { s with turns := turns, tick := tick })
    (effect : ∀ s tn w i t, P s → s.fetch tn = some w → decode w = .ok i →
      Effect (s.present tn) i t → P t)
    (fault : ∀ s opw wdata, P s → P (raiseFault .illegalOp (s.present (.host opw wdata))))
    (read : ∀ s v, P s → P { s with mdata := v })
    (write : ∀ s t a v, P s → s.memWrite a v = .ok t → P t)
    (reset : ∀ s, P s → P s.toReset) {s t : State} (hs : P s) (h : step s = .next t) : P t := by
  obtain ⟨tn, s', hts, he⟩ := step_effect h
  have hs' : P s' := by
    have h2 := takeTurn_state s
    simp only [hts] at h2
    rw [h2]
    exact turn s _ _ hs
  cases he with
  | runs _ w i _ hf hd he => exact effect s' tn w i t hs' hf hd he
  | invalid opw wdata e hd => exact fault s' opw wdata hs'
  | idleRing => exact hs'
  | idleSeq => exact hs'
  | hostRead => exact read _ _ hs'
  | hostWrite a v _ hw => exact write _ _ _ _ hs' hw
  | reset => exact reset _ hs'

end Sys2Proof.Machine
end

