-- ==== Sys2Proof/Tests/Slice0.lean ====
section
/-! SUPPORT. The model's own tests: well-formedness, decoding, one or two steps of each operation on a small
state, and for every statement with hypotheses a state that meets them. Expected values are the spec's
(95_test_vectors.md unless said). -/

namespace Sys2Proof.Tests

open Sys2Proof.Machine

/-! ### Well-formedness: each check refuses an ill-formed term (TC-S: NOUT 2, CAPLEN 8, WPF 2, FRAMES 4,
CHANNELS 2, TAPS 3; rules R94 to R100) -/

theorem test_illformed_cfg : Instr.wellFormed Cfg.tcS (.cfg 3) = false := by decide

theorem test_illformed_movi : Instr.wellFormed Cfg.tcS (.movi 1) = false := by decide

theorem test_illformed_movo_zero : Instr.wellFormed Cfg.tcS (.movo 0) = false := by decide

theorem test_illformed_movo_high : Instr.wellFormed Cfg.tcS (.movo 3) = false := by decide

theorem test_illformed_rld : Instr.wellFormed Cfg.tcS (.rld 3) = false := by decide

theorem test_illformed_probe : Instr.wellFormed Cfg.tcS (.probe 15) = false := by decide

theorem test_illformed_ldw : Instr.wellFormed Cfg.tcS (.ldw 8) = false := by decide

theorem test_illformed_stw_ch : Instr.wellFormed Cfg.tcS (.stw .one 2 0) = false := by decide

theorem test_illformed_stw_m : Instr.wellFormed Cfg.tcS (.stw .one 0 4) = false := by decide

theorem test_illformed_deint : Instr.wellFormed Cfg.tcS (.deint 2) = false := by decide

theorem test_illformed_asm : Instr.wellFormed Cfg.tcS (.asm 4) = false := by decide

theorem test_illformed_hsh : Instr.wellFormed Cfg.tcS (.hsh 2) = false := by decide

theorem test_illformed_hpu_ch : Instr.wellFormed Cfg.tcS (.hpu 2 0) = false := by decide

theorem test_illformed_hpu_m : Instr.wellFormed Cfg.tcS (.hpu 0 4) = false := by decide

theorem test_illformed_mac_ch : Instr.wellFormed Cfg.tcS (.mac .zero 127 0 0) = false := by decide

theorem test_illformed_mac_m : Instr.wellFormed Cfg.tcS (.mac .zero 0 255 0) = false := by decide

theorem test_illformed_mac_j : Instr.wellFormed Cfg.tcS (.mac .zero 0 0 3) = false := by decide

theorem test_wellformed_at_the_limits :
    [Instr.cfg 2, .movi 0, .movo 2, .rld 2, .probe 2, .ldw 7, .stw .one 1 3, .deint 1, .asm 3, .hsh 1,
      .hpu 1 3, .mac .one 1 3 2].all (Instr.wellFormed Cfg.tcS) = true := by decide

theorem test_tcS_valid : Cfg.tcS.Valid := by decide

theorem test_tcMin_valid : Cfg.tcMin.Valid := by decide

theorem test_tcSat_valid : (Cfg.tcSat 3).Valid := by decide

/-! ### Decoding: a word of every operation, written from the spec's encoding (rule R99; section 2.1) -/

theorem test_decode_nop : decodeTableWord 32 0x00000000 = some (.nop) := by decide

theorem test_decode_rdreg : decodeTableWord 32 0x0100010C = some (.rdreg 0x10C) := by decide

theorem test_decode_wrreg : decodeTableWord 32 0x02000108 = some (.wrreg 0x108) := by decide

theorem test_decode_cfg : decodeTableWord 32 0x03200000 = some (.cfg 2) := by decide

theorem test_decode_start : decodeTableWord 32 0x04000000 = some (.start) := by decide

theorem test_decode_arm : decodeTableWord 32 0x05000000 = some (.arm) := by decide

theorem test_decode_stop : decodeTableWord 32 0x06000000 = some (.stop) := by decide

theorem test_decode_srst : decodeTableWord 32 0x07000000 = some (.srst) := by decide

theorem test_decode_movi : decodeTableWord 32 0x10000000 = some (.movi 0) := by decide

theorem test_decode_movo : decodeTableWord 32 0x11200000 = some (.movo 2) := by decide

theorem test_decode_rld : decodeTableWord 32 0x12F00000 = some (.rld 15) := by decide

theorem test_decode_enter : decodeTableWord 32 0x20000000 = some (.enter) := by decide

theorem test_decode_probe : decodeTableWord 32 0x21100000 = some (.probe 1) := by decide

theorem test_decode_ldw : decodeTableWord 32 0x22000007 = some (.ldw 7) := by decide

theorem test_decode_stw : decodeTableWord 32 0x23810200 = some (.stw .one 1 2) := by decide

theorem test_decode_leave : decodeTableWord 32 0x24000000 = some (.leave) := by decide

theorem test_decode_expand : decodeTableWord 32 0x300000A5 = some (.expand 0xA5) := by decide

theorem test_decode_deint : decodeTableWord 32 0x31000001 = some (.deint 1) := by decide

theorem test_decode_asm : decodeTableWord 32 0x32000003 = some (.asm 3) := by decide

theorem test_decode_hsh : decodeTableWord 32 0x40010000 = some (.hsh 1) := by decide

theorem test_decode_hpu : decodeTableWord 32 0x41010300 = some (.hpu 1 3) := by decide

theorem test_decode_clr : decodeTableWord 32 0x50800000 = some (.clr .one) := by decide

theorem test_decode_mac : decodeTableWord 32 0x51FFFFFF = some (.mac .one 127 255 255) := by decide

theorem test_decode_sat : decodeTableWord 32 0x52000000 = some (.sat .zero) := by decide

theorem test_decode_shl : decodeTableWord 32 0x53800000 = some (.shl .one) := by decide

theorem test_decode_invalid :
    [0x00000001, 0x08000000, 0x13000000, 0x25000000, 0x33000000, 0x42000000, 0x54000000, 0x60000000,
      0xFFFFFFFF, 0x03000001, 0x30000100, 0x40800000, 0x23000001, 0x01001000].all
      (fun w => (decodeTableWord 32 w).isNone) = true := by decide

/-! ### The Deinterleave Table, all 256 entries (rule R192) -/

def expTabRows0 : List Nat := [
    0x0000, 0x0001, 0x0004, 0x0005, 0x0010, 0x0011, 0x0014, 0x0015,
    0x0040, 0x0041, 0x0044, 0x0045, 0x0050, 0x0051, 0x0054, 0x0055,
    0x0100, 0x0101, 0x0104, 0x0105, 0x0110, 0x0111, 0x0114, 0x0115,
    0x0140, 0x0141, 0x0144, 0x0145, 0x0150, 0x0151, 0x0154, 0x0155,
    0x0400, 0x0401, 0x0404, 0x0405, 0x0410, 0x0411, 0x0414, 0x0415,
    0x0440, 0x0441, 0x0444, 0x0445, 0x0450, 0x0451, 0x0454, 0x0455,
    0x0500, 0x0501, 0x0504, 0x0505, 0x0510, 0x0511, 0x0514, 0x0515,
    0x0540, 0x0541, 0x0544, 0x0545, 0x0550, 0x0551, 0x0554, 0x0555]

def expTabRows1 : List Nat := [
    0x1000, 0x1001, 0x1004, 0x1005, 0x1010, 0x1011, 0x1014, 0x1015,
    0x1040, 0x1041, 0x1044, 0x1045, 0x1050, 0x1051, 0x1054, 0x1055,
    0x1100, 0x1101, 0x1104, 0x1105, 0x1110, 0x1111, 0x1114, 0x1115,
    0x1140, 0x1141, 0x1144, 0x1145, 0x1150, 0x1151, 0x1154, 0x1155,
    0x1400, 0x1401, 0x1404, 0x1405, 0x1410, 0x1411, 0x1414, 0x1415,
    0x1440, 0x1441, 0x1444, 0x1445, 0x1450, 0x1451, 0x1454, 0x1455,
    0x1500, 0x1501, 0x1504, 0x1505, 0x1510, 0x1511, 0x1514, 0x1515,
    0x1540, 0x1541, 0x1544, 0x1545, 0x1550, 0x1551, 0x1554, 0x1555]

def expTabRows2 : List Nat := [
    0x4000, 0x4001, 0x4004, 0x4005, 0x4010, 0x4011, 0x4014, 0x4015,
    0x4040, 0x4041, 0x4044, 0x4045, 0x4050, 0x4051, 0x4054, 0x4055,
    0x4100, 0x4101, 0x4104, 0x4105, 0x4110, 0x4111, 0x4114, 0x4115,
    0x4140, 0x4141, 0x4144, 0x4145, 0x4150, 0x4151, 0x4154, 0x4155,
    0x4400, 0x4401, 0x4404, 0x4405, 0x4410, 0x4411, 0x4414, 0x4415,
    0x4440, 0x4441, 0x4444, 0x4445, 0x4450, 0x4451, 0x4454, 0x4455,
    0x4500, 0x4501, 0x4504, 0x4505, 0x4510, 0x4511, 0x4514, 0x4515,
    0x4540, 0x4541, 0x4544, 0x4545, 0x4550, 0x4551, 0x4554, 0x4555]

def expTabRows3 : List Nat := [
    0x5000, 0x5001, 0x5004, 0x5005, 0x5010, 0x5011, 0x5014, 0x5015,
    0x5040, 0x5041, 0x5044, 0x5045, 0x5050, 0x5051, 0x5054, 0x5055,
    0x5100, 0x5101, 0x5104, 0x5105, 0x5110, 0x5111, 0x5114, 0x5115,
    0x5140, 0x5141, 0x5144, 0x5145, 0x5150, 0x5151, 0x5154, 0x5155,
    0x5400, 0x5401, 0x5404, 0x5405, 0x5410, 0x5411, 0x5414, 0x5415,
    0x5440, 0x5441, 0x5444, 0x5445, 0x5450, 0x5451, 0x5454, 0x5455,
    0x5500, 0x5501, 0x5504, 0x5505, 0x5510, 0x5511, 0x5514, 0x5515,
    0x5540, 0x5541, 0x5544, 0x5545, 0x5550, 0x5551, 0x5554, 0x5555]

/-- The entries of 64 bytes from `first` on. -/
def expTabFrom (first : Nat) : List Nat :=
  (List.range 64).map fun b => (expTab (BitVec.ofNat 8 (first + b))).toNat

theorem test_expTab_first_quarter : expTabFrom 0 = expTabRows0 := by rfl

theorem test_expTab_second_quarter : expTabFrom 64 = expTabRows1 := by rfl

theorem test_expTab_third_quarter : expTabFrom 128 = expTabRows2 := by rfl

theorem test_expTab_last_quarter : expTabFrom 192 = expTabRows3 := by rfl

theorem test_combine_two_lines : combine 2 [0x1234, 0xABCD] = 0x898EA5B2 := by decide

theorem test_combine_four_lines : combine 4 [0x12, 0x34, 0x56, 0x78] = 0x0CAF8650 := by decide

theorem test_frameSamples_default_geometry :
    frameSamples Cfg.tcS [0xAAAAAAAB, 0xEAAA0000] = [(0, 98304), (1, -256)] := by decide

/-! ### The FIR functions (sections 2.6, 2.7) -/

theorem test_prescale_negative :
    [(-100 : Word), -256, -257, -1, 255, 256, 0x80000000].map prescale =
      [-1, -1, -2, -1, 0, 1, -8388608] := by decide

theorem test_firBlk_second_block :
    firBlk Cfg.tcS [11, -16] [5000, 70000, -80000, 900] =
      ([-106, -100, 1314, -490, 1440, 2924, -3664, -872], [-313, 3]) := by decide

theorem test_firBlk_saturates :
    (firBlk (Cfg.tcSat 1) [0] [0x80000000, 0x80000000]).1 =
      [-2130706432, 2147483646, -2147483646, 2147483646] := by decide

theorem test_passWords_tcMin :
    passWords Cfg.tcMin = [0x20000000, 0x21000000, 0x21100000, 0x22000000, 0x31000000, 0x32000000,
      0x40000000, 0x41000000, 0x50000000, 0x51000000, 0x51000001, 0x52000000, 0x53000000, 0x23000000,
      0x50800000, 0x51800000, 0x51800001, 0x52800000, 0x53800000, 0x23800000, 0x24000000] := by decide

/-- Ring `r` of TC-S as program P2 sets it up. -/
def setupP2 (r : Nat) : RingSetup where
  addrA := BitVec.ofNat 32 (0x1000 * (r + 1))
  addrB := BitVec.ofNat 32 (0x1000 * (r + 1) + 0x20)
  len := 8
  pace := BitVec.ofNat 4 r
  irq := r < 2

/-- The transactions of program P2, behind RESTART's STOP, then ARM (rule R130; section 3). -/
theorem test_restart_configures_every_ring :
    restartOps Cfg.tcS setupP2 =
      [(0x06000000, 0),
        (0x02000100, 0x1000), (0x02000104, 0x1020), (0x02000108, 8), (0x0200010C, 2), (0x03000000, 0),
        (0x02000120, 0x2000), (0x02000124, 0x2020), (0x02000128, 8), (0x0200012C, 0x12), (0x03100000, 0),
        (0x02000140, 0x3000), (0x02000144, 0x3020), (0x02000148, 8), (0x0200014C, 0x20), (0x03200000, 0),
        (0x04000000, 0), (0x05000000, 0)] := by decide

theorem test_restart_after_fault_begins_with_srst :
    (restartAfterFaultOps Cfg.tcS setupP2).head? = some (0x07000000, 0) := by decide

/-! ### The premise RT (rule R297) -/

theorem test_capture_entered_between_completions :
    everyCaptureEntered [.complete 0, .statEntry 7, .complete 1, .complete 0] = true := by decide

/-- A completion after which the host cleared PEND[0], so that no ENTER came, is no run under RT. -/
theorem test_capture_never_entered :
    everyCaptureEntered [.complete 0, .complete 1, .complete 0] = false := by decide

theorem test_one_reload_per_capture :
    onePerCapture 1 [.complete 1, .complete 2, .complete 0, .statExit 9, .complete 1, .complete 0] =
      true := by decide

/-- Completions that tie may come in either order (rules R146, R272 (b)): RLD 0, RLD 1, a pass, RLD 1, RLD 0,
a pass. -/
theorem test_tied_reloads_in_either_order :
    onePerCapture 1 [.statExit 9, .complete 0, .complete 1, .statExit 5, .complete 1, .complete 0] =
      true := by decide

/-- A playback ring that completes on and on with no capture completion breaks clause (c), and so does one
that does not complete while the capture ring does. -/
theorem test_reloads_out_of_step :
    onePerCapture 1 [.complete 1, .complete 1, .complete 2, .complete 1, .complete 0] = false ∧
    onePerCapture 1 [.complete 0, .complete 1, .complete 1, .complete 1] = false ∧
    onePerCapture 2 [.complete 0, .complete 1, .complete 0, .complete 0] = false := by decide

/-! ### States for the tests -/

/-- A ring of TC-S as CFG and START leave it, with bases `a` and `b`. -/
def ringUp (a b : Word) (irqen : Bool) : Ring where
  addrA := a
  addrB := b
  len := 8
  irqen := irqen
  pace := 0
  cur := a
  rem := 8
  en := true
  next := .b
  cfgd := true

/-- The rings of TC-S after the bring-up of program P2. -/
def ringsUp : List Ring :=
  [ringUp 0x1000 0x1020 true, ringUp 0x2000 0x2020 true, ringUp 0x3000 0x3020 false]

/-- TC-S, started and armed, with data registers set. -/
def up : State :=
  { State.reset with
    started := true
    armed := true
    rings := ringsUp
    base := [0x1000, 0x2000, 0x3020]
    ph := [.b, .b, .a]
    cw := 0xDEADBEEF
    lb := [0xE36B0001, 0x00000100]
    y := ⟨12, -2⟩
    acc := ⟨2130706178, -11⟩
    x := [[1000, -2000, 3000, -4000], [256, 0, 0, 0]]
    h := [[9, 8, 7, 6, 11, -16], [0, 0, 3, -8, 11, -16]] }

/-- `up` with the sequencer executing inside a pass. -/
def upSeq : State := { up with issuer := .seq, busy := true, upc := 1 }

/-- `up` with ring 0 about to move its first word. -/
def upRing0 : State := { up with issuer := .ring 0, draw := 0xDEADBEEF }

/-- Ring 0 about to move the last word of half A. -/
def ringLast : Ring := { ringUp 0x1000 0x1020 true with cur := 0x101C, rem := 1 }

/-- Ring 0 inside half B. -/
def ringInB : Ring := { ringUp 0x1000 0x1020 true with cur := 0x1024, rem := 7, next := .a }

/-- Ring 1 about to move the last word of half B. -/
def ringLastB : Ring := { ringUp 0x2000 0x2020 true with cur := 0x203C, rem := 1, next := .a }

/-- `up` with ring 0 about to move the last word of half A. -/
def lastRing0 : State := { upRing0 with rings := ringLast :: ringsUp.drop 1 }

/-- A ring written for CFG, not yet configured. -/
def ringWritten (a b : Word) (len : BitVec 16) : Ring :=
  { Ring.reset with addrA := a, addrB := b, len := len }

/-- TC-S with ring 0 written and not yet configured. -/
def written (a b : Word) (len : BitVec 16) : State :=
  { State.reset with rings := [ringWritten a b len, Ring.reset, Ring.reset] }

/-- A check on the next state, false for a stop. -/
def nextHas (r : Result) (check : State → Bool) : Bool :=
  match r with
  | .next t => check t
  | .fault _ => false
  | .refused _ => false

/-- FAULT.CODE, FAULTOP and CTRL after an operation of the host whose word is `opw`. -/
def faultOf (i : Instr) (s : State) : Option (Byte × Word × Word) :=
  match exec i { s with opw := encode i } with
  | .next t => some (t.faultCode, t.faultOp, t.ctrlWord)
  | .fault _ => none
  | .refused _ => none

/-! ### Host control (section 2.2) -/

theorem test_nop_answers : nextHas (exec .nop State.reset) (fun t => t.status = .ok) = true := by
  decide

theorem test_rdreg_rctrl_shows_dir :
    nextHas (exec (.rdreg 0x12C) State.reset) (fun t => t.rdata = 1) = true := by decide

theorem test_rdreg_unmapped_faults :
    faultOf (.rdreg 0x11C) State.reset = some (7, 0x0100011C, 8) := by decide

theorem test_wrreg_len_drops_high_bits :
    nextHas (exec (.wrreg 0x108) { State.reset with wdata := 0x00010008 })
      (fun t => (t.ringAt 0).len = 8) = true := by decide

theorem test_wrreg_rctrl_keeps_dir :
    nextHas (exec (.wrreg 0x10C) { State.reset with wdata := 0xFFFFFFFF })
      (fun t => rctrlWord 0 (t.ringAt 0) = 0xF2) = true := by decide

theorem test_cfg_installs :
    nextHas (exec (.cfg 0) (written 0x1000 0x1020 8))
      (fun t => (t.ringAt 0).cur = 0x1000 && (t.ringAt 0).rem = 8 && rstatWord (t.ringAt 0) = 6) =
      true := by decide

theorem test_cfg_checks_in_order :
    [(0x1004, 0x1004, 7), (0x1000, 0x1010, 8), (0xFFE0, 0x10000, 8), (0x1000, 0x1000, 8)].map
      (fun (abl : Word × Word × BitVec 16) =>
        faultOf (.cfg 0) (written abl.1 abl.2.1 abl.2.2)) =
      [1, 2, 3, 4].map fun code => some (code, 0x03000000, 8) := by decide

/-- `up` configured, not yet started. -/
def configured : State :=
  { up with started := false, armed := false, rings := ringsUp.map Ring.disable }

theorem test_start_enables :
    nextHas (exec .start configured)
      (fun t => t.ctrlWord = 1 && t.rings.all (fun g => rstatWord g = 7)) = true := by decide

theorem test_start_unconfigured_faults :
    faultOf .start State.reset = some (6, 0x04000000, 8) := by decide

theorem test_arm_clears_irq :
    nextHas (exec .arm { up with armed := false, irq := 3 })
      (fun t => t.ctrlWord = 3 && t.irq = 0) = true := by decide

theorem test_arm_twice_faults : faultOf .arm up = some (6, 0x05000000, 8) := by decide

theorem test_stop_keeps_next :
    nextHas (exec .stop up)
      (fun t => t.ctrlWord = 0 && t.rings.all (fun g => rstatWord g = 2)) = true := by decide

theorem test_srst_leaves_halt :
    nextHas (exec .srst { up with halt := true, faultCode := 2 })
      (fun t => t.ctrlWord = 0 && t.faultCode = 0 && t.h = List.replicate 2 (List.replicate 6 0)) =
      true := by decide

/-! ### The transfer ring (section 2.3) -/

theorem test_movi_first_word :
    nextHas (exec (.movi 0) upRing0)
      (fun t => t.wordAt 0x1000 = 0xDEADBEEF && (t.ringAt 0).cur = 0x1004 && (t.ringAt 0).rem = 7) =
      true := by decide

theorem test_movi_last_word_reloads :
    nextHas (exec (.movi 0) lastRing0)
      (fun t => (t.ringAt 0).cur = 0x1020 && (t.ringAt 0).rem = 8 && (t.ringAt 0).next = .a &&
        t.irq = 1) = true := by decide

theorem test_movo_last_word :
    nextHas (exec (.movo 1) { up with
        issuer := .ring 1
        mem := setWord [] 0x203C 0x154
        rings := ringsUp.set 1 ringLastB })
      (fun t => (t.ringAt 1).cur = 0x2000 && (t.ringAt 1).next = .b &&
        t.events = [.complete 1, .pbOut 1 0x203C 0x154]) = true := by decide

theorem test_rld_without_irqen :
    nextHas (exec (.rld 2) { up with issuer := .ring 2 })
      (fun t => t.irq = 0 && (t.ringAt 2).cur = 0x3020) = true := by decide

/-! ### The orchestrator (section 2.4) -/

theorem test_enter :
    nextHas (exec .enter { up with issuer := .seq, irq := 3, draw := 1000 })
      (fun t => t.ctrlWord = 7 && t.irq = 2 && t.upc = 1 && t.events = [.statEntry 1000]) =
      true := by decide

theorem test_probe_in_pass :
    nextHas (exec (.probe 0) { upSeq with
        rings := ringInB :: ringsUp.drop 1
        base := [0, 0, 0] })
      (fun t => t.ph = [.b, .b, .a] && t.base = [0x1000, 0, 0] && t.upc = 2) = true := by decide

theorem test_probe_by_host_of_a_stopped_ring :
    nextHas (exec (.probe 0) State.reset) (fun t => t.rdata = 0x80000000) = true := by decide

theorem test_ldw :
    nextHas (exec (.ldw 3) { upSeq with mem := setWord [] 0x100C 0x0000AAAA })
      (fun t => t.cw = 0xAAAA) = true := by decide

theorem test_stw :
    nextHas (exec (.stw .one 1 2) upSeq) (fun t => t.wordAt 0x3034 = 0xFFFFFFFE) = true := by decide

/-- The sequencer goes on after the host stopped the rings and rewrote ADDRA in a pass (rules R160, R260):
LDW at a misaligned address latches the drawn word. -/
theorem test_ldw_misaligned_goes_on :
    nextHas (exec (.ldw 0) { upSeq with base := [1, 0, 0], draw := 0x1234 })
      (fun t => t.cw = 0x1234 && t.upc = 2) = true := by decide

theorem test_stw_outside_memory_goes_on :
    [(0x2004 : Word), 0x2005].map (fun d =>
      nextHas (exec (.stw .one 1 2) { upSeq with base := [0, 0, 0x10000], draw := d })
        fun t => t.upc = 2 && t.mem.length = (if d = 0x2004 then 4 else 0)) = [true, true] := by decide

theorem test_leave :
    nextHas (exec .leave { upSeq with upc := 146, draw := 1010 })
      (fun t => t.ctrlWord = 3 && t.upc = 0 && t.events = [.statExit 1010]) = true := by decide

/-! ### The deinterleaver (section 2.5) -/

theorem test_expand :
    nextHas (exec (.expand 0xA5) State.reset) (fun t => t.rdata = 0x4411) = true := by decide

theorem test_deint_first_word :
    nextHas (exec (.deint 0) { upSeq with lb := [0x11112222, 0x33334444] })
      (fun t => t.lb = [0xE36B2222, 0xBEFF4444]) = true := by decide

theorem test_deint_second_word :
    nextHas (exec (.deint 1) { upSeq with cw := 0x12345678, lb := [0xE36B2222, 0xBEFF4444] })
      (fun t => t.lb = [0xE36B46EC, 0xBEFF1416]) = true := by decide

/-- With the words of a frame the other way round, word 0 fills the less significant field (rule R197). -/
theorem test_deint_other_concatenation :
    let c := { Cfg.tcS with wordPlace := [0, 1] }
    c.Valid ∧ nextHas (exec (.deint 0) { upSeq with cfg := c, lb := [0x11112222, 0x33334444] })
      (fun t => t.lb = [0x1111E36B, 0x3333BEFF]) = true := by decide

theorem test_asm :
    nextHas (exec (.asm 3) upSeq)
      (fun t => t.x = [[1000, -2000, 3000, -479526911], [256, 0, 0, 256]]) = true := by decide

/-! ### The FIR upsampler and the MAC pipeline (sections 2.6, 2.7) -/

theorem test_hsh :
    nextHas (exec (.hsh 0) upSeq)
      (fun t => t.h = [[11, -16, 7, 6, 11, -16], [0, 0, 3, -8, 11, -16]]) = true := by decide

theorem test_hsh_overlapping :
    shiftWindow { Cfg.tcS with taps := 8 } [1, 2, 3, 4, 5, 6, 7, 8, 9, 10, 11] =
      [5, 6, 7, 8, 9, 10, 11, 8, 9, 10, 11] := by decide

theorem test_hpu :
    nextHas (exec (.hpu 0 1) upSeq) (fun t => fileAt t.h 0 3 0 = -8) = true := by decide

theorem test_clr : nextHas (exec (.clr .zero) upSeq) (fun t => t.acc = ⟨0, -11⟩) = true := by decide

theorem test_mac :
    nextHas (exec (.mac .one 1 2 1) upSeq) (fun t => t.acc = ⟨2130706178, -43⟩) = true := by decide

theorem test_sat :
    nextHas (exec (.sat .zero) upSeq) (fun t => t.acc = ⟨1073741823, -11⟩) = true := by decide

theorem test_shl :
    nextHas (exec (.shl .zero) { upSeq with acc := ⟨1073741823, -34⟩ })
      (fun t => t.y = ⟨0x7FFFFFFE, -2⟩) = true := by decide

/-! ### The step -/

theorem test_withFetchWord_runs_a_sequencer_operation :
    nextHas (step ((State.resetWith Cfg.tcMin 0).withFetchWord 32 0x41000000)) (fun t => t.upc = 8) =
      true := by decide

theorem test_withFetchWord_runs_a_ring_operation :
    nextHas (step (State.reset.withFetchWord 32 0x10000000))
      (fun t => t.events = [.capIn 0 0]) = true := by decide

theorem test_enter_needs_the_capture_completion :
    nextHas (step ({ up with irq := 2 }.lay (.seq 0))) (fun t => t.upc = 0 && t.busy = false) =
      true := by decide

/-! ### Witnesses: for each statement with hypotheses, states and operands that meet them together -/

/-- TC-S halted by CFG_ALIGN. -/
def upHalt : State :=
  { up with
    halt := true
    started := false
    armed := false
    faultCode := 2
    faultOp := 0x03000000
    rings := ringsUp.map Ring.disable }

/-- TC-S with four lines a capture word. -/
def fourLines : Cfg := { Cfg.tcS with nlines := 4, lineBit := Cfg.defaultLineBit 4 }

/-- `up` with a capture completion pending and a pass of sequencer turns laid down. -/
def passReady : State :=
  { up with irq := 1, turns := (List.replicate 147 (7 : Word)).map Turn.seq }

/-- `up` with `t` laid down. -/
def upTurn (t : Turn) : State := up.lay t

theorem up_shaped : up.shaped := by
  unfold State.shaped
  decide

theorem up_ringsGood : up.ringsGood := by
  intro r g hg
  match r with
  | 0 =>
    obtain rfl : ringUp 0x1000 0x1020 true = g := Option.some.inj hg
    unfold Ring.descriptorsGood halfAccepted
    decide
  | 1 =>
    obtain rfl : ringUp 0x2000 0x2020 true = g := Option.some.inj hg
    unfold Ring.descriptorsGood halfAccepted
    decide
  | 2 =>
    obtain rfl : ringUp 0x3000 0x3020 false = g := Option.some.inj hg
    unfold Ring.descriptorsGood halfAccepted
    decide
  | n + 3 => cases hg

theorem up_controlGood : up.controlGood := by
  unfold State.controlGood
  decide

theorem up_dataGood : up.dataGood := by
  unfold State.dataGood
  decide

theorem up_memGood : up.memGood := by
  unfold State.memGood
  decide

theorem witness_EncodeOfDecodeIsTheWord :
    decode 0x51FFFFFF#32 = .ok (.mac .one 127 255 255) := by decide

theorem witness_DecodeFollowsTheOpcodeTable :
    0x23FFFF00#32 &&& (rowOf (.stw .zero 0 0)).mask = (rowOf (.stw .zero 0 0)).val := by decide

theorem witness_StepRunsTheFetchedOperation :
    (upTurn (.ring 2 5)).turns = .ring 2 5 :: [] ∧
    State.fetch { upTurn (.ring 2 5) with turns := [] } (.ring 2 5) = some 0x11200000#32 ∧
    decode 0x11200000#32 = .ok (.movo 2) := by decide

theorem witness_StepRunsTheFetchedOperation_idle_ring :
    (State.reset.lay (.ring 15 5)).turns = .ring 15 5 :: [] ∧
    State.fetch { State.reset.lay (.ring 15 5) with turns := [] } (.ring 15 5) = none := by decide

theorem witness_StepRunsTheFetchedOperation_idle_sequencer :
    (upTurn (.seq 5)).turns = .seq 5 :: [] ∧
    State.fetch { upTurn (.seq 5) with turns := [] } (.seq 5) = none := by decide

theorem witness_FetchFollowsEachAgent :
    lastRing0.rings[(0 : BitVec 4).toNat]? = some ringLast ∧
    (0 : BitVec 4).toNat ≤ lastRing0.cfg.nout ∧ 1 ≤ ringLast.rem.toNat ∧ upSeq.busy = true ∧
    up.busy = false ∧ up.upc = 0 := by decide

theorem witness_InvalidWordRaisesIllegalOp :
    (upTurn (.host 0x13000000 0)).turns = .host 0x13000000 0 :: [] ∧
    decode 0x13000000#32 = .error .opcodeNotAssigned := by decide

theorem witness_RaiseFaultRecordsAndHalts : up.halt = false ∧ upHalt.halt = true := by decide

theorem witness_HaltedPortOnlyAnswers :
    upHalt.issuer = .host ∧ upHalt.halt = true ∧ Instr.cfg 15 ≠ .srst ∧
    ∀ off : BitVec 12, Instr.cfg 15 ≠ .rdreg off :=
  ⟨rfl, rfl, by decide, nofun⟩

theorem witness_EngineOperationsFaultAtThePort :
    up.issuer = .host ∧ (rowOf (.hpu 127 255)).mnemonic ∈ ["MOVI", "MOVO", "RLD", "ENTER", "LDW",
      "STW", "LEAVE", "DEINT", "ASM", "HSH", "HPU", "CLR", "MAC", "SAT", "SHL"] := by decide

theorem witness_NopOnlyAnswers : up.issuer = .host ∧ up.halt = false := by decide

theorem witness_StopDisablesEveryRing : up.issuer = .host ∧ up.halt = false := by decide

theorem witness_ExpandSpreadsTheByte : up.issuer = .host ∧ up.halt = false := by decide

theorem witness_RdregAnswersTheRegister :
    up.issuer = .host ∧ up.cfg.nout ≤ 15 ∧ 2 ≤ up.cfg.nout ∧
    up.rings[2]? = some (ringUp 0x3000 0x3020 false) := by decide

theorem witness_WrregWritesTheRegister :
    configured.issuer = .host ∧ configured.halt = false ∧ configured.cfg.nout ≤ 15 ∧
    2 ≤ configured.cfg.nout ∧
    configured.rings[2]? = some (ringUp 0x3000 0x3020 false).disable ∧
    (ringUp 0x3000 0x3020 false).disable.en = false := by decide

theorem witness_BadRegisterAccessFaults_unmapped :
    up.issuer = .host ∧ up.cfg.nout ≤ 15 ∧ up.halt = false ∧
    (0x11C#12).toNat ∉ [0x000, 0x004, 0x008, 0x00C, 0x010] ∧
    ∀ r k, r ≤ up.cfg.nout → k ∈ [0x00, 0x04, 0x08, 0x0C, 0x10, 0x14, 0x18] →
      (0x11C#12).toNat ≠ 0x100 + 0x20 * r + k := by
  refine ⟨by decide, by decide, by decide, by decide, fun r k _ hk => ?_⟩
  simp only [List.mem_cons, List.not_mem_nil, or_false] at hk
  change 0x11C ≠ _
  omega

theorem witness_BadRegisterAccessFaults_registers :
    up.issuer = .host ∧ up.halt = false ∧ up.cfg.nout ≤ 15 ∧ 2 ≤ up.cfg.nout ∧
    (0x010#12).toNat ∈ [0x000, 0x008, 0x00C, 0x010] ∧
    0x18 ∈ [0x10, 0x14, 0x18] ∧ (0x158#12).toNat = 0x100 + 0x20 * 2 + 0x18 ∧
    0x0C ∈ [0x00, 0x04, 0x08, 0x0C] ∧ (0x14C#12).toNat = 0x100 + 0x20 * 2 + 0x0C ∧
    up.rings[2]? = some (ringUp 0x3000 0x3020 false) ∧
    (ringUp 0x3000 0x3020 false).en = true := by decide

/-- The half at the very top of MEM is accepted. -/
theorem witness_CfgInstallsTheDescriptors :
    let s := written 0xFFE0 0x0000 8
    let g := ringWritten 0xFFE0 0x0000 8
    s.issuer = .host ∧ s.halt = false ∧ (0 : BitVec 4).toNat ≤ s.cfg.nout ∧
    s.rings[(0 : BitVec 4).toNat]? = some g ∧ g.en = false ∧ g.len.toNat = s.cfg.capLen ∧
    g.addrA.toNat % (4 * g.len.toNat) = 0 ∧ g.addrB.toNat % (4 * g.len.toNat) = 0 ∧
    g.addrA.toNat + 4 * g.len.toNat ≤ s.cfg.memSize ∧
    g.addrB.toNat + 4 * g.len.toNat ≤ s.cfg.memSize ∧ g.addrA ≠ g.addrB := by decide

theorem witness_CfgFirstFailingCheckDecides_ring :
    up.issuer = .host ∧ up.halt = false ∧ up.cfg.nout < (3 : BitVec 4).toNat ∧
    (2 : BitVec 4).toNat ≤ up.cfg.nout ∧
    up.rings[(2 : BitVec 4).toNat]? = some (ringUp 0x3000 0x3020 false) ∧
    (ringUp 0x3000 0x3020 false).en = true := by decide

/-- A length, an alignment, a range and an overlap failure, each with the checks before it passed. -/
theorem witness_CfgFirstFailingCheckDecides_checks :
    (ringWritten 0x1004 0x1004 7).len.toNat ≠ Cfg.tcS.capLen ∧
    (ringWritten 0x1000 0x1010 8).len.toNat = Cfg.tcS.capLen ∧
    (ringWritten 0x1000 0x1010 8).addrB.toNat % 32 ≠ 0 ∧
    (ringWritten 0xFFE0 0x10000 8).addrB.toNat % 32 = 0 ∧
    Cfg.tcS.memSize < (ringWritten 0xFFE0 0x10000 8).addrB.toNat + 32 ∧
    (ringWritten 0xFFE0 0xFFE0 8).addrA.toNat + 32 ≤ Cfg.tcS.memSize ∧
    (ringWritten 0xFFE0 0xFFE0 8).addrA = (ringWritten 0xFFE0 0xFFE0 8).addrB ∧
    (written 0xFFE0 0xFFE0 8).issuer = .host ∧ (written 0xFFE0 0xFFE0 8).halt = false ∧
    (written 0xFFE0 0xFFE0 8).rings[(0 : BitVec 4).toNat]? = some (ringWritten 0xFFE0 0xFFE0 8) ∧
    (ringWritten 0xFFE0 0xFFE0 8).en = false := by decide

theorem witness_StartEnablesEveryRing :
    up.started = true ∧ State.reset.started = false ∧ (∃ g ∈ State.reset.rings, g.cfgd = false) ∧
    configured.started = false ∧ (∀ g ∈ configured.rings, g.cfgd = true) ∧
    configured.issuer = .host ∧ configured.halt = false ∧ State.reset.halt = false ∧
    State.reset.issuer = .host := by decide

theorem witness_ArmDiscardsCompletions :
    configured.started = false ∧ up.armed = true ∧ { up with armed := false }.started = true ∧
    { up with armed := false }.issuer = .host ∧ { up with armed := false }.halt = false := by decide

theorem witness_SrstGivesTheResetState :
    upHalt.issuer = .host ∧ (upTurn .reset).turns = .reset :: [] := by decide

theorem witness_HostPathReadsAndWritesWords :
    (0xFFFC : Word).toNat % 4 = 0 ∧ (0xFFFC : Word).toNat + 4 ≤ up.cfg.memSize ∧
    (upTurn (.hostRead 0xFFFC)).turns = .hostRead 0xFFFC :: [] ∧
    (upTurn (.hostWrite 0xFFFC 7)).turns = .hostWrite 0xFFFC 7 :: [] := by decide

/-- A ring with two words of half A left to move. -/
def ringTwo (a b : Word) : Ring := { ringUp a b true with cur := a + 24, rem := 2 }

theorem witness_MoviStoresTheCaptureWord :
    let g := ringTwo 0x1000 0x1020
    let s := { upRing0 with rings := [g] }
    s.issuer = .ring 0 ∧ s.rings[0]? = some g ∧ g.cur.toNat % 4 = 0 ∧
    g.cur.toNat + 4 ≤ s.cfg.memSize ∧ g.rem.toNat = 2 := by decide

theorem witness_MoviStoresTheCaptureWord_last :
    lastRing0.issuer = .ring 0 ∧ lastRing0.rings[0]? = some ringLast ∧
    ringLast.cur.toNat % 4 = 0 ∧ ringLast.cur.toNat + 4 ≤ lastRing0.cfg.memSize ∧
    ringLast.rem.toNat = 1 := by decide

theorem witness_MovoDeliversThePlaybackWord :
    let g := ringTwo 0x3000 0x3020
    let s := { up with issuer := .ring 2, rings := ringsUp.set 2 g }
    s.issuer = .ring 2 ∧ 1 ≤ (2 : BitVec 4).toNat ∧ (2 : BitVec 4).toNat ≤ s.cfg.nout ∧
    s.rings[(2 : BitVec 4).toNat]? = some g ∧ g.cur.toNat % 4 = 0 ∧
    g.cur.toNat + 4 ≤ s.cfg.memSize ∧ g.rem.toNat = 2 := by decide

theorem witness_MovoDeliversThePlaybackWord_last :
    let s := { up with issuer := .ring 1, rings := ringsUp.set 1 ringLastB }
    s.issuer = .ring 1 ∧ 1 ≤ (1 : BitVec 4).toNat ∧ (1 : BitVec 4).toNat ≤ s.cfg.nout ∧
    s.rings[(1 : BitVec 4).toNat]? = some ringLastB ∧ ringLastB.cur.toNat % 4 = 0 ∧
    ringLastB.cur.toNat + 4 ≤ s.cfg.memSize ∧ ringLastB.rem.toNat = 1 := by decide

theorem witness_RldReloadsTheDescriptor :
    let s := { up with issuer := .ring 2 }
    s.issuer = .ring 2 ∧ (2 : BitVec 4).toNat ≤ s.cfg.nout ∧
    s.rings[(2 : BitVec 4).toNat]? = some (ringUp 0x3000 0x3020 false) := by decide

theorem witness_EnterTakesTheCompletion : { up with issuer := .seq }.issuer = .seq := by decide

theorem witness_LeaveReturnsToIdle : upSeq.issuer = .seq := by decide

theorem witness_ClrClearsTheAccumulator : upSeq.issuer = .seq := by decide

theorem witness_ProbeSelectsTheIdleHalf :
    let a := ringUp 0x2000 0x2020 true
    let b := { ringInB with cur := 0x1020, rem := 8 }
    let s := { upSeq with rings := [b, a, a.disable] }
    s.issuer = .seq ∧ (2 : BitVec 4).toNat ≤ s.cfg.nout ∧
    s.rings[(1 : BitVec 4).toNat]? = some a ∧ a.en = true ∧ a.addrA.toNat ≤ a.cur.toNat ∧
    a.cur.toNat < a.addrA.toNat + 4 * a.len.toNat ∧
    s.rings[(0 : BitVec 4).toNat]? = some b ∧ b.en = true ∧
    ¬(b.addrA.toNat ≤ b.cur.toNat ∧
      b.cur.toNat < b.addrA.toNat + 4 * b.len.toNat) ∧
    b.addrB.toNat ≤ b.cur.toNat ∧
    b.cur.toNat < b.addrB.toNat + 4 * b.len.toNat ∧
    s.rings[(2 : BitVec 4).toNat]? = some a.disable ∧ a.disable.en = false := by decide

theorem witness_ProbeAnswersTheHost :
    let a := ringUp 0x2000 0x2020 true
    let s := { up with rings := [ringInB, a, a.disable] }
    s.issuer = .host ∧ s.halt = false ∧ s.cfg.nout < (3 : BitVec 4).toNat ∧
    (2 : BitVec 4).toNat ≤ s.cfg.nout ∧ s.rings[(1 : BitVec 4).toNat]? = some a ∧
    s.rings[(0 : BitVec 4).toNat]? = some ringInB ∧
    s.rings[(2 : BitVec 4).toNat]? = some a.disable := by decide

/-- An access inside MEM, a misaligned one, and one just past the end of MEM. -/
theorem witness_LdwLatchesTheCaptureWord_excluded :
    let s := { upSeq with base := [0x1001, 0, 0] }
    let t := { upSeq with base := [0xFFF0, 0, 0] }
    s.issuer = .seq ∧ (0 : BitVec 16).toNat < s.cfg.capLen ∧ s.base[0]? = some 0x1001#32 ∧
    ((0x1001#32).toNat + 4 * (0 : BitVec 16).toNat) % 4 ≠ 0 ∧
    t.issuer = .seq ∧ (4 : BitVec 16).toNat < t.cfg.capLen ∧ t.base[0]? = some 0xFFF0#32 ∧
    ((0xFFF0#32).toNat + 4 * (4 : BitVec 16).toNat) % 4 = 0 ∧
    t.cfg.memSize < (0xFFF0#32).toNat + 4 * (4 : BitVec 16).toNat + 4 := by decide

theorem witness_LdwLatchesTheCaptureWord :
    upSeq.issuer = .seq ∧ (7 : BitVec 16).toNat < upSeq.cfg.capLen ∧
    upSeq.base[0]? = some 0x1000#32 ∧ ((0x1000#32).toNat + 4 * (7 : BitVec 16).toNat) % 4 = 0 ∧
    (0x1000#32).toNat + 4 * (7 : BitVec 16).toNat + 4 ≤ upSeq.cfg.memSize := by decide

theorem witness_StwPlacesTheOutputSample :
    upSeq.issuer = .seq ∧ (1 : BitVec 7).toNat < upSeq.cfg.channels ∧
    (3 : BitVec 8).toNat < upSeq.cfg.frames ∧
    upSeq.cfg.outMap[(1 : BitVec 7).toNat]? = some (1, 0) ∧
    upSeq.base[1 + 1]? = some 0x3020#32 ∧
    ((0x3020#32).toNat + 4 * ((2 * 3 + 1) * upSeq.cfg.ocpl + 0)) % 4 = 0 ∧
    (0x3020#32).toNat + 4 * ((2 * 3 + 1) * upSeq.cfg.ocpl + 0) + 4 ≤ upSeq.cfg.memSize := by decide

/-- A store past the end of MEM, with a draw that names the last word of MEM and with one that names none. -/
theorem witness_StwPlacesTheOutputSample_excluded :
    let s := { upSeq with base := [0, 0, 0x10000], draw := 0xFFFC }
    let t := { s with draw := 0xFFFD }
    s.issuer = .seq ∧ (1 : BitVec 7).toNat < s.cfg.channels ∧ (0 : BitVec 8).toNat < s.cfg.frames ∧
    s.cfg.outMap[(1 : BitVec 7).toNat]? = some (1, 0) ∧ s.base[1 + 1]? = some 0x10000#32 ∧
    s.cfg.memSize < (0x10000#32).toNat + 4 * ((2 * 0 + 0) * s.cfg.ocpl + 0) + 4 ∧
    s.draw.toNat % 4 = 0 ∧ s.draw.toNat + 4 ≤ s.cfg.memSize ∧ t.draw.toNat % 4 ≠ 0 := by decide

theorem witness_DeintFillsTheLineBuffers :
    upSeq.issuer = .seq ∧ (1 : BitVec 16).toNat < upSeq.cfg.wpf ∧
    upSeq.lb[1]? = some 0x00000100 ∧
    upSeq.cfg.wordPlace = Cfg.defaultWordPlace upSeq.cfg.wpf := by decide

theorem witness_AsmWritesTheSamples :
    upSeq.issuer = .seq ∧ upSeq.cfg.Valid ∧ upSeq.shaped ∧
    (3 : BitVec 16).toNat < upSeq.cfg.frames :=
  ⟨rfl, test_tcS_valid, up_shaped, by decide⟩

theorem witness_LineStreamsInvertCombine :
    (fourLines.nlines = 4 ∧ fourLines.lineBit = Cfg.defaultLineBit fourLines.nlines ∧
      [255, 0, 1, 128].length = fourLines.nlines ∧ ∀ v ∈ [255, 0, 1, 128], v < 2 ^ fourLines.bpl) ∧
    (Cfg.tcS.nlines = 2 ∧ Cfg.tcS.lineBit = Cfg.defaultLineBit Cfg.tcS.nlines) ∧
    Cfg.tcMin.nlines = 1 ∧ Cfg.tcMin.lineBit = Cfg.defaultLineBit Cfg.tcMin.nlines := by decide

theorem witness_HshShiftsFromASnapshot :
    upSeq.issuer = .seq ∧ (1 : BitVec 7).toNat < upSeq.cfg.channels ∧
    upSeq.h[(1 : BitVec 7).toNat]? = some [0, 0, 3, -8, 11, -16] ∧
    ([0, 0, 3, -8, 11, -16] : List Int).length = upSeq.cfg.taps - 1 + upSeq.cfg.frames := by decide

theorem witness_HpuPushesThePrescaledSample :
    upSeq.issuer = .seq ∧ (1 : BitVec 7).toNat < upSeq.cfg.channels ∧
    (3 : BitVec 8).toNat < upSeq.cfg.frames ∧
    upSeq.h[(1 : BitVec 7).toNat]? = some [0, 0, 3, -8, 11, -16] ∧
    upSeq.x[(1 : BitVec 7).toNat]? = some [256#32, 0, 0, 0] ∧
    [256#32, 0, 0, 0][(3 : BitVec 8).toNat]? = some 0#32 := by decide

theorem witness_ChunkedFilteringIsSeamless : ([0, 0] : List Int).length = Cfg.tcS.taps - 1 := by
  decide

theorem witness_ImpulseReproducesTheKernels : Cfg.tcS.Valid ∧ (3 : Nat) < 3 + 1 + 0 :=
  ⟨test_tcS_valid, by decide⟩

theorem witness_SaturationGivesTheBoundary :
    (Cfg.tcSat 3).Valid ∧ ([0] : List Int).length = (Cfg.tcSat 3).taps - 1 ∧
    1 < [0x80000000#32, 0x80000000#32].length :=
  ⟨test_tcSat_valid, by decide, by decide⟩

/-- Sums above, below and inside the clamp range of TC-SAT with OUT_SHIFT 3. -/
theorem witness_SaturationGivesTheBoundary_clauses :
    let c := Cfg.tcSat 3
    let acc := fun (p : Phase) (w : List Int) (m : Nat) =>
      ((List.range c.taps).map fun j => c.coeff p j * w.getD (c.taps - 1 + m - j) 0).sum
    let w := [0] ++ [0x80000000#32, 0x80000000#32].map fun x => x.toInt / 256
    c.clampHi < acc .one w 1 ∧ acc .zero w 1 < c.clampLo ∧
    c.clampLo ≤ acc .zero [0, 0] 0 ∧ acc .zero [0, 0] 0 ≤ c.clampHi := by decide

theorem witness_MacAccumulatesExactly :
    upSeq.issuer = .seq ∧ (1 : BitVec 7).toNat < upSeq.cfg.channels ∧
    (3 : BitVec 8).toNat < upSeq.cfg.frames ∧ (2 : BitVec 8).toNat < upSeq.cfg.taps ∧
    upSeq.h[(1 : BitVec 7).toNat]? = some [0, 0, 3, -8, 11, -16] ∧
    ([0, 0, 3, -8, 11, -16] : List Int)[upSeq.cfg.taps - 1 + 3 - 2]? = some (-8) ∧
    upSeq.cfg.k0[(2 : BitVec 8).toNat]? = some (-1) ∧
    upSeq.cfg.k1[(2 : BitVec 8).toNat]? = some 3 := by decide

theorem witness_SatClampsTheAccumulator :
    upSeq.issuer = .seq ∧ upSeq.cfg.clampLo ≤ upSeq.cfg.clampHi := by decide

theorem witness_ShlRestoresTheScale :
    let s := { upSeq with acc := ⟨1073741823, -1073741823⟩ }
    s.issuer = .seq ∧ s.cfg.Valid ∧ s.cfg.clampLo ≤ s.acc.get .one ∧
    s.acc.get .zero ≤ s.cfg.clampHi ∧ s.cfg.clampLo ≤ s.acc.get .zero ∧
    s.acc.get .one ≤ s.cfg.clampHi :=
  ⟨rfl, test_tcS_valid, by decide, by decide, by decide, by decide⟩

theorem witness_EveryStepKeepsTheShape :
    (upTurn (.ring 0 5)).shaped ∧ ∃ t, step (upTurn (.ring 0 5)) = .next t := ⟨up_shaped, _, rfl⟩

theorem witness_EveryStepKeepsTheRingsGood :
    (upTurn (.ring 0 5)).cfg.Valid ∧ (upTurn (.ring 0 5)).ringsGood ∧
    ∃ t, step (upTurn (.ring 0 5)) = .next t := ⟨test_tcS_valid, up_ringsGood, _, rfl⟩

theorem witness_EveryStepKeepsTheControlGood :
    passReady.cfg.Valid ∧ passReady.controlGood ∧ ∃ t, step passReady = .next t :=
  ⟨test_tcS_valid, up_controlGood, _, rfl⟩

theorem witness_EveryStepKeepsTheDataGood :
    (upTurn (.ring 0 5)).cfg.Valid ∧ (upTurn (.ring 0 5)).dataGood ∧
    ∃ t, step (upTurn (.ring 0 5)) = .next t := ⟨test_tcS_valid, up_dataGood, _, rfl⟩

theorem witness_EveryStepKeepsTheMemoryGood :
    (upTurn (.ring 0 5)).memGood ∧ ∃ t, step (upTurn (.ring 0 5)) = .next t :=
  ⟨up_memGood, _, rfl⟩

theorem witness_EveryResetStateIsGood : Cfg.tcMin.Valid := test_tcMin_valid

theorem witness_AccessesOutsideMemStop_rings :
    let low := { ringUp 0x1000 0x1020 true with cur := 0x1002 }
    let high := { ringUp 0x1000 0x1020 true with cur := 0x10000 }
    let s := { up with issuer := .ring 0, rings := [low] }
    let t := { up with issuer := .ring 2, rings := [low, low, high] }
    s.issuer = .ring 0 ∧ s.rings[0]? = some low ∧ low.cur.toNat % 4 ≠ 0 ∧
    t.issuer = .ring 2 ∧ 1 ≤ (2 : BitVec 4).toNat ∧ (2 : BitVec 4).toNat ≤ t.cfg.nout ∧
    t.rings[(2 : BitVec 4).toNat]? = some high ∧ high.cur.toNat % 4 = 0 ∧
    t.cfg.memSize < high.cur.toNat + 4 := by decide

theorem witness_AccessesOutsideMemStop_host :
    (upTurn (.hostRead 0xFFFE)).turns = .hostRead 0xFFFE :: [] ∧ (0xFFFE : Word).toNat % 4 ≠ 0 ∧
    (upTurn (.hostWrite 0x10000 1)).turns = .hostWrite 0x10000 1 :: [] ∧
    (0x10000 : Word).toNat % 4 = 0 ∧ up.cfg.memSize < (0x10000 : Word).toNat + 4 := by decide

theorem witness_OperationsNeverFormedAreRefused :
    upSeq.issuer = .seq ∧ (rowOf .stop).mnemonic ∉ ["ENTER", "PROBE", "LDW", "STW", "LEAVE", "DEINT",
      "ASM", "HSH", "HPU", "CLR", "MAC", "SAT", "SHL"] ∧
    upRing0.issuer = .ring 0 ∧ Instr.rld 1 ≠ .movi 0 ∧ Instr.rld 1 ≠ .movo 0 ∧
    Instr.rld 1 ≠ .rld 0 ∧ upRing0.issuer ≠ .host ∧
    (Instr.hpu 0 4).wellFormed upRing0.cfg = false := by decide

theorem witness_NoStepIsRefused : (upTurn (.seq 5)).cfg.Valid := test_tcS_valid

theorem witness_MicroProgramHasPlenOperations : 1 ≤ Cfg.tcMin.taps := by decide

theorem witness_MicroProgramIsLegal :
    Cfg.tcMin.Valid ∧ Instr.hpu 0 0 ∈ passProg Cfg.tcMin := ⟨test_tcMin_valid, by decide⟩

/-- A sequencer in a pass whose bases no CFG accepted. -/
theorem witness_RingAndSequencerStepsAlwaysComplete_sequencer :
    let s := { upSeq with base := [1, 1, 1], upc := 4, turns := [.seq 5] }
    s.cfg.Valid ∧ ∃ d, s.takeTurn.1 = .seq d :=
  ⟨test_tcS_valid, 5, rfl⟩

theorem witness_RingAndSequencerStepsAlwaysComplete :
    (upTurn (.ring 2 5)).cfg.Valid ∧ (upTurn (.ring 2 5)).ringsGood ∧
    (upTurn (.ring 2 5)).takeTurn.1 = .ring 2 5 :=
  ⟨test_tcS_valid, up_ringsGood, rfl⟩

theorem witness_FaultRecordIsTheHostsUntilReset :
    (∃ t, step (upHalt.lay (.host 0x05000000 0)) = .next t) ∧ upHalt.halt = true ∧
    (upHalt.lay (.host 0x05000000 0)).takeTurn.1 ≠ .reset ∧
    ∀ opw wdata, (upHalt.lay (.host 0x05000000 0)).takeTurn.1 = .host opw wdata →
      decode opw ≠ .ok .srst := by
  refine ⟨⟨_, rfl⟩, rfl, nofun, fun opw wdata h => ?_⟩
  cases h
  decide

theorem witness_FaultRecordIsTheHostsUntilReset_engine :
    (∃ t, step (upTurn (.ring 1 5)) = .next t) ∧ (upTurn (.ring 1 5)).takeTurn.1 ≠ .reset ∧
    ∀ opw wdata, (upTurn (.ring 1 5)).takeTurn.1 ≠ .host opw wdata :=
  ⟨⟨_, rfl⟩, nofun, nofun⟩

theorem witness_OnlyAPassWritesAudioState :
    (∃ t, step (passReady) = .next t) ∧ passReady.takeTurn.1 ≠ .reset ∧
    (∀ opw wdata, passReady.takeTurn.1 = .host opw wdata → decode opw ≠ .ok .srst) ∧
    passReady.busy = false ∧ passReady.controlGood :=
  ⟨⟨_, rfl⟩, nofun, nofun, rfl, up_controlGood⟩

theorem witness_OnlyAPassWritesAudioState_ring :
    (∃ t, step (upTurn (.ring 0 5)) = .next t) ∧ (upTurn (.ring 0 5)).takeTurn.1 ≠ .reset ∧
    ∀ d, (upTurn (.ring 0 5)).takeTurn.1 ≠ .seq d :=
  ⟨⟨_, rfl⟩, nofun, nofun⟩

theorem witness_CompletionsAlternateTheHalves :
    upRing0.cfg.Valid ∧ upRing0.ringsGood ∧ upRing0.issuer = .ring 0 ∧
    upRing0.rings[(0 : BitVec 4).toNat]? = some (ringUp 0x1000 0x1020 true) ∧
    (ringUp 0x1000 0x1020 true).en = true ∧ ∃ t, exec (.movi 0) upRing0 = .next t :=
  ⟨test_tcS_valid, up_ringsGood, rfl, rfl, rfl, _, rfl⟩

theorem witness_ChannelOperationsComputeFirBlk :
    upSeq.issuer = .seq ∧ upSeq.cfg.Valid ∧ upSeq.shaped ∧ 1 < upSeq.cfg.channels ∧
    upSeq.h[1]? = some [0, 0, 3, -8, 11, -16] ∧ upSeq.x[1]? = some [256#32, 0, 0, 0] ∧
    upSeq.cfg.outMap[1]? = some (1, 0) ∧ upSeq.base[1 + 1]? = some 0x3020#32 ∧
    (0x3020#32).toNat % 4 = 0 ∧ (0x3020#32).toNat + 4 * upSeq.cfg.pbLen ≤ upSeq.cfg.memSize :=
  ⟨rfl, test_tcS_valid, up_shaped, by decide, rfl, rfl, rfl, rfl, by decide, by decide⟩

theorem up_enabled : ∀ g ∈ up.rings, g.en = true := by decide

theorem tcS_plen : 147 = Cfg.tcS.plen := by decide

theorem witness_PassCompletesInPlenSteps :
    passReady.cfg.Valid ∧ passReady.shaped ∧ passReady.ringsGood ∧
    (∀ g ∈ passReady.rings, g.en = true) ∧ passReady.busy = false ∧ passReady.upc = 0 ∧
    passReady.armed = true ∧ passReady.irq.getLsbD 0 = true ∧
    (List.replicate 147 (7 : Word)).length = passReady.cfg.plen ∧
    passReady.turns = (List.replicate 147 (7 : Word)).map Turn.seq :=
  ⟨test_tcS_valid, up_shaped, up_ringsGood, up_enabled, rfl, rfl, rfl, by decide,
    List.length_replicate.trans tcS_plen, rfl⟩

/-! ### A stretch of a run that meets the premise RT (rule R297): the last capture word of half A arrives, and
the sequencer enters -/

/-- The state a step leads to. -/
def after (s : State) : State :=
  match step s with
  | .next t => t
  | .fault _ => s
  | .refused _ => s

def rtStart : State := { lastRing0 with turns := [.ring 0 5, .seq 7] }

/-- The half-blocks of TC-S as program P2 places them are pairwise disjoint. -/
theorem buffersDisjoint_of_bases {s : State} (hn : s.cfg.nout = 2)
    (h : ∀ r, r ≤ 2 → ∀ half : Half, (s.ringAt r).len = 8 ∧
      ((s.ringAt r).baseOf half).toNat = 0x1000 * (r + 1) + match half with | .a => 0 | .b => 32) :
    s.buffersDisjoint := by
  intro r q half other hr hq hne x
  rw [hn] at hr hq
  obtain ⟨hl, hb⟩ := h r hr half
  obtain ⟨kl, kb⟩ := h q hq other
  simp only [Ring.holds, hl, hb, kl, kb]
  rcases half <;> rcases other <;> simp at hne ⊢ <;> omega

theorem rt_recorded :
    recorded [rtStart, after rtStart, after (after rtStart)] =
      [.statEntry 7, .complete 0, .capIn 0x101C 5] := by decide

theorem rt_not_in_pass (s : State) (hs : s = rtStart ∨ s = after rtStart) (r : Nat) :
    ¬s.probed r := by
  rintro ⟨h, -⟩
  rcases hs with rfl | rfl <;> exact absurd h (by decide)

theorem rt_first_step : RTStep rtStart (after rtStart) := by
  refine ⟨rfl, fun _ => by decide, fun r _ _ => rt_not_in_pass _ (.inl rfl) r.toNat, ?_, ?_⟩
  · intro _ a v h
    cases h
  · exact ⟨rfl, rfl, nofun, nofun⟩

theorem rt_second_step : RTStep (after rtStart) (after (after rtStart)) := by
  refine ⟨rfl, fun h => absurd h.1 (by decide), fun r _ _ => rt_not_in_pass _ (.inr rfl) r.toNat, ?_, ?_⟩
  · intro _ a v h
    cases h
  · exact ⟨rfl, rfl, nofun, nofun⟩

theorem rt_buffersDisjoint :
    ∀ s ∈ [rtStart, after rtStart, after (after rtStart)], s.buffersDisjoint := by
  intro s hs
  simp only [List.mem_cons, List.not_mem_nil, or_false] at hs
  rcases hs with rfl | rfl | rfl <;> refine buffersDisjoint_of_bases rfl ?_ <;> intro r hr half <;>
    interval_cases r <;> cases half <;> decide

theorem rt_oneReloadPerCapture :
    oneReloadPerCapture [rtStart, after rtStart, after (after rtStart)] := by
  intro s _ r _ _
  rw [rt_recorded]
  by_cases h : r = 0 <;> simp [onePerCapture, pairedOff, h]

theorem rt_holds : RT [rtStart, after rtStart, after (after rtStart)] := by
  refine ⟨.cons_cons rt_first_step (.cons_cons rt_second_step (.singleton _)), by decide,
    rt_oneReloadPerCapture, ?_, rt_buffersDisjoint⟩
  refine .cons ?_ (.cons ?_ (List.pairwise_singleton _ _))
  · exact fun t _ r _ h => absurd h (rt_not_in_pass _ (.inl rfl) _)
  · exact fun t _ r _ h => absurd h (rt_not_in_pass _ (.inr rfl) _)

/-- A HostWrite into a half-block after START breaks clause (d). -/
theorem rt_host_write_breaks : ¬(upTurn (.hostWrite 0x1020 1)).noBufferWrite := fun h =>
  h rfl 0x1020 1 rfl 0 .b 0x1020 (by decide) (by decide) (by decide) ⟨by decide, by decide⟩

/-! ### Ownership and overrun (rule R72) -/

/-- Ring 0 is in half A: a word of half B is owned, one of half A is not. -/
theorem test_loadOwned :
    loadOwned 7 { upSeq with base := [0x1020, 0, 0] } ∧
    ¬loadOwned 7 { upSeq with base := [0x1000, 0, 0] } := by
  constructor
  · refine ⟨.a, rfl, by decide, ?_⟩
    unfold Ring.holds
    decide
  · rintro ⟨half, h, _, ho⟩
    obtain rfl : Half.a = half := Option.some.inj h
    revert ho
    unfold Ring.holds
    decide

/-- A store whose address is misaligned in the idle half and whose drawn place lies in the active half breaks
ownership; one whose drawn place lies in the idle half does not. -/
theorem test_storeOwned_judges_the_place_written :
    ¬storeOwned .zero 1 0 { upSeq with base := [0, 0, 0x3021], draw := 0x3000 } ∧
    storeOwned .zero 1 0 { upSeq with base := [0, 0, 0x3021], draw := 0x3024 } := by
  constructor
  · rintro ⟨half, a, h, ha, ho⟩
    obtain rfl : Half.a = half := Option.some.inj h
    obtain rfl : 0x3000 = a := Option.some.inj ha
    revert ho
    unfold Ring.holds
    decide
  · refine ⟨.a, 0x3024, rfl, by decide, ?_⟩
    unfold Ring.holds
    decide

/-- Ring 0 completes half A while the pass that probed it has words to load. -/
def overrunStart : State :=
  { lastRing0 with busy := true, upc := 4, turns := [.ring 0 5] }

theorem test_overrun : overrun [overrunStart, after overrunStart] := by
  refine ⟨.cons_cons rfl (.singleton _), _, List.mem_singleton.2 rfl, 0, by decide, ?_, ?_, ?_⟩
  · unfold completesIn
    decide
  · unfold State.probed
    decide
  · exact ⟨.ldw 7, by decide, .inl ⟨rfl, _, rfl⟩⟩

/-- A pass whose next operation loads word 0 from the half ring 0 is not in. -/
def ownedStart : State :=
  { upSeq with base := [0x1020, 0x2020, 0x3020], upc := 4, turns := [.seq 9] }

theorem test_respectsOwnership : respectsOwnership [ownedStart, after ownedStart] := by
  have hn : ownedStart.seqNext =
      some (.ldw 0, { ownedStart with issuer := .seq, draw := 9, turns := [] }) := rfl
  refine .cons_cons ⟨rfl, ?_, ?_⟩ (.singleton _)
  · intro k u h
    rw [hn] at h
    cases h
    refine ⟨.a, rfl, by decide, ?_⟩
    unfold Ring.holds
    decide
  · intro p ch m u h
    rw [hn] at h
    cases h

/-- Lockstep holds between two passes with one completion of every ring between, and not without them. -/
theorem test_lockstep :
    let s := { upSeq with upc := 10, events := [.statEntry 1] }
    let t := { s with
      events := [.statEntry 3, .complete 2, .complete 0, .complete 1, .statExit 2, .statEntry 1] }
    let u := { s with events := [.statEntry 3, .complete 0, .complete 1, .statExit 2, .statEntry 1] }
    lockstep s t ∧ ¬lockstep s u := by
  unfold lockstep State.probed
  decide

end Sys2Proof.Tests
end

/-! SUPPORT. What a laid-down turn runs, where an access to MEM stops, and the statements of the family
00_scope.md. -/

namespace Sys2Proof.Machine

/-! ### A laid-down turn -/

/-- A step takes the choice that is laid down next (rule R70; log 1). -/
theorem step_of_turns {s : State} {tn : Turn} {rest : List Turn} (h : s.turns = tn :: rest) :
    step s = runTurn tn { s with turns := rest } := by
  rw [step, takeTurn_of_turns h]

theorem runWord_of_decode {w : Word} {i : Instr} (s : State) (h : decode w = .ok i) :
    runWord w s = exec i s := by
  simp [runWord, h]

/-- The turn of an agent with an enabled step runs the word it fetches (rules R13, R91). -/
theorem runTurn_of_fetch {s : State} {tn : Turn} {w : Word} (h : s.fetch tn = some w) :
    runTurn tn s = runWord w (s.present tn) := by
  cases tn with
  | host opw wdata =>
    obtain rfl : opw = w := Option.some.inj h
    rfl
  | ring r d => simp [runTurn, h]
  | seq d => simp [runTurn, h]
  | hostRead a => cases h
  | hostWrite a v => cases h
  | reset => cases h

/-- A ring engine with no enabled step stutters (log 1). -/
theorem runTurn_ring_idle {s : State} {r : BitVec 4} {w : Word} (h : s.fetch (.ring r w) = none) :
    runTurn (.ring r w) s = .next s := by
  simp [runTurn, h]

/-- A sequencer with no enabled step stutters (log 1). -/
theorem runTurn_seq_idle {s : State} {d : Word} (h : s.fetch (.seq d) = none) :
    runTurn (.seq d) s = .next s := by
  simp [runTurn, h]

/-! ### Accesses that MemRead and MemWrite exclude -/

theorem accessStop_misaligned (c : Cfg) {a : Nat} (ha : a % 4 ≠ 0) :
    accessStop c a = some .misalignedAccess := by
  simp [accessStop, ha]

theorem accessStop_outside {c : Cfg} {a : Nat} (ha : a % 4 = 0) (hm : c.memSize < a + 4) :
    accessStop c a = some .addressOutsideMemory := by
  simp [accessStop, ha, hm]

theorem orStop_memRead_excluded {s : State} {a : Nat} {f : Fault} (k : Word → State)
    (h : accessStop s.cfg a = some f) : orStop (s.memRead a) k = .fault f := by
  simp [orStop, State.memRead, h]

theorem orStop_memWrite_excluded {s : State} {a : Nat} {v : Word} {f : Fault} (k : State → State)
    (h : accessStop s.cfg a = some f) : orStop (s.memWrite a v) k = .fault f := by
  simp [orStop, State.memWrite, h]

theorem hostRead_excluded {s : State} {a : Word} {f : Fault} (h : accessStop s.cfg a.toNat = some f) :
    hostRead a s = .fault f :=
  orStop_memRead_excluded _ h

theorem hostWrite_excluded {s : State} {a v : Word} {f : Fault}
    (h : accessStop s.cfg a.toNat = some f) : hostWrite a v s = .fault f :=
  orStop_memWrite_excluded _ h

/-- An answer that stops as `accessStop` says stops by name, the misaligned address first (log 7). -/
theorem stops_by_name {c : Cfg} {a : Nat} {res : Result}
    (h : ∀ f, accessStop c a = some f → res = .fault f) :
    (a % 4 ≠ 0 → res = .fault .misalignedAccess) ∧
    (a % 4 = 0 → c.memSize < a + 4 → res = .fault .addressOutsideMemory) :=
  ⟨fun ha => h _ (accessStop_misaligned c ha), fun ha hm => h _ (accessStop_outside ha hm)⟩

/-! ### The moves of a ring engine -/

/-- MOVI of the capture ring's engine, as the one access it is (rule R141). -/
theorem exec_movi_ring {s : State} {g : Ring} (hi : s.issuer = .ring 0) (hg : s.rings[0]? = some g) :
    exec (.movi 0) s =
      orStop (s.memWrite g.cur.toNat s.draw) fun t => finishMove 0 (t.emit (.capIn g.cur s.draw)) := by
  have hr : s.ringAt (0 : BitVec 4).toNat = g := ringAt_of_getElem? hg
  change execMovi 0 s = _
  rw [execMovi, ringOp_run _ hi (by decide), hr]

/-- MOVO of a playback ring's engine, as the one access it is (rule R142). -/
theorem exec_movo_ring {s : State} {r : BitVec 4} {g : Ring} (hi : s.issuer = .ring r)
    (h1 : 1 ≤ r.toNat) (hn : r.toNat ≤ s.cfg.nout) (hg : s.rings[r.toNat]? = some g) :
    exec (.movo r) s =
      orStop (s.memRead g.cur.toNat) fun w => finishMove r (s.emit (.pbOut r g.cur w)) := by
  have hl : playbackLegal s.cfg r = true := by simp [playbackLegal, h1, hn]
  change execMovo r s = _
  rw [execMovo, ringOp_run _ hi hl, ringAt_of_getElem? hg]

/-! ### The statements -/

/-- Settles O5: a laid-down turn is the one that runs, and what runs is what its agent fetches. -/
theorem stepRunsTheFetchedOperation : Obligations.StepRunsTheFetchedOperation := by
  refine ⟨fun s tn rest w i ht hf hd => ?_, fun s r w rest ht hf => ?_, fun s d rest ht hf => ?_⟩
  · rw [step_of_turns ht, runTurn_of_fetch hf, runWord_of_decode _ hd]
  · rw [step_of_turns ht, runTurn_ring_idle hf]
  · rw [step_of_turns ht, runTurn_seq_idle hf]

/-- Settles O50: each of the four is one access to MEM, which stops as `accessStop` says. -/
theorem accessesOutsideMemStop : Obligations.AccessesOutsideMemStop := by
  intro s stops
  refine ⟨fun g hi hg => ?movi, fun r g hi h1 hn hg => ?movo, fun a rest ht => ?hostRead,
    fun a v rest ht => ?hostWrite⟩
  case movi =>
    refine stops_by_name fun f hf => ?_
    rw [exec_movi_ring hi hg, orStop_memWrite_excluded _ hf]
  case movo =>
    refine stops_by_name fun f hf => ?_
    rw [exec_movo_ring hi h1 hn hg, orStop_memRead_excluded _ hf]
  case hostRead =>
    refine stops_by_name fun f hf => ?_
    rw [step_of_turns ht]
    exact hostRead_excluded hf
  case hostWrite =>
    refine stops_by_name fun f hf => ?_
    rw [step_of_turns ht]
    exact hostWrite_excluded hf

end Sys2Proof.Machine

/-! SUPPORT. The statements of the family 10_state.md and what they rest on: what a valid configuration
bounds, what PASSPROG holds where, what each operation keeps, a whole pass, and the register map. -/

namespace Sys2Proof

/-! ### What a valid configuration bounds (rule R7) -/

section
variable {c : Cfg}

theorem Cfg.Valid.frames_pos (h : c.Valid) : 1 ≤ c.frames := by
  obtain ⟨⟨hf, -⟩, -⟩ := h
  exact hf

theorem Cfg.Valid.frames_le (h : c.Valid) : c.frames ≤ 255 := by
  obtain ⟨⟨-, hf⟩, -⟩ := h
  exact hf

theorem Cfg.Valid.wpf_pos (h : c.Valid) : 1 ≤ c.wpf := by
  obtain ⟨-, -, ⟨hw, -⟩, -⟩ := h
  exact hw

theorem Cfg.Valid.capLen_le (h : c.Valid) : c.capLen ≤ 65535 := by
  obtain ⟨-, -, ⟨-, hw⟩, -⟩ := h
  exact hw

theorem Cfg.Valid.channels_le (h : c.Valid) : c.channels ≤ 128 := by
  obtain ⟨-, -, -, -, -, hc, -⟩ := h
  exact hc

theorem Cfg.Valid.nout_le (h : c.Valid) : c.nout ≤ 15 := by
  obtain ⟨-, -, -, -, -, -, ⟨-, hn, -⟩, -⟩ := h
  exact hn

theorem Cfg.Valid.ocpl_pos (h : c.Valid) : 1 ≤ c.ocpl := by
  obtain ⟨-, -, -, -, -, -, -, ⟨ho, -⟩, -⟩ := h
  exact ho

theorem Cfg.Valid.taps_le (h : c.Valid) : c.taps ≤ 256 := by
  obtain ⟨-, -, -, -, -, -, -, -, ⟨-, ht⟩, -⟩ := h
  exact ht

theorem Cfg.Valid.memSize_le (h : c.Valid) : c.memSize ≤ 2 ^ 32 := by
  obtain ⟨-, -, -, -, -, -, -, -, -, -, -, -, -, -, -, -, -, -, -, hm⟩ := h
  exact hm

/-- A half-block holds a word at least (rule R8). -/
theorem Cfg.Valid.ringLen_pos (h : c.Valid) (r : Nat) : 1 ≤ c.ringLen r := by
  have hf := h.frames_pos
  unfold Cfg.ringLen
  split
  · exact Nat.mul_pos hf h.wpf_pos
  · exact Nat.mul_pos (by omega) h.ocpl_pos

theorem Cfg.Valid.wpf_le (h : c.Valid) : c.wpf ≤ 65535 :=
  (Nat.le_mul_of_pos_left c.wpf h.frames_pos).trans h.capLen_le

/-- UPC's 32 bits hold every index of the micro-program (rule R27). -/
theorem Cfg.Valid.plen_lt (h : c.Valid) : c.plen < 2 ^ 32 := by
  have hn := h.nout_le
  have hcap : c.frames * (2 * c.wpf + 1) ≤ 2 * 65535 + 255 := by
    have hc := h.capLen_le
    have hf := h.frames_le
    unfold Cfg.capLen at hc
    nlinarith
  have hpt : 2 * c.frames * (c.taps + 4) ≤ 2 * 255 * 260 :=
    Nat.mul_le_mul (Nat.mul_le_mul_left 2 h.frames_le) (by have := h.taps_le; omega)
  have hch : c.channels * (1 + c.frames + 2 * c.frames * (c.taps + 4)) ≤
      128 * (1 + 255 + 2 * 255 * 260) :=
    Nat.mul_le_mul h.channels_le (by have := h.frames_le; omega)
  unfold Cfg.plen Cfg.nrings
  omega

end

/-! ### Decoding what the encoder wrote -/

/-- CH, M and J of a word of CLR, SAT or SHL, in the form `simp` gives the zeros. -/
theorem wordF_zero_fields (opc : BitVec 8) (p : BitVec 1) :
    (wordF opc p 0#7 0#8 0#8).extractLsb' 0 23 = 0#23 :=
  wordF_zero opc p

/-- The decoder reads back every operation the encoder writes (rules R92 to R100). -/
theorem decode_encode (i : Instr) : decode (encode i) = .ok i := by
  cases i <;>
    simp [decode, encode, formatN, formatG, formatR, formatK, formatB, formatFP, formatFC, formatFCM,
      formatFPCM, whenZero, wordF_zero_fields]

end Sys2Proof

namespace Sys2Proof.Machine

/-! ### What PASSPROG holds where (rule R166) -/

/-- The operations between ENTER and LEAVE. -/
def passBody (c : Cfg) : List Instr :=
  ((List.range c.nrings).map fun r => .probe (BitVec.ofNat 4 r)) ++
    (List.range c.frames).flatMap (frameOps c) ++
    (List.range c.channels).flatMap (channelOps c)

theorem passProg_eq (c : Cfg) : passProg c = .enter :: (passBody c ++ [.leave]) := rfl

theorem frameOps_length (c : Cfg) (f : Nat) : (frameOps c f).length = 2 * c.wpf + 1 := by
  simp [frameOps, List.length_flatMap, Nat.mul_comm]

theorem firptStore_length (c : Cfg) (p : Phase) (ch m : Nat) :
    (firptStore c p ch m).length = c.taps + 4 := by
  simp [firptStore, firpt]

theorem channelOps_length (c : Cfg) (ch : Nat) :
    (channelOps c ch).length = 1 + c.frames + 2 * c.frames * (c.taps + 4) := by
  simp [channelOps, List.length_flatMap, firptStore_length]
  ring

theorem passProg_length (c : Cfg) : (passProg c).length = c.plen := by
  simp [passProg_eq, passBody, List.length_flatMap, frameOps_length, channelOps_length, Cfg.plen]
  ring

/-- What stands between ENTER and LEAVE, with the ranges its operands come from. -/
inductive PassOp (c : Cfg) : Instr → Prop where
  | probe (r : Nat) (hr : r < c.nrings) : PassOp c (.probe (BitVec.ofNat 4 r))
  | ldw (f w : Nat) (hf : f < c.frames) (hw : w < c.wpf) :
      PassOp c (.ldw (BitVec.ofNat 16 (f * c.wpf + w)))
  | deint (w : Nat) (hw : w < c.wpf) : PassOp c (.deint (BitVec.ofNat 16 w))
  | asm (f : Nat) (hf : f < c.frames) : PassOp c (.asm (BitVec.ofNat 16 f))
  | hsh (ch : Nat) (hc : ch < c.channels) : PassOp c (.hsh (BitVec.ofNat 7 ch))
  | hpu (ch m : Nat) (hc : ch < c.channels) (hm : m < c.frames) :
      PassOp c (.hpu (BitVec.ofNat 7 ch) (BitVec.ofNat 8 m))
  | clr (p : Phase) : PassOp c (.clr p)
  | mac (p : Phase) (ch m j : Nat) (hc : ch < c.channels) (hm : m < c.frames) (hj : j < c.taps) :
      PassOp c (.mac p (BitVec.ofNat 7 ch) (BitVec.ofNat 8 m) (BitVec.ofNat 8 j))
  | sat (p : Phase) : PassOp c (.sat p)
  | shl (p : Phase) : PassOp c (.shl p)
  | stw (p : Phase) (ch m : Nat) (hc : ch < c.channels) (hm : m < c.frames) :
      PassOp c (.stw p (BitVec.ofNat 7 ch) (BitVec.ofNat 8 m))

theorem passOp_of_mem_frameOps {c : Cfg} {f : Nat} {i : Instr} (hf : f < c.frames)
    (h : i ∈ frameOps c f) : PassOp c i := by
  simp only [frameOps, List.mem_append, List.mem_flatMap, List.mem_range, List.mem_cons,
    List.not_mem_nil, or_false] at h
  obtain ⟨w, hw, rfl | rfl⟩ | rfl := h
  · exact .ldw f w hf hw
  · exact .deint w hw
  · exact .asm f hf

theorem passOp_of_mem_firptStore {c : Cfg} {p : Phase} {ch m : Nat} {i : Instr}
    (hc : ch < c.channels) (hm : m < c.frames) (h : i ∈ firptStore c p ch m) : PassOp c i := by
  simp only [firptStore, firpt, List.mem_append, List.mem_cons, List.mem_map, List.mem_range,
    List.not_mem_nil, or_false] at h
  obtain ((rfl | ⟨j, hj, rfl⟩) | rfl | rfl) | rfl := h
  · exact .clr p
  · exact .mac p ch m j hc hm hj
  · exact .sat p
  · exact .shl p
  · exact .stw p ch m hc hm

theorem passOp_of_mem_channelOps {c : Cfg} {ch : Nat} {i : Instr} (hc : ch < c.channels)
    (h : i ∈ channelOps c ch) : PassOp c i := by
  simp only [channelOps, List.mem_append, List.mem_cons, List.mem_map, List.mem_flatMap,
    List.mem_range] at h
  obtain (rfl | ⟨m, hm, rfl⟩) | ⟨m, hm, h | h⟩ := h
  · exact .hsh ch hc
  · exact .hpu ch m hc hm
  · exact passOp_of_mem_firptStore hc hm h
  · exact passOp_of_mem_firptStore hc hm h

theorem passOp_of_mem_passBody {c : Cfg} {i : Instr} (h : i ∈ passBody c) : PassOp c i := by
  simp only [passBody, List.mem_append, List.mem_map, List.mem_flatMap, List.mem_range] at h
  obtain (⟨r, hr, rfl⟩ | ⟨f, hf, h⟩) | ⟨ch, hc, h⟩ := h
  · exact .probe r hr
  · exact passOp_of_mem_frameOps hf h
  · exact passOp_of_mem_channelOps hc h

theorem PassOp.ne_enter {c : Cfg} {i : Instr} (h : PassOp c i) : i ≠ .enter := by
  cases h <;> exact Instr.noConfusion

theorem PassOp.ne_leave {c : Cfg} {i : Instr} (h : PassOp c i) : i ≠ .leave := by
  cases h <;> exact Instr.noConfusion

theorem capture_index_lt {frames wpf f w : Nat} (hf : f < frames) (hw : w < wpf) :
    f * wpf + w < frames * wpf :=
  calc f * wpf + w < (f + 1) * wpf := by rw [Nat.succ_mul]; omega
    _ ≤ frames * wpf := Nat.mul_le_mul_right _ hf

/-- The operands of the micro-program fit their fields and are legal (rules R94 to R97, R100). -/
theorem PassOp.wellFormed {c : Cfg} {i : Instr} (h : PassOp c i) (hc : c.Valid) :
    i.wellFormed c = true := by
  have hframes := hc.frames_le
  have hchannels := hc.channels_le
  have hwpf := hc.wpf_le
  have htaps := hc.taps_le
  cases h with
  | probe r hr =>
    have hn := hc.nout_le
    unfold Cfg.nrings at hr
    simp [Instr.wellFormed, ringLegal]
    omega
  | ldw f w hf hw =>
    have hk := capture_index_lt hf hw
    have hcap := hc.capLen_le
    unfold Cfg.capLen at hcap
    simp [Instr.wellFormed, wordIndexLegal, Cfg.capLen]
    omega
  | deint w hw => simp [Instr.wellFormed, frameWordLegal]; omega
  | asm f hf => simp [Instr.wellFormed, frameLegal]; omega
  | hsh ch hch => simp [Instr.wellFormed, channelLegal]; omega
  | hpu ch m hch hm => simp [Instr.wellFormed, channelLegal, blockFrameLegal]; omega
  | mac p ch m j hch hm hj => simp [Instr.wellFormed, channelLegal, blockFrameLegal, tapLegal]; omega
  | stw p ch m hch hm => simp [Instr.wellFormed, channelLegal, blockFrameLegal]; omega
  | clr p => rfl
  | sat p => rfl
  | shl p => rfl

/-- Where the first of a list stands that does not occur again. -/
theorem getElem?_cons_eq_some_head_iff {α : Type} {a : α} {l : List α} (ha : a ∉ l) (n : Nat) :
    (a :: l)[n]? = some a ↔ n = 0 := by
  cases n with
  | zero => simp
  | succ n => simpa using fun h => ha (List.mem_of_getElem? h)

/-- Where the last of a list stands that does not occur before. -/
theorem getElem?_concat_eq_some_last_iff {α : Type} {b : α} {l : List α} (hb : b ∉ l) (n : Nat) :
    (l ++ [b])[n]? = some b ↔ n = l.length := by
  rcases Nat.lt_trichotomy n l.length with hn | rfl | hn
  · rw [List.getElem?_append_left hn]
    exact ⟨fun h => absurd (List.mem_of_getElem? h) hb, fun h => absurd h hn.ne⟩
  · simp
  · rw [List.getElem?_eq_none (by simp; omega)]
    simp [hn.ne']

/-- ENTER stands first in PASSPROG and nowhere else. -/
theorem passProg_getElem?_enter (c : Cfg) (n : Nat) : (passProg c)[n]? = some .enter ↔ n = 0 := by
  refine getElem?_cons_eq_some_head_iff (fun h => ?_) n
  rcases List.mem_append.1 h with h | h
  · exact (passOp_of_mem_passBody h).ne_enter rfl
  · simp at h

/-- LEAVE stands last in PASSPROG and nowhere else. -/
theorem passProg_getElem?_leave (c : Cfg) (n : Nat) :
    (passProg c)[n]? = some .leave ↔ n + 1 = (passProg c).length := by
  have hl : .leave ∉ .enter :: passBody c := fun h =>
    (List.mem_cons.1 h).elim Instr.noConfusion fun h => (passOp_of_mem_passBody h).ne_leave rfl
  rw [passProg_eq, ← List.cons_append, getElem?_concat_eq_some_last_iff hl]
  simp

/-- Settles O56, from what PASSPROG is made of. -/
theorem microProgramHasPlenOperations : Obligations.MicroProgramHasPlenOperations :=
  fun c _ => ⟨passProg_length c, passProg_getElem?_enter c, passProg_getElem?_leave c⟩

/-- What stands in the micro-program neither first nor last is an operation of its body. -/
theorem passOp_of_getElem? {c : Cfg} {n : Nat} {i : Instr} (h : (passProg c)[n]? = some i)
    (h0 : n ≠ 0) (hn : n + 1 ≠ c.plen) : PassOp c i := by
  have hmem : i ∈ Instr.enter :: (passBody c ++ [.leave]) := List.mem_of_getElem? h
  rcases List.mem_cons.1 hmem with rfl | hmem
  · exact absurd ((passProg_getElem?_enter c n).1 h) h0
  rcases List.mem_append.1 hmem with hmem | hmem
  · exact passOp_of_mem_passBody hmem
  · obtain rfl := List.mem_singleton.1 hmem
    exact absurd ((passProg_getElem?_leave c n).1 h) (passProg_length c ▸ hn)

/-! ### Lists -/

/-- What holds of every entry, with its index, still holds after one entry is modified. -/
theorem forall_getElem?_modify {α : Type} {P : Nat → α → Prop} {l : List α} {i : Nat} {f : α → α}
    (h : ∀ j a, l[j]? = some a → P j a) (hf : ∀ a, l[i]? = some a → P i (f a)) :
    ∀ j a, (l.modify i f)[j]? = some a → P j a := by
  intro j a hj
  rw [List.getElem?_modify] at hj
  split at hj
  · subst i
    obtain ⟨b, hb, rfl⟩ := Option.map_eq_some_iff.1 hj
    exact hf b hb
  · exact h j a (by simpa using hj)

/-- What holds of every entry, with its index, still holds after every entry is mapped. -/
theorem forall_getElem?_map {α : Type} {P : Nat → α → Prop} {l : List α} {f : α → α}
    (hf : ∀ j a, l[j]? = some a → P j (f a)) : ∀ j a, (l.map f)[j]? = some a → P j a := by
  intro j a hj
  rw [List.getElem?_map] at hj
  obtain ⟨b, hb, rfl⟩ := Option.map_eq_some_iff.1 hj
  exact hf j b hb

/-- What holds of every member still holds after one is modified. -/
theorem forall_mem_modify {α : Type} {P : α → Prop} {l : List α} {i : Nat} {f : α → α}
    (h : ∀ a ∈ l, P a) (hf : ∀ a, l[i]? = some a → P (f a)) : ∀ a ∈ l.modify i f, P a := by
  intro a ha
  obtain ⟨j, hj⟩ := List.mem_iff_getElem?.1 ha
  exact forall_getElem?_modify (P := fun _ => P) (fun _ b hb => h b (List.mem_of_getElem? hb)) hf j a hj

/-! ### The operation an agent fetches -/

/-- Only the sequencer's turn presents an operation of the sequencer. -/
theorem fetch_issuer_seq {s : State} {tn : Turn} {w : Word} (hf : s.fetch tn = some w)
    (hi : (s.present tn).issuer = .seq) : ∃ d, tn = .seq d := by
  cases tn with
  | host opw wdata => cases hi
  | ring r v => cases hi
  | seq d => exact ⟨d, rfl⟩
  | hostRead a => cases hf
  | hostWrite a v => cases hf
  | reset => cases hf

/-- Only the host's turn presents an operation of the host. -/
theorem fetch_issuer_host {s : State} {tn : Turn} {w : Word} (hf : s.fetch tn = some w)
    (hi : (s.present tn).issuer = .host) : ∃ opw wdata, tn = .host opw wdata := by
  cases tn with
  | host opw wdata => exact ⟨opw, wdata, rfl⟩
  | ring r v => cases hi
  | seq d => cases hi
  | hostRead a => cases hf
  | hostWrite a v => cases hf
  | reset => cases hf

/-- The sequencer fetches PASSPROG's operation at UPC, when it is enabled (rule R160). -/
theorem seqWord_eq_some_iff {s : State} {w : Word} :
    s.seqWord = some w ↔
      s.seqEnabled = true ∧ ∃ i, (passProg s.cfg)[s.upc.toNat]? = some i ∧ encode i = w := by
  unfold State.seqWord passWords
  split
  · simp_all
  · simp_all

/-- What the sequencer's turn executes is PASSPROG's operation at UPC (rules R100, R160). -/
theorem getElem?_passProg_of_fetch {s : State} {d w : Word} {i : Instr}
    (hf : s.fetch (.seq d) = some w) (hd : decode w = .ok i) :
    (passProg s.cfg)[s.upc.toNat]? = some i := by
  obtain ⟨-, j, hj, rfl⟩ := seqWord_eq_some_iff.1 hf
  rw [decode_encode] at hd
  cases hd
  exact hj

/-! ### What the shared operations leave unchanged -/

/-- A ring's registers after the move of one word, the reload included (rules R141 to R143). -/
def Ring.afterMove (g : Ring) : Ring := if g.moved.rem = 0 then g.reload else g.moved

/-- The end of a move changes the registers of its ring alone. -/
theorem finishMove_rings (r : BitVec 4) (s : State) :
    (finishMove r s).rings = s.rings.modify r.toNat Ring.afterMove := by
  cases hg : s.rings[r.toNat]? with
  | none =>
    have hl : s.rings.length ≤ r.toNat := List.getElem?_eq_none_iff.1 hg
    unfold finishMove
    split <;> simp [reloadRing, List.modify_eq_self, hl]
  | some g =>
    rw [modify_eq_set_of_getElem? _ hg, Ring.afterMove]
    split
    · rw [finishMove_last hg ‹_›]; rfl
    · rw [finishMove_more hg ‹_›]; rfl

/-- The end of a move changes its ring's registers, IRQ and the record alone (rules R141 to R143). -/
theorem finishMove_eq (r : BitVec 4) (s : State) :
    finishMove r s =
      { s with
        rings := s.rings.modify r.toNat Ring.afterMove
        irq := (finishMove r s).irq
        events := (finishMove r s).events } := by
  obtain ⟨rings, irq, events, h, -⟩ := finishMove_frame r s
  have hr := finishMove_rings r s
  rw [h] at hr ⊢
  exact congrArg (fun q => { s with rings := q, irq := irq, events := events }) hr

/-- The end of a move sets its ring's pending bit or leaves IRQ (rules R36, R143). -/
theorem finishMove_irq (r : BitVec 4) (s : State) :
    (finishMove r s).irq = s.irq ∨ (finishMove r s).irq = setPend s.irq r.toNat := by
  unfold finishMove
  split
  · simp only [reloadRing, State.modifyRing_irq]
    split
    · exact .inr rfl
    · exact .inl rfl
  · exact .inl rfl

/-- An operation of a pass other than ENTER and LEAVE writes datapath registers and MEM, takes UPC on,
and changes nothing else (rules R160, R169). -/
theorem Effect.pass_frame {s t : State} {i : Instr} (he : Effect s i t) (hi : s.issuer = .seq)
    (h1 : i ≠ .enter) (h2 : i ≠ .leave) :
    t = { s with
      cw := t.cw, lb := t.lb, ph := t.ph, base := t.base, y := t.y, acc := t.acc, x := t.x, h := t.h
      mem := t.mem, upc := s.upc + 1 } := by
  cases he with
  | enter => exact absurd rfl h1
  | leave => exact absurd rfl h2
  | stw p ch m => rw [storeWord_eq]; rfl
  | probe | ldw | deint | asm | hsh | hpu | clr | mac | sat | shl => rfl
  | _ => simp_all only [reduceCtorEq]

/-! ### The configuration and the sizes of the files -/

/-- No operation changes the configuration (rules R7, R32). -/
theorem Effect.cfg_eq {s t : State} {i : Instr} (he : Effect s i t) : t.cfg = s.cfg := by
  cases he with
  | faults i code => exact raiseFault_cfg s code
  | movi u _ hw =>
    obtain ⟨-, rfl⟩ := memWrite_ok hw
    rw [finishMove_eq]; rfl
  | movo => rw [finishMove_eq]; rfl
  | stw => rw [storeWord_eq]; rfl
  | expand => exact State.answerOk_cfg s _
  | _ => rfl

/-- Two states with the same configuration and files of the same sizes have the same shape. -/
theorem shaped_of_files_eq {s t : State} (hs : s.shaped) (hc : t.cfg = s.cfg)
    (hr : t.rings.length = s.rings.length) (hl : t.lb = s.lb) (hp : t.ph = s.ph)
    (hb : t.base = s.base) (hx : t.x = s.x) (hh : t.h = s.h) : t.shaped := by
  unfold State.shaped
  rw [hc, hr, hl, hp, hb, hx, hh]
  exact hs

theorem answerOk_shaped (w : Word) {s : State} (hs : s.shaped) : (s.answerOk w).shaped := hs

theorem resetWith_shaped (c : Cfg) (epoch : Nat) : (State.resetWith c epoch).shaped := by
  simp +contextual [State.shaped, State.resetWith, List.mem_replicate]

theorem toReset_shaped (s : State) : s.toReset.shaped :=
  shaped_of_files_eq (resetWith_shaped s.cfg (s.epoch + 1)) rfl rfl rfl rfl rfl rfl rfl

/-- Rows keep their length when an entry is written. -/
theorem row_length_fileSet {α : Type} {n : Nat} {file : List (List α)} (r i : Nat) (v : α)
    (h : ∀ row ∈ file, row.length = n) : ∀ row ∈ fileSet file r i v, row.length = n :=
  forall_mem_modify h fun row hr => by simpa using h row (List.mem_of_getElem? hr)

@[simp] theorem storeSamples_length (x : List (List Word)) (f : Nat) (samples : List (Nat × Word)) :
    (storeSamples x f samples).length = x.length := by
  induction samples generalizing x with
  | nil => rfl
  | cons p rest ih =>
    rw [storeSamples, ih, fileSet_length]

theorem row_length_storeSamples {n : Nat} {x : List (List Word)} (f : Nat)
    (samples : List (Nat × Word)) (h : ∀ row ∈ x, row.length = n) :
    ∀ row ∈ storeSamples x f samples, row.length = n := by
  induction samples generalizing x with
  | nil => exact h
  | cons p rest ih => exact ih (row_length_fileSet p.1 f p.2 h)

theorem raiseFault_rings_length (code : FaultCode) (s : State) :
    (raiseFault code s).rings.length = s.rings.length := by
  unfold raiseFault
  split <;> simp

theorem raiseFault_shaped (code : FaultCode) {s : State} (hs : s.shaped) :
    (raiseFault code s).shaped :=
  shaped_of_files_eq hs (by simp) (raiseFault_rings_length code s) (by simp) (by simp) (by simp)
    (by simp) (by simp)

theorem present_shaped (tn : Turn) {s : State} (hs : s.shaped) : (s.present tn).shaped :=
  shaped_of_files_eq hs (by simp) (by simp) (by simp) (by simp) (by simp) (by simp) (by simp)

/-- Every operation keeps the sizes of the files (rules R20 to R24, R30, R31). -/
theorem Effect.shaped {s t : State} {i : Instr} (he : Effect s i t) (hs : s.shaped) : t.shaped := by
  cases he with
  | faults i code => exact raiseFault_shaped code hs
  | srst => exact toReset_shaped s
  | expand => exact answerOk_shaped _ hs
  | wrRing | cfg | start | stop | rld =>
    exact shaped_of_files_eq hs rfl (by simp [reloadRing]) rfl rfl rfl rfl rfl
  | movi u _ hw =>
    obtain ⟨-, rfl⟩ := memWrite_ok hw
    rw [finishMove_eq]
    exact shaped_of_files_eq hs rfl (by simp) rfl rfl rfl rfl rfl
  | movo =>
    rw [finishMove_eq]
    exact shaped_of_files_eq hs rfl (by simp) rfl rfl rfl rfl rfl
  | stw =>
    rw [storeWord_eq]
    exact shaped_of_files_eq hs rfl rfl rfl rfl rfl rfl rfl
  | probe =>
    obtain ⟨hr, hl, hp, hb, hrest⟩ := hs
    exact ⟨hr, hl, by simpa [probeRing] using hp, by simpa [probeRing] using hb, hrest⟩
  | deint =>
    obtain ⟨hr, -, hrest⟩ := hs
    exact ⟨hr, by simp [deintBuffers], hrest⟩
  | asm =>
    obtain ⟨hr, hl, hp, hb, hx, hxr, hh⟩ := hs
    exact ⟨hr, hl, hp, hb, by simpa using hx, row_length_storeSamples _ _ hxr, hh⟩
  | hsh =>
    obtain ⟨hr, hl, hp, hb, hx, hxr, hh, hhr⟩ := hs
    refine ⟨hr, hl, hp, hb, hx, hxr, by simpa using hh, forall_mem_modify hhr fun row hrow => ?_⟩
    simpa [shiftWindow] using hhr row (List.mem_of_getElem? hrow)
  | hpu =>
    obtain ⟨hr, hl, hp, hb, hx, hxr, hh, hhr⟩ := hs
    exact ⟨hr, hl, hp, hb, hx, hxr, by simpa using hh, row_length_fileSet _ _ _ hhr⟩
  | _ => exact shaped_of_files_eq hs rfl rfl rfl rfl rfl rfl rfl

/-- No step changes the configuration. -/
theorem step_cfg {s t : State} (h : step s = .next t) : t.cfg = s.cfg := by
  refine step_keeps (P := fun u => u.cfg = s.cfg) (fun _ _ _ hu => hu)
    (fun u tn _ _ _ hu _ _ he => ?_) (fun u opw wdata hu => by simpa using hu) (fun _ _ hu => hu)
    (fun u _ _ _ hu hw => ?_) (fun _ hu => hu) rfl h
  · rw [he.cfg_eq, State.present_cfg, hu]
  · obtain ⟨-, rfl⟩ := memWrite_ok hw
    exact hu

/-- `step_keeps` for a state with a valid configuration and for what does not speak of the choices left, of
MEM, or of what a turn presents. -/
theorem step_keeps_of_valid {P : State → Prop}
    (outside : ∀ s turns tick mem mdata, P s →
      P { s with turns := turns, tick := tick, mem := mem, mdata := mdata })
    (present : ∀ s tn, P s → P (s.present tn))
    (effect : ∀ (s : State) tn w i t, s.cfg.Valid → P (s.present tn) → s.fetch tn = some w →
      decode w = .ok i → Effect (s.present tn) i t → P t)
    (fault : ∀ s, P s → P (raiseFault .illegalOp s))
    (reset : ∀ s : State, s.cfg.Valid → P s.toReset) {s t : State} (hc : s.cfg.Valid) (hs : P s)
    (h : step s = .next t) : P t := by
  refine (step_keeps (P := fun u => u.cfg.Valid ∧ P u)
    (fun u turns tick hu => ⟨hu.1, outside u turns tick u.mem u.mdata hu.2⟩)
    (fun u tn w i v hu hf hd he => ⟨?_, effect u tn w i v hu.1 (present u tn hu.2) hf hd he⟩)
    (fun u opw wdata hu => ⟨by simpa using hu.1, fault _ (present u _ hu.2)⟩)
    (fun u v hu => ⟨hu.1, outside u u.turns u.tick u.mem v hu.2⟩)
    (fun u v a w hu hw => ?_) (fun u hu => ⟨hu.1, reset u hu.1⟩) ⟨hc, hs⟩ h).2
  · rw [he.cfg_eq, State.present_cfg]
    exact hu.1
  · obtain ⟨-, rfl⟩ := memWrite_ok hw
    exact ⟨hu.1, outside u u.turns u.tick _ u.mdata hu.2⟩

theorem step_shaped {s t : State} (hs : s.shaped) (h : step s = .next t) : t.shaped := by
  refine step_keeps (P := State.shaped) (fun _ _ _ hu => hu)
    (fun u tn _ _ _ hu _ _ he => he.shaped (present_shaped tn hu))
    (fun _ _ _ hu => raiseFault_shaped _ (present_shaped _ hu)) (fun _ _ hu => hu)
    (fun u _ _ _ hu hw => ?_) (fun u _ => toReset_shaped u) hs h
  obtain ⟨-, rfl⟩ := memWrite_ok hw
  exact hu

/-- Settles O44: no operation changes the configuration or the size of a file. -/
theorem everyStepKeepsTheShape : Obligations.EveryStepKeepsTheShape :=
  fun _ _ h => ⟨step_cfg h, fun hs => step_shaped hs h⟩

/-! ### The rings -/

/-- What `State.ringsGood` asks of one ring. -/
def Ring.good (c : Cfg) (r : Nat) (g : Ring) : Prop :=
  (g.en = true → g.cfgd = true) ∧ (g.cfgd = true → g.descriptorsGood c r)

theorem ringsGood_iff {s : State} :
    s.ringsGood ↔ ∀ r g, s.rings[r]? = some g → Ring.good s.cfg r g := Iff.rfl

theorem ringsGood_of_eq {s t : State} (hs : s.ringsGood) (hr : t.rings = s.rings)
    (hc : t.cfg = s.cfg) : t.ringsGood := by
  unfold State.ringsGood
  rw [hr, hc]
  exact hs

/-- A ring that is neither enabled nor configured, as after reset, STOP or a write of its registers. -/
theorem Ring.good_of_off {c : Cfg} {r : Nat} {g : Ring} (hen : g.en = false) (hcf : g.cfgd = false) :
    g.good c r :=
  ⟨fun h => by simp [hen] at h, fun h => by simp [hcf] at h⟩

theorem Ring.good_disable {c : Cfg} {r : Nat} {g : Ring} (h : g.good c r) : g.disable.good c r :=
  ⟨fun hen => Bool.noConfusion hen, h.2⟩

theorem Ring.good_enable {c : Cfg} {r : Nat} {g : Ring} (h : g.good c r) (hcf : g.cfgd = true) :
    g.enable.good c r :=
  ⟨fun _ => hcf, h.2⟩

/-- A write of a configuration register leaves EN and clears CFGD (rules R39 to R42, R122). -/
theorem writeRingReg_some {data : Word} {g g' : Ring} {f : RingReg}
    (h : writeRingReg data g f = some g') : g'.en = g.en ∧ g'.cfgd = false := by
  cases f <;> cases h <;> exact ⟨rfl, rfl⟩

/-- What CFG has checked when no check fails (rule R123). -/
theorem cfgCheck_none {c : Cfg} {r : BitVec 4} {g : Ring} (h : cfgCheck c r g = none) :
    r.toNat ≤ c.nout ∧ g.en = false ∧ g.len.toNat = c.ringLen r.toNat ∧
      halfAccepted c r.toNat g.addrA ∧ halfAccepted c r.toNat g.addrB ∧ g.addrA ≠ g.addrB := by
  simp only [cfgCheck] at h
  split at h
  · cases h
  split at h
  · cases h
  split at h
  · cases h
  split at h
  · cases h
  split at h
  · cases h
  split at h
  · cases h
  rename_i hl hen hlen halign hrange hne
  rw [not_ne_iff] at hlen
  rw [hlen] at halign hrange
  simp only [not_or, not_ne_iff, not_lt] at halign hrange
  exact ⟨by simpa [ringLegal] using hl, by simpa using hen, hlen, ⟨halign.1, hrange.1⟩,
    ⟨halign.2, hrange.2⟩, hne⟩

/-- CFG makes the descriptors good (rules R44, R123). -/
theorem Ring.good_install {c : Cfg} {r : BitVec 4} {g : Ring} (hc : c.Valid)
    (h : cfgCheck c r g = none) : g.install.good c r.toNat := by
  obtain ⟨-, hen, hlen, ha, hb, hne⟩ := cfgCheck_none h
  refine ⟨fun _ => rfl, fun _ => ⟨hlen, ha, hb, hne, ?_, Nat.le_refl _, ?_⟩⟩
  · have := hc.ringLen_pos r.toNat
    change 1 ≤ g.len.toNat
    omega
  · simp [Ring.install, Ring.movingBase, Ring.baseOf, otherHalf]

/-- A reload keeps the descriptors good: the other half, from its base on (rules R143, R144). -/
theorem Ring.descriptorsGood_reload {c : Cfg} {r : Nat} {g : Ring} (h : g.descriptorsGood c r) :
    g.reload.descriptorsGood c r := by
  obtain ⟨hlen, ha, hb, hne, h1, hrem, -⟩ := h
  refine ⟨hlen, ha, hb, hne, h1.trans hrem, Nat.le_refl _, ?_⟩
  cases hn : g.next <;> simp [Ring.reload, Ring.movingBase, Ring.baseOf, otherHalf, hn]

/-- The half a configured ring is in lies inside MEM. -/
theorem Ring.descriptorsGood.movingBase_accepted {c : Cfg} {r : Nat} {g : Ring}
    (h : g.descriptorsGood c r) : halfAccepted c r g.movingBase := by
  obtain ⟨-, ha, hb, -⟩ := h
  cases hn : g.next
  · simpa [Ring.movingBase, Ring.baseOf, otherHalf, hn] using hb
  · simpa [Ring.movingBase, Ring.baseOf, otherHalf, hn] using ha

/-- A move that leaves words to move keeps the descriptors good: CUR has a word of its half before it, so
CUR + 4 does not wrap (rules R43, R63, R141). -/
theorem Ring.descriptorsGood_moved {c : Cfg} {r : Nat} {g : Ring} (hc : c.Valid)
    (h : g.descriptorsGood c r) (hmore : g.moved.rem ≠ 0) : g.moved.descriptorsGood c r := by
  have hbase := h.movingBase_accepted.2
  obtain ⟨hlen, ha, hb, hne, h1, hrem, hcur⟩ := h
  have hmem := hc.memSize_le
  have hsub : (g.rem - 1).toNat = g.rem.toNat - 1 := BitVec.toNat_sub_of_le (by simpa [BitVec.le_def])
  have h2 : 1 ≤ g.rem.toNat - 1 := by
    rw [← hsub, Nat.one_le_iff_ne_zero]
    exact fun h0 => hmore (BitVec.eq_of_toNat_eq h0)
  have hadd : (g.cur + 4).toNat = g.cur.toNat + 4 :=
    BitVec.toNat_add_of_lt (by simp; omega)
  refine ⟨hlen, ha, hb, hne, ?_, ?_, ?_⟩
  · exact hsub ▸ h2
  · change (g.rem - 1).toNat ≤ g.len.toNat
    omega
  · change (g.cur + 4).toNat = g.movingBase.toNat + 4 * (g.len.toNat - (g.rem - 1).toNat)
    omega

/-- The move of one word, the reload included, keeps a ring good (rules R43, R44, R144). -/
theorem Ring.good_afterMove {c : Cfg} {r : Nat} {g : Ring} (hc : c.Valid) (h : g.good c r) :
    g.afterMove.good c r := by
  unfold Ring.afterMove
  split
  · exact ⟨h.1, fun hcf => Ring.descriptorsGood_reload (h.2 hcf)⟩
  · exact ⟨h.1, fun hcf => Ring.descriptorsGood_moved hc (h.2 hcf) ‹_›⟩

theorem resetWith_ringsGood (c : Cfg) (epoch : Nat) : (State.resetWith c epoch).ringsGood := by
  refine ringsGood_iff.2 fun r g hg => ?_
  obtain rfl : g = Ring.reset := List.eq_of_mem_replicate (List.mem_of_getElem? hg)
  exact Ring.good_of_off rfl rfl

/-- A fault disables every ring and leaves the descriptors (rule R262). -/
theorem raiseFault_ringsGood (code : FaultCode) {s : State} (hs : s.ringsGood) :
    (raiseFault code s).ringsGood := by
  obtain ⟨-, h⟩ | ⟨-, h⟩ := raiseFault_cases code s
  · rw [h]; exact hs
  · rw [h]; exact forall_getElem?_map fun q g hg => Ring.good_disable (hs q g hg)

theorem present_ringsGood (tn : Turn) {s : State} (hs : s.ringsGood) : (s.present tn).ringsGood :=
  ringsGood_of_eq hs (by simp) (by simp)

/-- Every operation keeps the rings good. -/
theorem Effect.ringsGood {s t : State} {i : Instr} (he : Effect s i t) (hc : s.cfg.Valid)
    (hs : s.ringsGood) : t.ringsGood := by
  cases he with
  | faults code => exact raiseFault_ringsGood _ hs
  | srst => exact resetWith_ringsGood s.cfg (s.epoch + 1)
  | wrRing off r f g _ _ _ hg hen =>
    obtain ⟨hen', hcf⟩ := writeRingReg_some hg
    exact forall_getElem?_modify (P := Ring.good s.cfg) hs
      fun _ _ => Ring.good_of_off (hen'.trans hen) hcf
  | cfg r _ _ hcheck =>
    refine forall_getElem?_modify (P := Ring.good s.cfg) hs fun g hg => ?_
    rw [ringAt_of_getElem? hg] at hcheck
    exact Ring.good_install hc hcheck
  | start _ _ _ hcf =>
    exact forall_getElem?_map fun q g hg => Ring.good_enable (hs q g hg) (hcf g (List.mem_of_getElem? hg))
  | stop => exact forall_getElem?_map fun q g _ => Ring.good_of_off rfl rfl
  | movi u _ hw =>
    obtain ⟨-, rfl⟩ := memWrite_ok hw
    rw [finishMove_eq]
    exact forall_getElem?_modify (P := Ring.good s.cfg) hs fun g hg => Ring.good_afterMove hc (hs _ g hg)
  | movo r =>
    rw [finishMove_eq]
    exact forall_getElem?_modify (P := Ring.good s.cfg) hs fun g hg => Ring.good_afterMove hc (hs _ g hg)
  | rld r =>
    refine forall_getElem?_modify (P := Ring.good s.cfg) hs fun g hg => ?_
    obtain ⟨hen, hd⟩ := hs _ g hg
    exact ⟨hen, fun hcf => Ring.descriptorsGood_reload (hd hcf)⟩
  | stw => rw [storeWord_eq]; exact hs
  | expand => exact ringsGood_of_eq hs (by simp) (by simp)
  | _ => exact hs

/-- Settles O45: every operation keeps each ring good, and the ring a move changes is good after it. -/
theorem everyStepKeepsTheRingsGood : Obligations.EveryStepKeepsTheRingsGood := by
  intro s t hc hs h
  refine step_keeps_of_valid (fun _ _ _ _ _ hu => hu) (fun _ tn hu => present_ringsGood tn hu)
    (fun u tn _ _ v hcu hu _ _ he => he.ringsGood ?_ hu) (fun _ hu => raiseFault_ringsGood _ hu)
    (fun u _ => resetWith_ringsGood u.cfg (u.epoch + 1)) hc hs h
  rwa [State.present_cfg]

/-! ### The control registers and the fault record -/

/-- The control invariants of a state with other rings, when EN is still STARTED in each. -/
theorem controlGood_of_eq {s t : State} (hs : s.controlGood) (hc : t.cfg = s.cfg)
    (hst : t.started = s.started) (ha : t.armed = s.armed) (hb : t.busy = s.busy)
    (hh : t.halt = s.halt) (hu : t.upc = s.upc) (hf : t.faultCode = s.faultCode)
    (ho : t.faultOp = s.faultOp) (hr : ∀ g ∈ t.rings, g.en = s.started) : t.controlGood := by
  obtain ⟨harm, hhalt, hbusy, hupc, -, hrec⟩ := hs
  unfold State.controlGood
  rw [hc, hst, ha, hb, hh, hu, hf, ho]
  exact ⟨harm, hhalt, hbusy, hupc, hr, hrec⟩

theorem present_controlGood (tn : Turn) {s : State} (hs : s.controlGood) :
    (s.present tn).controlGood := by
  obtain ⟨-, -, -, -, hr, -⟩ := id hs
  exact controlGood_of_eq hs (by simp) (by simp) (by simp) (by simp) (by simp) (by simp) (by simp)
    (by simp) (by simpa using hr)

theorem resetWith_controlGood (c : Cfg) (epoch : Nat) : (State.resetWith c epoch).controlGood := by
  have hplen : 0 < c.plen := by unfold Cfg.plen; omega
  have hen : ∀ g ∈ (State.resetWith c epoch).rings, g.en = false := fun g hg => by
    rw [List.eq_of_mem_replicate hg]; rfl
  refine ⟨?_, ?_, ?_, hplen, hen, ?_, ?_, ?_⟩ <;> simp [State.resetWith]

/-- The codes are those of rule R261, none of them 0. -/
theorem faultNumber_range (code : FaultCode) :
    faultNumber code ≠ 0 ∧ (faultNumber code).toNat ≤ 8 := by
  cases code <;> decide

/-- A fault stops the block with its record made; a pass in progress goes on (rules R37, R38, R262). -/
theorem raiseFault_controlGood (code : FaultCode) {s : State} (hs : s.controlGood) :
    (raiseFault code s).controlGood := by
  obtain ⟨-, h⟩ | ⟨-, h⟩ := raiseFault_cases code s
  · rw [h]; exact hs
  · obtain ⟨-, -, hbusy, hupc, -⟩ := hs
    obtain ⟨h0, h8⟩ := faultNumber_range code
    have hen : ∀ g ∈ s.rings.map Ring.disable, g.en = false := fun g hg => by
      obtain ⟨g', -, rfl⟩ := List.mem_map.1 hg; rfl
    rw [h]
    exact ⟨Bool.noConfusion, fun _ => ⟨rfl, rfl⟩, hbusy, hupc, hen,
      ⟨fun _ => h0, fun _ => rfl⟩, fun h => absurd h h0, h8⟩

@[simp] theorem Ring.afterMove_en (g : Ring) : g.afterMove.en = g.en := by
  unfold Ring.afterMove
  split <;> rfl

/-- The operations of the host and of the ring engines keep the control invariants. -/
theorem Effect.controlGood_of_not_seq {s t : State} {i : Instr} (he : Effect s i t)
    (hi : s.issuer ≠ .seq) (hs : s.controlGood) : t.controlGood := by
  obtain ⟨harm, hhalt, hbusy, hupc, hen, hrec⟩ := id hs
  cases he with
  | faults code => exact raiseFault_controlGood _ hs
  | srst => exact resetWith_controlGood s.cfg (s.epoch + 1)
  | wrRing off r f g _ _ _ hg _ =>
    refine ⟨harm, hhalt, hbusy, hupc, forall_mem_modify hen fun g' hg' => ?_, hrec⟩
    rw [ringAt_of_getElem? hg'] at hg
    exact (writeRingReg_some hg).1.trans (hen g' (List.mem_of_getElem? hg'))
  | cfg | rld =>
    exact ⟨harm, hhalt, hbusy, hupc,
      forall_mem_modify hen fun g hg => hen g (List.mem_of_getElem? hg), hrec⟩
  | movi u _ hw =>
    obtain ⟨-, rfl⟩ := memWrite_ok hw
    rw [finishMove_eq]
    exact ⟨harm, hhalt, hbusy, hupc, forall_mem_modify hen fun g hg => by
      simpa using hen g (List.mem_of_getElem? hg), hrec⟩
  | movo =>
    rw [finishMove_eq]
    exact ⟨harm, hhalt, hbusy, hupc, forall_mem_modify hen fun g hg => by
      simpa using hen g (List.mem_of_getElem? hg), hrec⟩
  | start _ hh =>
    refine ⟨fun _ => rfl, fun h => ?_, hbusy, hupc, fun g hg => ?_, hrec⟩
    · exact Bool.noConfusion (hh.symm.trans h)
    · obtain ⟨g', -, rfl⟩ := List.mem_map.1 hg
      rfl
  | arm _ hh hst =>
    exact ⟨fun _ => hst, fun h => Bool.noConfusion (hh.symm.trans h), hbusy, hupc, hen, hrec⟩
  | stop =>
    refine ⟨Bool.noConfusion, fun _ => ⟨rfl, rfl⟩, hbusy, hupc, fun g hg => ?_, hrec⟩
    obtain ⟨g', -, rfl⟩ := List.mem_map.1 hg
    rfl
  | halted | nop | rdreg | wrIrq | probeHost => exact hs
  | expand =>
    exact controlGood_of_eq hs (by simp) (by simp) (by simp) (by simp) (by simp) (by simp) (by simp)
      (by simp) (by simpa using hen)
  | _ => exact absurd ‹_› hi

/-- ENTER of the sequencer, whole (rules R161, R273). -/
theorem Effect.enter_eq {s t : State} (he : Effect s .enter t) (hi : s.issuer = .seq) :
    t = { (s.emit (.statEntry s.draw)) with irq := clearPend s.irq 0, busy := true, upc := 1 } := by
  cases he with
  | enter => rfl
  | halted _ hh => simp_all only [reduceCtorEq]
  | faults _ _ hh => simp_all only [reduceCtorEq]

/-- LEAVE of the sequencer, whole (rules R165, R274). -/
theorem Effect.leave_eq {s t : State} (he : Effect s .leave t) (hi : s.issuer = .seq) :
    t = { (s.emit (.statExit s.draw)) with busy := false, upc := 0 } := by
  cases he with
  | leave => rfl
  | halted _ hh => simp_all only [reduceCtorEq]
  | faults _ _ hh => simp_all only [reduceCtorEq]

/-- UPC + 1 inside the micro-program does not wrap (rule R27). -/
theorem upc_succ_toNat {c : Cfg} (hc : c.Valid) {upc : Word} (h : upc.toNat < c.plen) :
    (upc + 1).toNat = upc.toNat + 1 := by
  have hlt := hc.plen_lt
  exact BitVec.toNat_add_of_lt (by simp; omega)

/-- PASSPROG's operation at UPC keeps the control invariants: ENTER is the one at 0, LEAVE the last one, and
between them UPC goes on by 1 in a pass (rules R27, R160, R166). -/
theorem Effect.controlGood_of_seq {s t : State} {i : Instr} (he : Effect s i t) (hi : s.issuer = .seq)
    (hc : s.cfg.Valid) (hs : s.controlGood) (hp : (passProg s.cfg)[s.upc.toNat]? = some i) :
    t.controlGood := by
  obtain ⟨harm, hhalt, hbusy, hupc, hrest⟩ := hs
  have hplen : 2 ≤ s.cfg.plen := by unfold Cfg.plen; omega
  by_cases h0 : s.upc.toNat = 0
  · obtain rfl : i = .enter := by
      rw [(passProg_getElem?_enter _ _).2 h0] at hp
      exact (Option.some.inj hp).symm
    rw [he.enter_eq hi]
    exact ⟨harm, hhalt, by simp, hplen, hrest⟩
  by_cases hlast : s.upc.toNat + 1 = s.cfg.plen
  · obtain rfl : i = .leave := by
      rw [(passProg_getElem?_leave _ _).2 (hlast.trans (passProg_length _).symm)] at hp
      exact (Option.some.inj hp).symm
    rw [he.leave_eq hi]
    exact ⟨harm, hhalt, by simp, Nat.lt_of_lt_of_le Nat.two_pos hplen, hrest⟩
  · have hop := passOp_of_getElem? hp h0 hlast
    have hsucc := upc_succ_toNat hc hupc
    rw [he.pass_frame hi hop.ne_enter hop.ne_leave]
    refine ⟨harm, hhalt, ⟨fun _ h => ?_, fun _ => ?_⟩, ?_, hrest⟩
    · rw [show s.upc + 1 = 0 from h] at hsucc
      exact absurd hsucc (by simp)
    · exact hbusy.2 fun h => h0 (by simp [h])
    · change (s.upc + 1).toNat < s.cfg.plen
      omega

/-- Settles O46: what the sequencer executes is PASSPROG's operation at UPC. -/
theorem everyStepKeepsTheControlGood : Obligations.EveryStepKeepsTheControlGood := by
  intro s t hc hs h
  refine step_keeps_of_valid (fun _ _ _ _ _ hu => hu) (fun _ tn hu => present_controlGood tn hu)
    (fun u tn w i v hcu hu hf hd he => ?_) (fun _ hu => raiseFault_controlGood _ hu)
    (fun u _ => resetWith_controlGood u.cfg (u.epoch + 1)) hc hs h
  by_cases hi : (u.present tn).issuer = .seq
  · obtain ⟨d, rfl⟩ := fetch_issuer_seq hf hi
    exact he.controlGood_of_seq hi hcu hu (getElem?_passProg_of_fetch (s := u) hf hd)
  · exact he.controlGood_of_not_seq hi hu

/-! ### The fault record -/

/-- HALT and the two registers of the fault record (rules R35, R37, R38). -/
def State.sameFaultRecord (s t : State) : Prop :=
  t.halt = s.halt ∧ t.faultCode = s.faultCode ∧ t.faultOp = s.faultOp

theorem State.sameFaultRecord.trans {s t u : State} (h : s.sameFaultRecord t)
    (h' : t.sameFaultRecord u) : s.sameFaultRecord u := by
  obtain ⟨hh, hc, ho⟩ := h
  obtain ⟨hh', hc', ho'⟩ := h'
  exact ⟨hh'.trans hh, hc'.trans hc, ho'.trans ho⟩

/-- In HALT a fault records nothing new (rule R262). -/
theorem raiseFault_sameFaultRecord (code : FaultCode) {s : State} (h : s.halt = true) :
    s.sameFaultRecord (raiseFault code s) := by
  rw [raiseFault_halted code h]
  exact ⟨rfl, rfl, rfl⟩

/-- In HALT nothing but SRST changes the fault record, and no other agent than the host ever does
(rules R129, R260, R262). -/
theorem Effect.sameFaultRecord {s t : State} {i : Instr} (he : Effect s i t)
    (h : s.halt = true ∨ s.issuer ≠ .host) (hsrst : s.issuer = .host → i ≠ .srst) :
    s.sameFaultRecord t := by
  cases he with
  | faults code _ hi =>
    exact raiseFault_sameFaultRecord _ (h.resolve_right fun hne => hne hi)
  | srst hi => exact absurd rfl (hsrst hi)
  | movi u _ hw =>
    obtain ⟨-, rfl⟩ := memWrite_ok hw
    rw [finishMove_eq]
    exact ⟨rfl, rfl, rfl⟩
  | movo =>
    rw [finishMove_eq]
    exact ⟨rfl, rfl, rfl⟩
  | stw =>
    rw [storeWord_eq]
    exact ⟨rfl, rfl, rfl⟩
  | expand => exact ⟨by simp, by simp, by simp⟩
  | _ => exact ⟨rfl, rfl, rfl⟩

/-- Settles O54: of the turns left, each that could fault is the host's in HALT. -/
theorem faultRecordIsTheHostsUntilReset : Obligations.FaultRecordIsTheHostsUntilReset := by
  intro s t hstep hreset hsrst hwho
  change s.sameFaultRecord t
  obtain ⟨tn, s', hts, he⟩ := step_effect hstep
  have hs' : s.sameFaultRecord s' := by
    have h2 := takeTurn_state s
    rw [hts] at h2
    rw [show s' = _ from h2]
    exact ⟨rfl, rfl, rfl⟩
  have hwho' : s'.halt = true ∨ ∀ opw wdata, tn ≠ .host opw wdata := by
    rw [hs'.1]
    simpa [hts] using hwho
  rw [hts] at hreset hsrst
  refine hs'.trans ?_
  cases he with
  | runs _ w i _ hf hd he =>
    have h := he.sameFaultRecord (hwho'.imp (by simp) fun hne hi => ?_) fun hi hsr => ?_
    · simpa [State.sameFaultRecord] using h
    · obtain ⟨opw, wdata, rfl⟩ := fetch_issuer_host hf hi
      exact hne opw wdata rfl
    · obtain ⟨opw, wdata, rfl⟩ := fetch_issuer_host hf hi
      obtain rfl : opw = w := Option.some.inj hf
      exact hsrst opw wdata rfl (hsr ▸ hd)
  | invalid opw wdata =>
    exact raiseFault_sameFaultRecord (s := s'.present (.host opw wdata)) _
      (hwho'.resolve_right fun hne => hne opw wdata rfl)
  | hostWrite a v _ hw =>
    obtain ⟨-, rfl⟩ := memWrite_ok hw
    exact ⟨rfl, rfl, rfl⟩
  | reset => exact absurd rfl hreset
  | idleRing | idleSeq | hostRead => exact ⟨rfl, rfl, rfl⟩

/-! ### The data registers -/

/-- The range of an entry of H (rules R31, R212). -/
def historyRange (v : Int) : Prop := -(2 ^ 23) ≤ v ∧ v < 2 ^ 23

theorem historyRange_zero : historyRange 0 := by
  constructor <;> norm_num

/-- A row read beyond its end gives 0, which is in range. -/
theorem historyRange_getD {row : List Int} (h : ∀ v ∈ row, historyRange v) (n : Nat) :
    historyRange (row.getD n 0) := by
  rw [List.getD_eq_getElem?_getD]
  cases hn : row[n]? with
  | none => exact historyRange_zero
  | some v => exact h v (List.mem_of_getElem? hn)

theorem historyRange_shiftWindow {c : Cfg} {row : List Int} (h : ∀ v ∈ row, historyRange v) :
    ∀ v ∈ shiftWindow c row, historyRange v := by
  intro v hv
  obtain ⟨i, hi, rfl⟩ := List.mem_mapIdx.1 hv
  split
  · exact historyRange_getD h _
  · exact h _ (List.getElem_mem hi)

theorem historyRange_fileSet {file : List (List Int)} {r i : Nat} {v : Int}
    (h : ∀ row ∈ file, ∀ v ∈ row, historyRange v) (hv : historyRange v) :
    ∀ row ∈ fileSet file r i v, ∀ v ∈ row, historyRange v :=
  forall_mem_modify h fun row hrow u hu =>
    (List.mem_or_eq_of_mem_set hu).elim (h row (List.mem_of_getElem? hrow) u) fun he => he ▸ hv

/-- DEINT leaves FB bits in every line buffer (rules R22, R194). -/
theorem deintBuffers_lt (c : Cfg) (cw : Word) (w : Nat) (lb : List Nat) :
    ∀ v ∈ deintBuffers c cw w lb, v < 2 ^ c.fb := by
  intro v hv
  obtain ⟨i, -, rfl⟩ := List.mem_map.1 hv
  exact natOfBits_lt _ _

/-- Masking pending bits sets none. -/
theorem and_toNat_lt {irq mask : Word} {n : Nat} (h : irq.toNat < n) : (irq &&& mask).toNat < n := by
  rw [BitVec.toNat_and]
  exact Nat.lt_of_le_of_lt Nat.and_le_left h

/-- Setting the pending bit of a ring that exists sets no reserved bit (rule R36). -/
theorem setPend_toNat_lt {irq : Word} {r n : Nat} (hr : r ≤ n) (h : irq.toNat < 2 ^ (n + 1)) :
    (setPend irq r).toNat < 2 ^ (n + 1) := by
  rw [setPend, BitVec.toNat_or, BitVec.toNat_twoPow]
  refine Nat.or_lt_two_pow h (Nat.lt_of_le_of_lt (Nat.mod_le _ _) ?_)
  exact Nat.pow_lt_pow_right (by norm_num) (by omega)

theorem finishMove_irq_lt {r : BitVec 4} {s : State} {n : Nat} (hr : r.toNat ≤ n)
    (h : s.irq.toNat < 2 ^ (n + 1)) : (finishMove r s).irq.toNat < 2 ^ (n + 1) := by
  obtain hi | hi := finishMove_irq r s
  · rwa [hi]
  · rw [hi]
    exact setPend_toNat_lt hr h

theorem reloadRing_irq_lt {r : BitVec 4} {s : State} {n : Nat} (hr : r.toNat ≤ n)
    (h : s.irq.toNat < 2 ^ (n + 1)) : (reloadRing r s).irq.toNat < 2 ^ (n + 1) := by
  simp only [reloadRing, State.modifyRing_irq]
  split
  · exact setPend_toNat_lt hr h
  · exact h

theorem dataGood_of_eq {s t : State} (hs : s.dataGood) (hc : t.cfg = s.cfg) (hh : t.h = s.h)
    (hl : t.lb = s.lb) (hi : t.irq = s.irq) : t.dataGood := by
  unfold State.dataGood
  rw [hc, hh, hl, hi]
  exact hs

theorem resetWith_dataGood (c : Cfg) (epoch : Nat) : (State.resetWith c epoch).dataGood := by
  refine ⟨fun row hrow v hv => ?_, fun v hv => ?_, ?_⟩
  · obtain rfl := List.eq_of_mem_replicate hrow
    obtain rfl := List.eq_of_mem_replicate hv
    exact historyRange_zero
  · obtain ⟨i, -, rfl⟩ := List.mem_map.1 hv
    exact Nat.mod_lt _ (Nat.two_pow_pos _)
  · exact Nat.two_pow_pos _

theorem raiseFault_dataGood (code : FaultCode) {s : State} (hs : s.dataGood) :
    (raiseFault code s).dataGood :=
  dataGood_of_eq hs (by simp) (by simp) (by simp) (by simp)

theorem present_dataGood (tn : Turn) {s : State} (hs : s.dataGood) : (s.present tn).dataGood :=
  dataGood_of_eq hs (by simp) (by simp) (by simp) (by simp)

/-- Every operation keeps the ranges of H, LB and IRQ. -/
theorem Effect.dataGood {s t : State} {i : Instr} (he : Effect s i t) (hs : s.dataGood) :
    t.dataGood := by
  obtain ⟨hh, hl, hirq⟩ := id hs
  cases he with
  | faults code => exact raiseFault_dataGood _ hs
  | srst => exact resetWith_dataGood s.cfg (s.epoch + 1)
  | wrIrq | enter => exact ⟨hh, hl, and_toNat_lt hirq⟩
  | arm => exact ⟨hh, hl, Nat.two_pow_pos _⟩
  | movi u _ hw =>
    obtain ⟨-, rfl⟩ := memWrite_ok hw
    rw [finishMove_eq]
    exact ⟨hh, hl, finishMove_irq_lt (Nat.zero_le _) hirq⟩
  | movo r _ _ _ hn =>
    rw [finishMove_eq]
    exact ⟨hh, hl, finishMove_irq_lt hn hirq⟩
  | rld r _ hn => exact ⟨hh, hl, reloadRing_irq_lt hn hirq⟩
  | stw =>
    rw [storeWord_eq]
    exact hs
  | deint => exact ⟨hh, deintBuffers_lt _ _ _ _, hirq⟩
  | hsh =>
    exact ⟨forall_mem_modify hh fun row hrow =>
      historyRange_shiftWindow (hh row (List.mem_of_getElem? hrow)), hl, hirq⟩
  | hpu => exact ⟨historyRange_fileSet hh (prescale_range _), hl, hirq⟩
  | expand => exact dataGood_of_eq hs (by simp) (by simp) (by simp) (by simp)
  | _ => exact hs

/-- Settles O47: PRESCALE, a line buffer's FB bits and the pending bits of existing rings bound what is
written. -/
theorem everyStepKeepsTheDataGood : Obligations.EveryStepKeepsTheDataGood :=
  fun _ _ hc hs h =>
    step_keeps_of_valid (fun _ _ _ _ _ hu => hu) (fun _ tn hu => present_dataGood tn hu)
      (fun _ _ _ _ _ _ hu _ _ he => he.dataGood hu) (fun _ hu => raiseFault_dataGood _ hu)
      (fun u _ => resetWith_dataGood u.cfg (u.epoch + 1)) hc hs h

/-! ### The reset state -/

theorem resetWith_memGood (c : Cfg) (epoch : Nat) : (State.resetWith c epoch).memGood :=
  ⟨List.Pairwise.nil, fun _ h => absurd h List.not_mem_nil⟩

/-- No ring is enabled after reset, so no ring engine has a step (rule R290). -/
theorem resetWith_fetch_ring (c : Cfg) (epoch : Nat) (r : BitVec 4) (w : Word) :
    (State.resetWith c epoch).fetch (.ring r w) = none := by
  have hen : ((State.resetWith c epoch).ringAt r.toNat).en = false := by
    unfold State.ringAt
    rw [List.getD_eq_getElem?_getD]
    cases hg : (State.resetWith c epoch).rings[r.toNat]? with
    | none => rfl
    | some g => rw [List.eq_of_mem_replicate (List.mem_of_getElem? hg)]; rfl
  simp [State.fetch, State.ringNext, hen]

/-- The block is neither armed nor busy after reset, so the sequencer has no step (rule R290). -/
theorem resetWith_fetch_seq (c : Cfg) (epoch : Nat) (d : Word) :
    (State.resetWith c epoch).fetch (.seq d) = none := rfl

/-- Settles O49, invariant by invariant; the configuration of the machine's own reset state is TC-S. -/
theorem everyResetStateIsGood : Obligations.EveryResetStateIsGood :=
  ⟨fun c epoch _ => ⟨resetWith_shaped c epoch, resetWith_ringsGood c epoch,
      resetWith_controlGood c epoch, resetWith_dataGood c epoch, resetWith_memGood c epoch,
      resetWith_fetch_ring c epoch, resetWith_fetch_seq c epoch⟩,
    Cfg.tcS, by decide, rfl⟩

/-- Settles O20: SRST and the reset input both run `State.toReset`. -/
theorem srstGivesTheResetState : Obligations.SrstGivesTheResetState := by
  refine ⟨fun s hi =>
      ⟨s.toReset.answerOk 0, hostAnyOp_run (fun s => s.toReset.answerOk 0) hi, ?_, rfl, rfl, rfl⟩,
    fun s rest ht => ⟨State.toReset { s with turns := rest }, ?_, ?_, rfl⟩⟩
  · exact ⟨rfl, rfl, rfl, rfl, rfl, rfl, rfl, rfl, rfl, rfl, rfl, rfl,
      answerOk_shaped 0 (toReset_shaped s), rfl, rfl⟩
  · rw [step_of_turns ht]
    rfl
  · exact ⟨rfl, rfl, rfl, rfl, rfl, rfl, rfl, rfl, rfl, rfl, rfl, rfl,
      toReset_shaped _, rfl, rfl⟩

/-! ### A whole pass -/

/-- The sequencer completes every operation of the body of its pass (rules R160, R260). -/
theorem PassOp.completes {s : State} {i : Instr} (h : PassOp s.cfg i) (hc : s.cfg.Valid)
    (hi : s.issuer = .seq) : ∃ t, exec i s = .next t := by
  have hl := h.wellFormed hc
  cases h with
  | probe r =>
    refine ⟨probeRing (BitVec.ofNat 4 r).toNat s, ?_⟩
    change execProbe _ s = _
    simp only [execProbe, hi]
    exact seqOp_run _ hi hl
  | ldw | deint | asm | hsh | hpu | clr | mac | sat | shl | stw =>
    simp only [exec, execLdw, execDeint, execAsm, execHsh, execHpu, execClr, execMac, execSat, execShl,
      execStw]
    exact ⟨_, seqOp_run _ hi hl⟩

/-- ENTER of the sequencer (rules R161, R273). -/
theorem exec_enter_seq {s : State} (hi : s.issuer = .seq) :
    exec .enter s =
      .next { (s.emit (.statEntry s.draw)) with irq := clearPend s.irq 0, busy := true, upc := 1 } := by
  change execEnter s = _
  rw [execEnter, seqOp_run _ hi rfl]

/-- LEAVE of the sequencer (rules R165, R274). -/
theorem exec_leave_seq {s : State} (hi : s.issuer = .seq) :
    exec .leave s = .next { (s.emit (.statExit s.draw)) with busy := false, upc := 0 } := by
  change execLeave s = _
  rw [execLeave, seqOp_run _ hi rfl]

/-- A laid-down turn of an enabled sequencer runs PASSPROG's operation at UPC (rules R13, R160). -/
theorem step_of_seq_turn {s : State} {d : Word} {rest : List Turn} {i : Instr}
    (ht : s.turns = .seq d :: rest) (hen : s.seqEnabled = true)
    (hp : (passProg s.cfg)[s.upc.toNat]? = some i) :
    step s = exec i { s with turns := rest, issuer := .seq, draw := d } := by
  have hf : State.fetch { s with turns := rest } (.seq d) = some (encode i) :=
    seqWord_eq_some_iff.2 ⟨hen, i, hp, rfl⟩
  rw [step_of_turns ht, runTurn_of_fetch hf, runWord_of_decode _ (decode_encode i)]
  rfl

theorem coreRun_succ (M : Host.Core) {s t : M.State} (n : Nat) (h : M.step s = .next t) :
    M.run (n + 1) s = M.run n t := by
  simp [Host.Core.run, h]

/-- In a pass that began in `s₀` with timestamp `t0`, the operation at UPC is the next, only sequencer turns
with the draws `ds` are laid down, and no ring has been touched. -/
structure InPass (s₀ : State) (t0 : Word) (ds : List Word) (s : State) : Prop where
  cfg : s.cfg = s₀.cfg
  busy : s.busy = true
  upc_pos : s.upc.toNat ≠ 0
  upc : s.upc.toNat + ds.length = s₀.cfg.plen
  irq : s.irq.getLsbD 0 = false
  rings : s.rings = s₀.rings
  turns : s.turns = ds.map Turn.seq
  events : s.events = .statEntry t0 :: s₀.events

/-- What a pass that began in `s₀` with timestamp `t0` and ended at `t1` leaves (rules R165, R255). -/
def passEnded (s₀ : State) (t0 t1 : Word) (t : State) : Prop :=
  t.busy = false ∧ t.upc = 0 ∧ t.irq.getLsbD 0 = false ∧ t.rings = s₀.rings ∧ t.turns = [] ∧
    t.events = .statExit t1 :: .statEntry t0 :: s₀.events

/-- ENTER begins a pass and consumes the pending completion (rule R161). -/
theorem step_enter {s : State} {d : Word} {ds : List Word} (harm : s.armed = true)
    (hirq : s.irq.getLsbD 0 = true) (hupc : s.upc = 0) (ht : s.turns = (d :: ds).map Turn.seq)
    (hlen : (d :: ds).length = s.cfg.plen) :
    ∃ t, step s = .next t ∧ InPass s d ds t := by
  have hen : s.seqEnabled = true := by simp [State.seqEnabled, State.pend, harm, hirq]
  have hp : (passProg s.cfg)[s.upc.toNat]? = some .enter :=
    (passProg_getElem?_enter _ _).2 (by simp [hupc])
  refine ⟨_, (step_of_seq_turn ht hen hp).trans (exec_enter_seq rfl), ?_⟩
  refine ⟨rfl, rfl, by simp, ?_, by simp [clearPend], rfl, rfl, rfl⟩
  simpa [Nat.add_comm] using hlen

/-- An operation between ENTER and LEAVE takes the pass on (rule R160). -/
theorem InPass.step_on {s₀ s : State} {t0 d d' : Word} {ds : List Word} (hc : s₀.cfg.Valid)
    (h : InPass s₀ t0 (d :: d' :: ds) s) : ∃ t, step s = .next t ∧ InPass s₀ t0 (d' :: ds) t := by
  have hlen := h.upc
  simp only [List.length_cons] at hlen
  have hlt : s.upc.toNat < (passProg s.cfg).length := by
    rw [passProg_length, h.cfg]
    omega
  have hp := List.getElem?_eq_getElem hlt
  have hop : PassOp s.cfg _ := passOp_of_getElem? hp h.upc_pos (by rw [h.cfg]; omega)
  have hen : s.seqEnabled = true := by simp [State.seqEnabled, h.busy]
  have hcs : s.cfg.Valid := h.cfg.symm ▸ hc
  obtain ⟨t, ht⟩ := PassOp.completes
    (s := { s with turns := (d' :: ds).map Turn.seq, issuer := .seq, draw := d }) hop hcs rfl
  have hsucc : (s.upc + 1).toNat = s.upc.toNat + 1 := upc_succ_toNat hc (by omega)
  have hframe := (exec_effect ht).pass_frame rfl hop.ne_enter hop.ne_leave
  refine ⟨t, (step_of_seq_turn h.turns hen hp).trans ht, ?_⟩
  rw [hframe]
  refine ⟨h.cfg, h.busy, ?_, ?_, h.irq, h.rings, rfl, h.events⟩
  · change (s.upc + 1).toNat ≠ 0
    omega
  · change (s.upc + 1).toNat + (ds.length + 1) = s₀.cfg.plen
    omega

/-- LEAVE ends the pass (rule R165). -/
theorem InPass.step_leave {s₀ s : State} {t0 d : Word} (h : InPass s₀ t0 [d] s) :
    ∃ t, step s = .next t ∧ passEnded s₀ t0 d t := by
  have hen : s.seqEnabled = true := by simp [State.seqEnabled, h.busy]
  have hp : (passProg s.cfg)[s.upc.toNat]? = some .leave :=
    (passProg_getElem?_leave _ _).2 (by rw [passProg_length, h.cfg]; exact h.upc)
  refine ⟨_, (step_of_seq_turn h.turns hen hp).trans (exec_leave_seq rfl), ?_⟩
  exact ⟨rfl, rfl, h.irq, h.rings, rfl, congrArg (_ :: ·) h.events⟩

/-- A pass in which only the sequencer steps runs to its end. -/
theorem InPass.run {s₀ : State} {t0 d : Word} {ds : List Word} (hc : s₀.cfg.Valid) {s : State}
    (h : InPass s₀ t0 (d :: ds) s) :
    ∃ t t1, Host.Core.run Sys2Proof.core (d :: ds).length s = .next t ∧
      (d :: ds).getLast? = some t1 ∧ passEnded s₀ t0 t1 t := by
  induction ds generalizing d s with
  | nil =>
    obtain ⟨t, ht, hend⟩ := h.step_leave
    exact ⟨t, d, coreRun_succ Sys2Proof.core 0 ht, rfl, hend⟩
  | cons d' ds ih =>
    obtain ⟨u, hu, hin⟩ := h.step_on hc
    obtain ⟨t, t1, hrun, hlast, hend⟩ := ih hin
    exact ⟨t, t1, (coreRun_succ Sys2Proof.core _ hu).trans hrun, by rwa [List.getLast?_cons_cons], hend⟩

/-- Settles O60: ENTER, then the body of the pass, then LEAVE. -/
theorem passCompletesInPlenSteps : Obligations.PassCompletesInPlenSteps := by
  intro s ds hc _ _ _ _ hupc harm hirq hlen ht
  have hplen : 2 ≤ s.cfg.plen := by unfold Cfg.plen; omega
  match ds with
  | [] => simp at hlen; omega
  | [_] => simp at hlen; omega
  | d :: d' :: ds =>
    obtain ⟨u, hu, hin⟩ := step_enter harm hirq hupc ht hlen
    obtain ⟨t, t1, hrun, hlast, hbusy, hupc', hirq', hrings, hturns, hevents⟩ := hin.run hc
    refine ⟨t, ?_, hbusy, hupc', hirq', hrings, hturns, d, t1, rfl, ?_, hevents⟩
    · rw [← hlen]
      exact (coreRun_succ Sys2Proof.core _ hu).trans hrun
    · rwa [List.getLast?_cons_cons]

/-! ### The register map (rule R34) -/

/-- The byte offset of a ring register inside its ring's block (rule R34). -/
def RingReg.offset : RingReg → Nat
  | .addrA => 0x00
  | .addrB => 0x04
  | .len => 0x08
  | .rctrl => 0x0C
  | .cur => 0x10
  | .rem => 0x14
  | .rstat => 0x18

theorem RingReg.offset_lt (f : RingReg) : f.offset < 0x20 := by
  cases f <;> decide

@[simp] theorem ringRegAt_offset (f : RingReg) : ringRegAt f.offset = some f := by
  cases f <;> rfl

theorem ringRegAt_eq_some {n : Nat} {f : RingReg} (h : ringRegAt n = some f) : n = f.offset := by
  unfold ringRegAt at h
  split at h <;> cases h <;> rfl

/-- The offset of a register, where the map places it. -/
def Reg.offset : Reg → Nat
  | .ctrl => 0x000
  | .irq => 0x004
  | .fault => 0x008
  | .faultOp => 0x00C
  | .upc => 0x010
  | .ring r f => 0x100 + 0x20 * r + f.offset

/-- The map places a register of ring `r` in the ring's block of 0x20 bytes. -/
theorem regAt_ring {c : Cfg} {r : Nat} (f : RingReg) (hr : r ≤ c.nout) :
    regAt c (0x100 + 0x20 * r + f.offset) = some (.ring r f) := by
  have hf := f.offset_lt
  have hdiv : (0x100 + 0x20 * r + f.offset - 0x100) / 0x20 = r := by omega
  have hmod : (0x100 + 0x20 * r + f.offset - 0x100) % 0x20 = f.offset := by omega
  unfold regAt
  rw [if_neg (by omega), hdiv, hmod, if_pos hr, ringRegAt_offset]
  rfl

/-- A mapped offset is the offset of the register it names, and a ring register's ring exists. -/
theorem regAt_eq_some {c : Cfg} {off : Nat} {reg : Reg} (h : regAt c off = some reg) :
    off = reg.offset ∧ ∀ r f, reg = .ring r f → r ≤ c.nout := by
  unfold regAt at h
  split at h
  · split at h <;> cases h <;> exact ⟨rfl, fun _ _ => Reg.noConfusion⟩
  · rename_i hlow
    split at h
    · rename_i hring
      obtain ⟨f, hf, rfl⟩ := Option.map_eq_some_iff.1 h
      have hoff := ringRegAt_eq_some hf
      refine ⟨?_, fun r f' hreg => ?_⟩
      · simp only [Reg.offset]
        omega
      · cases hreg
        exact hring
    · cases h

/-- The 12-bit offset of a register of a ring that exists (rule R93). -/
theorem ringOffset_toNat {r k : Nat} (hr : r ≤ 15) (hk : k < 0x20) :
    (BitVec.ofNat 12 (0x100 + 0x20 * r + k)).toNat = 0x100 + 0x20 * r + k := by
  rw [BitVec.toNat_ofNat]
  omega

/-! ### RDREG and WRREG -/

/-- RDREG of a mapped register (rule R121). -/
theorem exec_rdreg_mapped {s : State} {off : BitVec 12} {reg : Reg} (hi : s.issuer = .host)
    (hr : regAt s.cfg off.toNat = some reg) :
    exec (.rdreg off) s = .next (s.answerOk (readReg s reg)) := by
  change execRdreg off s = _
  rw [execRdreg, hostAnyOp_run _ hi, hr]

/-- RDREG of an offset that the map does not hold (rules R121, R269). -/
theorem exec_rdreg_unmapped {s : State} {off : BitVec 12} (hi : s.issuer = .host)
    (hr : regAt s.cfg off.toNat = none) :
    exec (.rdreg off) s = .next (raiseFault .badReg s) := by
  change execRdreg off s = _
  rw [execRdreg, hostAnyOp_run _ hi, hr]

/-- RDREG of a ring register (rules R39 to R45, R121). -/
theorem exec_rdreg_ring {s : State} {r : Nat} {g : Ring} (f : RingReg) (hi : s.issuer = .host)
    (hn : s.cfg.nout ≤ 15) (hr : r ≤ s.cfg.nout) (hg : s.rings[r]? = some g) :
    exec (.rdreg (BitVec.ofNat 12 (0x100 + 0x20 * r + f.offset))) s =
      .next (s.answerOk (readRingReg r g f)) := by
  have hoff := ringOffset_toNat (hr.trans hn) f.offset_lt
  rw [exec_rdreg_mapped hi (reg := .ring r f) (by rw [hoff]; exact regAt_ring f hr), readReg,
    ringAt_of_getElem? hg]

/-- CTRL as the host reads it, bit by bit (rule R35). -/
theorem ctrlWord_bits (s : State) :
    s.ctrlWord = 0#28 ++ BitVec.ofBool s.halt ++ BitVec.ofBool s.busy ++ BitVec.ofBool s.armed ++
      BitVec.ofBool s.started := by
  unfold State.ctrlWord
  cases s.halt <;> cases s.busy <;> cases s.armed <;> cases s.started <;> rfl

/-- RSTAT as the host reads it, bit by bit (rule R45). -/
theorem rstatWord_bits (g : Ring) :
    rstatWord g = 0#29 ++ BitVec.ofBool g.cfgd ++ BitVec.ofBool (decide (g.next = .b)) ++
      BitVec.ofBool g.en := by
  unfold rstatWord
  cases g.cfgd <;> cases g.next <;> cases g.en <;> rfl

/-- RCTRL as the host reads it, bit by bit (rule R42). -/
theorem rctrlWord_bits (r : Nat) (g : Ring) :
    rctrlWord r g = 0#24 ++ g.pace ++ 0#2 ++ BitVec.ofBool g.irqen ++
      BitVec.ofBool (decide (r ≠ 0)) := by
  unfold rctrlWord dirBit
  generalize g.pace = pace
  cases g.irqen <;> cases decide (r ≠ 0) <;> revert pace <;> decide

theorem irqMask_getLsbD {c : Cfg} (hn : c.nout ≤ 15) (i : Nat) :
    (irqMask c).getLsbD i = decide (i ≤ c.nout) := by
  unfold irqMask
  rw [BitVec.getLsbD_ofNat, Nat.testBit_two_pow_sub_one]
  by_cases h : i ≤ c.nout
  · simp [h, show i < 32 by omega, show i < c.nout + 1 by omega]
  · simp [h, show ¬ i < c.nout + 1 by omega]

/-- Settles O12: the map names the register, and each word is read bit by bit. -/
theorem rdregAnswersTheRegister : Obligations.RdregAnswersTheRegister := by
  intro s hi hn
  refine ⟨?ctrl, ⟨s.irqWord, exec_rdreg_mapped hi (reg := .irq) rfl, fun i => ?irq⟩, ?fault,
    exec_rdreg_mapped hi (reg := .faultOp) rfl, exec_rdreg_mapped hi (reg := .upc) rfl,
    fun r g hr hg => ?ring⟩
  case ctrl => rw [exec_rdreg_mapped hi (reg := .ctrl) rfl, readReg, ctrlWord_bits]; rfl
  case irq => rw [State.irqWord, BitVec.getLsbD_and, irqMask_getLsbD hn, Bool.and_comm]
  case fault =>
    rw [exec_rdreg_mapped hi (reg := .fault) rfl, readReg, BitVec.setWidth_eq_append (by decide)]; rfl
  case ring =>
    have read := fun f => exec_rdreg_ring f hi hn hr hg
    refine ⟨read .addrA, read .addrB, (read .len).trans ?_, (read .rctrl).trans ?_, read .cur,
      (read .rem).trans ?_, (read .rstat).trans ?_⟩
    · rw [readRingReg, BitVec.setWidth_eq_append (by decide)]; rfl
    · rw [readRingReg, rctrlWord_bits]; rfl
    · rw [readRingReg, BitVec.setWidth_eq_append (by decide)]; rfl
    · rw [readRingReg, rstatWord_bits]; rfl

/-- WRREG of IRQ (rules R36, R122). -/
theorem exec_wrreg_irq {s : State} {off : BitVec 12} (hi : s.issuer = .host) (hh : s.halt = false)
    (hr : regAt s.cfg off.toNat = some .irq) :
    exec (.wrreg off) s =
      .next ({ s with irq := writeIrq s.cfg s.irq s.wdata }.answerOk 0) := by
  change execWrreg off s = _
  rw [execWrreg, hostOp_run _ hi hh, hr]

/-- WRREG of a control register other than IRQ, all read-only (rules R122, R269). -/
theorem exec_wrreg_control {s : State} {off : BitVec 12} {reg : Reg} (hi : s.issuer = .host)
    (hh : s.halt = false) (hr : regAt s.cfg off.toNat = some reg) (hirq : reg ≠ .irq)
    (hring : ∀ r f, reg ≠ .ring r f) :
    exec (.wrreg off) s = .next (raiseFault .badReg s) := by
  change execWrreg off s = _
  rw [execWrreg, hostOp_run _ hi hh, hr]
  cases reg with
  | irq => exact absurd rfl hirq
  | ring r f => exact absurd rfl (hring r f)
  | ctrl | fault | faultOp | upc => rfl

/-- WRREG of an offset that the map does not hold (rules R122, R269). -/
theorem exec_wrreg_unmapped {s : State} {off : BitVec 12} (hi : s.issuer = .host)
    (hh : s.halt = false) (hr : regAt s.cfg off.toNat = none) :
    exec (.wrreg off) s = .next (raiseFault .badReg s) := by
  change execWrreg off s = _
  rw [execWrreg, hostOp_run _ hi hh, hr]

/-- WRREG of a ring register (rule R122). -/
theorem exec_wrreg_ring {s : State} {off : BitVec 12} {r : Nat} {f : RingReg} (hi : s.issuer = .host)
    (hh : s.halt = false) (hr : regAt s.cfg off.toNat = some (.ring r f)) :
    exec (.wrreg off) s = .next (writeRing r f s) := by
  change execWrreg off s = _
  rw [execWrreg, hostOp_run _ hi hh, hr]

/-- A write of a stopped ring's configuration register (rules R39 to R42, R122). -/
theorem writeRing_stopped {s : State} {r : Nat} {f : RingReg} {g g' : Ring}
    (hg : s.rings[r]? = some g) (hw : writeRingReg s.wdata g f = some g') (hen : g.en = false) :
    writeRing r f s = { s with rings := s.rings.set r g' }.answerOk 0 := by
  unfold writeRing
  rw [ringAt_of_getElem? hg, hw]
  simp [hen, State.modifyRing, modify_eq_set_of_getElem? _ hg]

/-- No register of an enabled ring is written (rules R122, R269). -/
theorem writeRing_enabled {s : State} {r : Nat} (f : RingReg) {g : Ring}
    (hg : s.rings[r]? = some g) (hen : g.en = true) : writeRing r f s = raiseFault .badReg s := by
  unfold writeRing
  rw [ringAt_of_getElem? hg]
  split
  · rfl
  · rw [if_pos hen]

/-- A read-only register of a ring is not written (rules R122, R269). -/
theorem writeRing_readOnly {s : State} {r : Nat} {f : RingReg}
    (hf : ∀ g, writeRingReg s.wdata g f = none) : writeRing r f s = raiseFault .badReg s := by
  unfold writeRing
  rw [hf]

/-- A register of a ring by its 12-bit offset (rules R34, R93). -/
theorem regAt_of_ringOffset {c : Cfg} {off : BitVec 12} {r : Nat} (f : RingReg) (hr : r ≤ c.nout)
    (hoff : off.toNat = 0x100 + 0x20 * r + f.offset) : regAt c off.toNat = some (.ring r f) := by
  rw [hoff]
  exact regAt_ring f hr

theorem writeIrq_getLsbD {c : Cfg} (hn : c.nout ≤ 15) (irq data : Word) (i : Nat) :
    (writeIrq c irq data).getLsbD i =
      (irq.getLsbD i && !(decide (i ≤ c.nout) && data.getLsbD i)) := by
  unfold writeIrq
  rw [BitVec.getLsbD_and, BitVec.getLsbD_not, BitVec.getLsbD_and, irqMask_getLsbD hn,
    Bool.and_comm (data.getLsbD i)]
  by_cases hi : i < 32
  · simp [hi]
  · simp [BitVec.getLsbD_of_ge irq i (by omega)]

/-- Settles O13: the map names the register, and what WRREG writes of it is said field by field. -/
theorem wrregWritesTheRegister : Obligations.WrregWritesTheRegister := by
  intro s hi hh hn
  refine ⟨⟨_, exec_wrreg_irq hi hh rfl, writeIrq_getLsbD hn s.irq s.wdata⟩, fun r g hr hg hen => ?_⟩
  have write : ∀ (f : RingReg) (g' : Ring), writeRingReg s.wdata g f = some g' →
      exec (.wrreg (BitVec.ofNat 12 (0x100 + 0x20 * r + f.offset))) s =
        .next ({ s with rings := s.rings.set r g' }.answerOk 0) := fun f g' hw => by
    have hoff := ringOffset_toNat (hr.trans hn) f.offset_lt
    rw [exec_wrreg_ring hi hh (regAt_of_ringOffset f hr hoff), writeRing_stopped hg hw hen]
  refine ⟨write .addrA _ rfl, write .addrB _ rfl, (write .len _ rfl).trans ?_, write .rctrl _ rfl⟩
  rw [BitVec.setWidth_eq_extractLsb' (by decide)]
  rfl

/-- What the map does not hold is not named (rule R34). -/
theorem regAt_eq_none {c : Cfg} {off : Nat} (hlow : off ∉ [0x000, 0x004, 0x008, 0x00C, 0x010])
    (hring : ∀ r k, r ≤ c.nout → k ∈ [0x00, 0x04, 0x08, 0x0C, 0x10, 0x14, 0x18] →
      off ≠ 0x100 + 0x20 * r + k) : regAt c off = none := by
  refine Option.eq_none_iff_forall_ne_some.2 fun reg h => ?_
  obtain ⟨rfl, hr⟩ := regAt_eq_some h
  cases reg with
  | ring r f => exact hring r f.offset (hr r f rfl) (by cases f <;> decide) rfl
  | ctrl | irq | fault | faultOp | upc => exact hlow (by decide)

/-- Settles O14: what the map does not hold, what is read-only, and an enabled ring, in turn. -/
theorem badRegisterAccessFaults : Obligations.BadRegisterAccessFaults := by
  intro s hi _
  refine ⟨fun off hlow hring => ?unmapped, fun hh => ⟨fun off hoff => ?readOnly,
    fun off r k hr hk hoff => ?readOnlyRing, fun off r k g hr hk hoff hg hen => ?enabled⟩⟩
  case unmapped =>
    have hnone := regAt_eq_none (c := s.cfg) hlow hring
    exact ⟨exec_rdreg_unmapped hi hnone, fun hh => exec_wrreg_unmapped hi hh hnone⟩
  case readOnly =>
    have control : ∀ {reg : Reg}, reg ≠ .irq → (∀ r f, reg ≠ .ring r f) →
        off.toNat = reg.offset → regAt s.cfg reg.offset = some reg →
        exec (.wrreg off) s = .next (raiseFault .badReg s) :=
      fun hirq hring h hr => exec_wrreg_control hi hh (h ▸ hr) hirq hring
    simp only [List.mem_cons, List.not_mem_nil, or_false] at hoff
    obtain h | h | h | h := hoff
    · exact control (reg := .ctrl) Reg.noConfusion (fun _ _ => Reg.noConfusion) h rfl
    · exact control (reg := .fault) Reg.noConfusion (fun _ _ => Reg.noConfusion) h rfl
    · exact control (reg := .faultOp) Reg.noConfusion (fun _ _ => Reg.noConfusion) h rfl
    · exact control (reg := .upc) Reg.noConfusion (fun _ _ => Reg.noConfusion) h rfl
  case readOnlyRing =>
    have readOnly : ∀ f : RingReg, (∀ g, writeRingReg s.wdata g f = none) → k = f.offset →
        exec (.wrreg off) s = .next (raiseFault .badReg s) := fun f hf hk => by
      rw [exec_wrreg_ring hi hh (regAt_of_ringOffset f hr (hk ▸ hoff)), writeRing_readOnly hf]
    simp only [List.mem_cons, List.not_mem_nil, or_false] at hk
    obtain rfl | rfl | rfl := hk
    · exact readOnly .cur (fun _ => rfl) rfl
    · exact readOnly .rem (fun _ => rfl) rfl
    · exact readOnly .rstat (fun _ => rfl) rfl
  case enabled =>
    have enabled : ∀ f : RingReg, k = f.offset →
        exec (.wrreg off) s = .next (raiseFault .badReg s) := fun f hk => by
      rw [exec_wrreg_ring hi hh (regAt_of_ringOffset f hr (hk ▸ hoff)), writeRing_enabled f hg hen]
    simp only [List.mem_cons, List.not_mem_nil, or_false] at hk
    obtain rfl | rfl | rfl | rfl := hk
    · exact enabled .addrA rfl
    · exact enabled .addrB rfl
    · exact enabled .len rfl
    · exact enabled .rctrl rfl

end Sys2Proof.Machine

/-! SUPPORT. The statements of the family 20_memory.md: the host's path to MEM, the canonical form of MEM,
the agents without a failing case, and what the operations of a channel leave in MEM. -/

namespace Sys2Proof.Machine

/-! ### The host's path to MEM (rule R74) -/

theorem hostRead_inside {s : State} {a : Word} (ha : a.toNat % 4 = 0)
    (hm : a.toNat + 4 ≤ s.cfg.memSize) :
    hostRead a s = .next { s with mdata := s.wordAt a.toNat } :=
  orStop_memRead _ ha hm

theorem hostWrite_inside {s : State} {a v : Word} (ha : a.toNat % 4 = 0)
    (hm : a.toNat + 4 ≤ s.cfg.memSize) :
    hostWrite a v s = .next { s with mem := setWord s.mem a.toNat v } :=
  orStop_memWrite _ ha hm

/-- Settles O21: each of the two is one access to MEM, after which the laws of a word write speak. -/
theorem hostPathReadsAndWritesWords : Obligations.HostPathReadsAndWritesWords := by
  intro s a v rest ha hm
  refine ⟨fun ht => ?read, fun ht => ⟨_, ?write, rfl, ?_, fun x hx => ?_⟩⟩
  case read =>
    rw [step_of_turns ht]
    exact hostRead_inside ha hm
  case write =>
    rw [step_of_turns ht]
    exact hostWrite_inside ha hm
  · exact wordAt_setWord { s with turns := rest } a.toNat v
  · exact byteAt_setWord_outside { s with turns := rest } v hx

/-! ### MEM in canonical form (rules R60, R63) -/

/-- Whether MEM is good depends on MEM and on MEMSIZE alone. -/
theorem memGood_of_eq {s t : State} (hs : s.memGood) (hc : t.cfg = s.cfg) (hm : t.mem = s.mem) :
    t.memGood := by
  unfold State.memGood
  rw [hc, hm]
  exact hs

theorem toReset_memGood (s : State) : s.toReset.memGood :=
  memGood_of_eq (resetWith_memGood s.cfg (s.epoch + 1)) rfl rfl

/-- The operations that write MEM are MOVI and STW, each with a word write inside MEM, and SRST, which
empties the list; every other operation leaves MEM. -/
theorem Effect.memGood {s t : State} {i : Instr} (he : Effect s i t) (hs : s.memGood) :
    t.memGood := by
  cases he with
  | movi u _ hw =>
    rw [finishMove_eq]
    exact memGood_of_eq (memWrite_memGood hs hw) rfl rfl
  | stw p ch m => exact memGood_of_eq (storeWord_memGood hs _ _) rfl rfl
  | srst => exact toReset_memGood s
  | faults i code => exact memGood_of_eq hs (by simp) (by simp)
  | movo =>
    rw [finishMove_eq]
    exact hs
  | expand => exact memGood_of_eq hs (by simp) (by simp)
  | _ => exact hs

/-- Settles O48: a step writes MEM by MemWrite inside MEM or empties it. -/
theorem everyStepKeepsTheMemoryGood : Obligations.EveryStepKeepsTheMemoryGood := by
  intro s t hs h
  refine step_keeps (P := State.memGood) (fun _ _ _ hu => hu)
    (fun u tn _ _ _ hu _ _ he => he.memGood (memGood_of_eq hu ?_ ?_))
    (fun u _ _ hu => memGood_of_eq hu ?_ ?_) (fun _ _ hu => hu)
    (fun _ _ _ _ hu hw => memWrite_memGood hu hw) (fun u _ => toReset_memGood u) hs h
  all_goals simp

/-! ### The steps of the rings and of the sequencer -/

/-- An enabled ring stands in the ring file: a ring that does not reads as after reset. -/
theorem getElem?_rings_of_en {s : State} {r : Nat} (h : (s.ringAt r).en = true) :
    s.rings[r]? = some (s.ringAt r) := by
  cases hg : s.rings[r]? with
  | none =>
    rw [State.ringAt, List.getD_eq_getElem?_getD, hg] at h
    cases h
  | some g => rw [ringAt_of_getElem? hg]

/-- What a ring engine fetches is a move of its own: MOVI of the capture ring, MOVO of a playback ring,
or the reload that is due with REM = 0 (rules R140 to R143; log 9). -/
theorem ringNext_eq_some {s : State} {r : BitVec 4} {i : Instr} (h : s.ringNext r = some i) :
    r.toNat ≤ s.cfg.nout ∧ (s.ringAt r.toNat).en = true ∧
      (((s.ringAt r.toNat).rem = 0 ∧ i = .rld r) ∨
        (r = 0 ∧ i = .movi r) ∨ (1 ≤ r.toNat ∧ i = .movo r)) := by
  simp only [State.ringNext, Bool.not_and, Bool.or_eq_true, Bool.not_eq_true'] at h
  split at h
  · cases h
  rename_i hgo
  obtain ⟨hl, hen⟩ : ringLegal s.cfg r = true ∧ (s.ringAt r.toNat).en = true := by
    simpa [not_or] using hgo
  refine ⟨by simpa [ringLegal] using hl, hen, ?_⟩
  split at h
  · exact .inl ⟨‹_›, (Option.some.inj h).symm⟩
  split at h
  · exact .inr (.inl ⟨‹_›, (Option.some.inj h).symm⟩)
  · rename_i hr
    refine .inr (.inr ⟨?_, (Option.some.inj h).symm⟩)
    exact Nat.one_le_iff_ne_zero.2 fun h0 => hr (BitVec.eq_of_toNat_eq h0)

/-- CUR of a configured ring is an aligned word of MEM (rules R62, R63, R144). -/
theorem Ring.descriptorsGood.cur_inside {c : Cfg} {r : Nat} {g : Ring}
    (h : g.descriptorsGood c r) : g.cur.toNat % 4 = 0 ∧ g.cur.toNat + 4 ≤ c.memSize := by
  obtain ⟨halign, hrange⟩ := h.movingBase_accepted
  obtain ⟨hlen, -, -, -, hpos, hrem, hcur⟩ := h
  have hbase : g.movingBase.toNat % 4 = 0 :=
    Nat.mod_eq_zero_of_dvd ((Nat.dvd_mul_right 4 _).trans (Nat.dvd_of_mod_eq_zero halign))
  omega

/-- A ring engine completes the operation it fetches when its descriptors are good: the word at CUR lies
in MEM (rules R63, R140). -/
theorem exec_completes_of_ringNext {s : State} {r : BitVec 4} {w : Word} {i : Instr}
    (hs : s.ringsGood) (h : s.ringNext r = some i) :
    ∃ t, exec i (s.present (.ring r w)) = .next t := by
  obtain ⟨hn, hen, hop⟩ := ringNext_eq_some h
  have hg := getElem?_rings_of_en hen
  obtain ⟨hcf, hd⟩ := hs _ _ hg
  obtain ⟨halign, hin⟩ := (hd (hcf hen)).cur_inside
  rcases hop with ⟨hrem, -⟩ | ⟨rfl, rfl⟩ | ⟨h1, rfl⟩
  · obtain ⟨-, -, -, -, hpos, -⟩ := hd (hcf hen)
    simp [hrem] at hpos
  · exact ⟨_, (exec_movi_ring (s := s.present (.ring 0 w)) rfl hg).trans
      (orStop_memWrite _ halign hin)⟩
  · exact ⟨_, (exec_movo_ring (s := s.present (.ring r w)) rfl h1 hn hg).trans
      (orStop_memRead _ halign hin)⟩

/-- The sequencer completes every operation of its micro-program (rules R160, R260). -/
theorem exec_completes_of_mem_passProg {s : State} {i : Instr} (hc : s.cfg.Valid)
    (hi : s.issuer = .seq) (h : i ∈ passProg s.cfg) : ∃ t, exec i s = .next t := by
  rw [passProg_eq] at h
  rcases List.mem_cons.1 h with rfl | h
  · exact ⟨_, exec_enter_seq hi⟩
  rcases List.mem_append.1 h with h | h
  · exact (passOp_of_mem_passBody h).completes hc hi
  · obtain rfl := List.mem_singleton.1 h
    exact ⟨_, exec_leave_seq hi⟩

theorem runTurn_ring_completes {s : State} (r : BitVec 4) (w : Word) (hs : s.ringsGood) :
    ∃ t, runTurn (.ring r w) s = .next t := by
  cases h : s.ringNext r with
  | none => exact ⟨s, runTurn_ring_idle (by simp [State.fetch, h])⟩
  | some i =>
    have hf : s.fetch (.ring r w) = some (encode i) := by simp [State.fetch, h]
    rw [runTurn_of_fetch hf, runWord_of_decode _ (decode_encode i)]
    exact exec_completes_of_ringNext hs h

theorem runTurn_seq_completes {s : State} (d : Word) (hc : s.cfg.Valid) :
    ∃ t, runTurn (.seq d) s = .next t := by
  cases hf : s.fetch (.seq d) with
  | none => exact ⟨s, runTurn_seq_idle hf⟩
  | some w =>
    obtain ⟨i, hi, rfl⟩ := encode_of_seqWord hf
    rw [runTurn_of_fetch hf, runWord_of_decode _ (decode_encode i)]
    exact exec_completes_of_mem_passProg (s := s.present (.seq d)) hc rfl hi

/-- Settles O53: the step completes agent by agent, and O54 says that it leaves the fault record. -/
theorem ringAndSequencerStepsAlwaysComplete : Obligations.RingAndSequencerStepsAlwaysComplete := by
  intro s hc hturn
  have hstate := takeTurn_state s
  have hcompletes : ∃ t, step s = .next t := by
    unfold step
    obtain ⟨r, w, htn, hs⟩ | ⟨d, htn⟩ := hturn
    · rw [htn]
      exact runTurn_ring_completes r w (by rw [hstate]; exact hs)
    · rw [htn]
      exact runTurn_seq_completes d (by rw [hstate]; exact hc)
  obtain ⟨hnotHost, hnotReset⟩ :
      (∀ opw wdata, s.takeTurn.1 ≠ .host opw wdata) ∧ s.takeTurn.1 ≠ .reset := by
    obtain ⟨r, w, htn, -⟩ | ⟨d, htn⟩ := hturn <;> simp [htn]
  obtain ⟨t, ht⟩ := hcompletes
  exact ⟨t, ht, faultRecordIsTheHostsUntilReset s t ht hnotReset
    (fun opw wdata h => absurd h (hnotHost opw wdata)) (.inr hnotHost)⟩

/-! ### Where STW stores (rules R67, R164) -/

theorem accessStop_ne_none {c : Cfg} {a : Nat} (h : a % 4 ≠ 0 ∨ c.memSize < a + 4) :
    accessStop c a ≠ none := by
  rw [Ne, accessStop_none]
  omega

/-- Where MemWrite excludes the address, the place of the store is drawn (log 21). -/
theorem storePlace_drawn {s : State} {a : Nat} (ha : accessStop s.cfg a ≠ none)
    (hd : accessStop s.cfg s.draw.toNat = none) : s.storePlace a = some s.draw.toNat := by
  obtain ⟨f, hf⟩ := Option.ne_none_iff_exists'.1 ha
  simp [State.storePlace, hf, hd]

/-- A drawn place that MemWrite excludes too is no place (log 21). -/
theorem storePlace_nowhere {s : State} {a : Nat} (ha : accessStop s.cfg a ≠ none)
    (hd : accessStop s.cfg s.draw.toNat ≠ none) : s.storePlace a = none := by
  obtain ⟨f, hf⟩ := Option.ne_none_iff_exists'.1 ha
  obtain ⟨g, hg⟩ := Option.ne_none_iff_exists'.1 hd
  simp [State.storePlace, hf, hg]

theorem storeWord_of_place {s : State} {a b : Nat} (v : Word) (h : s.storePlace a = some b) :
    s.storeWord a v = { s with mem := setWord s.mem b v } := by
  simp [State.storeWord, h]

theorem storeWord_nowhere {s : State} {a : Nat} (v : Word) (h : s.storePlace a = none) :
    s.storeWord a v = s := by
  simp [State.storeWord, h]

/-- The address STW computes, from the entries of OUTMAP and BASE it uses (rules R67, R164). -/
theorem storeAddress_eq {s : State} (p : Phase) {ch : BitVec 7} (m : BitVec 8) {l q : Nat} {b : Word}
    (hout : s.cfg.outMap[ch.toNat]? = some (l, q)) (hb : s.base[1 + l]? = some b) :
    storeAddress p ch m s =
      b.toNat + 4 * ((2 * m.toNat + phaseIndex p) * s.cfg.ocpl + q) := by
  simp [storeAddress, outputIndex, Cfg.outOf, List.getD_eq_getElem?_getD, hout, hb]

/-- STW of the sequencer, whatever address it computes (rules R160, R164). -/
theorem exec_stw_seq {s : State} {p : Phase} {ch : BitVec 7} {m : BitVec 8} (hi : s.issuer = .seq)
    (hch : ch.toNat < s.cfg.channels) (hm : m.toNat < s.cfg.frames) :
    exec (.stw p ch m) s = .next (s.storeWord (storeAddress p ch m s) (s.y.get p)).advance := by
  change execStw p ch m s = _
  rw [execStw, seqOp_run _ hi (by simp [channelLegal, blockFrameLegal, hch, hm])]

/-- Settles O29: at the computed or the drawn place the store is one word write; with no place it is
nothing. -/
theorem stwPlacesTheOutputSample : Obligations.StwPlacesTheOutputSample := by
  intro s p ch m l q b hi hch hm hout hb stores a
  have haddr : storeAddress p ch m s = a := storeAddress_eq p m hout hb
  have hexec := haddr ▸ exec_stw_seq (p := p) hi hch hm
  have hstores : ∀ place, s.storePlace a = some place → stores place := fun place h => by
    rw [storeWord_of_place _ h] at hexec
    exact ⟨_, hexec, rfl, wordAt_setWord s place _, fun x hx => byteAt_setWord_outside s _ hx⟩
  refine ⟨fun halign hin => hstores a ?computed, fun hex hdalign hdin => hstores _ ?drawn,
    fun hex hdex => ?nowhere⟩
  case computed => exact storePlace_inside halign hin
  case drawn => exact storePlace_drawn (accessStop_ne_none hex) (accessStop_none.2 ⟨hdalign, hdin⟩)
  case nowhere =>
    rw [hexec, storeWord_nowhere _
      (storePlace_nowhere (accessStop_ne_none hex) (accessStop_ne_none hdex))]
    rfl

end Sys2Proof.Machine

namespace Sys2Proof

/-- An output slot lies inside its line's frame (rule R7). -/
theorem Cfg.Valid.outMap_slot_lt {c : Cfg} (h : c.Valid) {ch l q : Nat}
    (hout : c.outMap[ch]? = some (l, q)) : q < c.ocpl := by
  obtain ⟨-, -, -, -, -, -, -, -, -, -, -, -, -, -, -, ⟨-, -, hrange⟩, -⟩ := h
  exact (hrange (l, q) (List.mem_of_getElem? hout)).2

/-- A channel number fits the field CH (rule R97). -/
theorem Cfg.Valid.channel_toNat {c : Cfg} (h : c.Valid) {ch : Nat} (hch : ch < c.channels) :
    (BitVec.ofNat 7 ch).toNat = ch := by
  have := h.channels_le
  simp; omega

/-- A frame number fits the field M (rule R97). -/
theorem Cfg.Valid.frame_toNat {c : Cfg} (h : c.Valid) {m : Nat} (hm : m < c.frames) :
    (BitVec.ofNat 8 m).toNat = m := by
  have := h.frames_le
  simp; omega

/-- A tap number fits the field J (rule R97). -/
theorem Cfg.Valid.tap_toNat {c : Cfg} (h : c.Valid) {j : Nat} (hj : j < c.taps) :
    (BitVec.ofNat 8 j).toNat = j := by
  have := h.taps_le
  simp; omega

/-- An output sample in the clamp range, scaled, is an `i32` (rules R7, R234). -/
theorem Cfg.Valid.scaled_clamp_range {c : Cfg} (h : c.Valid) (z : Int) :
    -(2 ^ 31) ≤ Machine.clamp z c.clampLo c.clampHi * 2 ^ c.outShift ∧
      Machine.clamp z c.clampLo c.clampHi * 2 ^ c.outShift ≤ 2 ^ 31 - 1 := by
  obtain ⟨-, -, -, -, -, -, -, -, -, -, -, -, ⟨hlo, hhi⟩, ⟨hmax, hmin⟩, -⟩ := h
  have hpos : (0 : Int) ≤ 2 ^ c.outShift := by positivity
  have hbounds : c.clampLo ≤ Machine.clamp z c.clampLo c.clampHi ∧
      Machine.clamp z c.clampLo c.clampHi ≤ c.clampHi := by
    unfold Machine.clamp
    split
    · omega
    · split <;> omega
  exact ⟨hmin.trans (mul_le_mul_of_nonneg_right hbounds.1 hpos),
    (mul_le_mul_of_nonneg_right hbounds.2 hpos).trans hmax⟩

end Sys2Proof

namespace Sys2Proof.Machine

/-! ### The operations of the datapath, run by the sequencer -/

section
variable {s : State} {p : Phase} {ch : BitVec 7} {m j : BitVec 8}

theorem exec_hsh_seq (hi : s.issuer = .seq) (hch : ch.toNat < s.cfg.channels) :
    exec (.hsh ch) s = .next { s with h := s.h.modify ch.toNat (shiftWindow s.cfg) }.advance := by
  change execHsh ch s = _
  rw [execHsh, seqOp_run _ hi (by simpa [channelLegal] using hch)]

theorem exec_hpu_seq (hi : s.issuer = .seq) (hch : ch.toNat < s.cfg.channels)
    (hm : m.toNat < s.cfg.frames) :
    exec (.hpu ch m) s = .next { s with
      h := fileSet s.h ch.toNat (s.cfg.taps - 1 + m.toNat)
        (prescale (fileAt s.x ch.toNat m.toNat 0)) }.advance := by
  change execHpu ch m s = _
  rw [execHpu, seqOp_run _ hi (by simp [channelLegal, blockFrameLegal, hch, hm])]

theorem exec_clr_seq (hi : s.issuer = .seq) :
    exec (.clr p) s = .next { s with acc := s.acc.set p 0 }.advance := by
  change execClr p s = _
  rw [execClr, seqOp_run _ hi rfl]

theorem exec_mac_seq (hi : s.issuer = .seq) (hch : ch.toNat < s.cfg.channels)
    (hm : m.toNat < s.cfg.frames) (hj : j.toNat < s.cfg.taps) :
    exec (.mac p ch m j) s =
      .next { s with acc := s.acc.set p (s.acc.get p + macTerm p ch m j s) }.advance := by
  change execMac p ch m j s = _
  rw [execMac, seqOp_run _ hi (by simp [channelLegal, blockFrameLegal, tapLegal, hch, hm, hj])]

theorem exec_sat_seq (hi : s.issuer = .seq) :
    exec (.sat p) s = .next { s with
      acc := s.acc.set p (clamp (s.acc.get p) s.cfg.clampLo s.cfg.clampHi) }.advance := by
  change execSat p s = _
  rw [execSat, seqOp_run _ hi rfl]

theorem exec_shl_seq (hi : s.issuer = .seq) :
    exec (.shl p) s = .next { s with
      y := s.y.set p (BitVec.ofInt 32 (s.acc.get p * 2 ^ s.cfg.outShift)) }.advance := by
  change execShl p s = _
  rw [execShl, seqOp_run _ hi rfl]

end

/-! ### Running a list of operations -/

theorem runOps_cons {i : Instr} {s t : State} (is : List Instr) (h : exec i s = .next t) :
    runOps (i :: is) s = runOps is t := by
  simp [runOps, h]

theorem runOps_append {is : List Instr} {s t : State} (js : List Instr)
    (h : runOps is s = .next t) : runOps (is ++ js) s = runOps js t := by
  induction is generalizing s with
  | nil => cases h; rfl
  | cons i is ih =>
    cases hi : exec i s with
    | next u =>
      rw [runOps_cons _ hi] at h
      rw [List.cons_append, runOps_cons _ hi, ih h]
    | fault f => simp [runOps, hi] at h
    | refused r => simp [runOps, hi] at h

@[simp] theorem PerPhase.set_get {α : Type} (v : PerPhase α) (p : Phase) :
    v.set p (v.get p) = v := by cases p <;> rfl

/-! ### Shifting and filling the window (rules R213, R214) -/

/-- A window of which `n` entries from TAPS - 1 on hold prescaled samples. -/
def pushedRow (c : Cfg) (row : List Int) (xs : List Word) (n : Nat) : List Int :=
  row.take (c.taps - 1) ++ (xs.map prescale).take n ++ row.drop (c.taps - 1 + n)

theorem pushedRow_zero (c : Cfg) (row : List Int) (xs : List Word) : pushedRow c row xs 0 = row := by
  simp [pushedRow]

/-- HPU writes the next sample behind those in the window (rule R214). -/
theorem pushedRow_succ {c : Cfg} {row : List Int} {xs : List Word} {n : Nat} {x : Word}
    (hrow : c.taps - 1 + n < row.length) (hx : xs[n]? = some x) :
    (pushedRow c row xs n).set (c.taps - 1 + n) (prescale x) = pushedRow c row xs (n + 1) := by
  obtain ⟨hn, rfl⟩ := List.getElem?_eq_some_iff.1 hx
  have hlen : (row.take (c.taps - 1) ++ (xs.map prescale).take n).length = c.taps - 1 + n := by
    simp; omega
  rw [pushedRow, List.set_append_right _ _ (by omega), hlen, Nat.sub_self,
    List.drop_eq_getElem_cons hrow, List.set_cons_zero, pushedRow, List.take_add_one]
  simp [hn, Nat.add_assoc]

theorem pushedRow_all {c : Cfg} {row : List Int} {xs : List Word} (hrow : row.length = c.window)
    (hxs : xs.length = c.frames) :
    pushedRow c row xs c.frames = row.take (c.taps - 1) ++ xs.map prescale := by
  have hdrop : row.drop (c.taps - 1 + c.frames) = [] := List.drop_eq_nil_of_le hrow.le
  have htake : (xs.map prescale).take c.frames = xs.map prescale :=
    List.take_of_length_le (by simp [hxs])
  rw [pushedRow, hdrop, htake, List.append_nil]

/-- What HSH shifts into the front of a window is its DelayLine (rules R31, R213). -/
theorem take_shiftWindow {c : Cfg} {row : List Int} (hrow : row.length = c.window) :
    (shiftWindow c row).take (c.taps - 1) = delayLine c row := by
  unfold Cfg.window at hrow
  refine List.ext_getElem (by simp [shiftWindow, delayLine]; omega) fun i h1 h2 => ?_
  have hi : i < c.taps - 1 := by simp at h1; omega
  simp [shiftWindow, delayLine, hi, List.getD_eq_getElem?_getD, show c.frames + i < row.length by omega]

theorem set_of_getElem? {α : Type} {l : List α} {i : Nat} {a : α} (h : l[i]? = some a) :
    l.set i a = l := by
  obtain ⟨hi, rfl⟩ := List.getElem?_eq_some_iff.1 h
  exact List.set_getElem_self hi

section
variable {s : State} {ch : Nat} {row : List Int} {xs : List Word}

/-- The first `n` HPU of a block (rule R214). -/
theorem runOps_hpu (hi : s.issuer = .seq) (hc : s.cfg.Valid) (hch : ch < s.cfg.channels)
    (hrow : s.h[ch]? = some row) (hlen : row.length = s.cfg.window) (hx : s.x[ch]? = some xs)
    (hxs : xs.length = s.cfg.frames) {n : Nat} (hn : n ≤ s.cfg.frames) :
    ∃ upc, runOps ((List.range n).map fun m => .hpu (BitVec.ofNat 7 ch) (BitVec.ofNat 8 m)) s =
      .next { s with h := s.h.set ch (pushedRow s.cfg row xs n), upc := upc } := by
  induction n with
  | zero =>
    refine ⟨s.upc, ?_⟩
    rw [pushedRow_zero, set_of_getElem? hrow]
    rfl
  | succ n ih =>
    obtain ⟨upc, hrun⟩ := ih (by omega)
    have hch' := hc.channel_toNat hch
    have hn' := hc.frame_toNat hn
    obtain ⟨x, hxn⟩ : ∃ x, xs[n]? = some x := ⟨_, List.getElem?_eq_getElem (by omega)⟩
    have hlt : s.cfg.taps - 1 + n < row.length := by
      rw [hlen, Cfg.window]; omega
    have hnew : (s.h.set ch (pushedRow s.cfg row xs n))[ch]? = some (pushedRow s.cfg row xs n) := by
      simp [(List.getElem?_eq_some_iff.1 hrow).1]
    have hsample : fileAt s.x ch n 0 = x := by
      simp [fileAt, List.getD_eq_getElem?_getD, hx, hxn]
    refine ⟨upc + 1, ?_⟩
    rw [List.range_succ, List.map_append, runOps_append _ hrun, List.map_singleton, runOps_cons _
      (exec_hpu_seq (s := { s with h := _, upc := upc }) hi (hch'.trans_lt hch) (hn'.trans_lt hn))]
    simp only [hch', hn', hsample, fileSet, modify_eq_set_of_getElem? _ hnew, List.set_set,
      pushedRow_succ hlt hxn]
    rfl

/-- HSH and the HPU of a block leave the DelayLine followed by the prescaled samples in the channel's
window (rules R211 to R214). -/
theorem runOps_fill (hi : s.issuer = .seq) (hc : s.cfg.Valid) (hch : ch < s.cfg.channels)
    (hrow : s.h[ch]? = some row) (hlen : row.length = s.cfg.window) (hx : s.x[ch]? = some xs)
    (hxs : xs.length = s.cfg.frames) :
    ∃ upc, runOps (.hsh (BitVec.ofNat 7 ch) :: (List.range s.cfg.frames).map fun m =>
        .hpu (BitVec.ofNat 7 ch) (BitVec.ofNat 8 m)) s =
      .next { s with
        h := s.h.set ch (delayLine s.cfg row ++ xs.map prescale), upc := upc } := by
  have hch' := hc.channel_toNat hch
  have hlen' : (shiftWindow s.cfg row).length = s.cfg.window := by simpa [shiftWindow] using hlen
  have hexec := exec_hsh_seq (ch := BitVec.ofNat 7 ch) hi (hch'.trans_lt hch)
  rw [hch', modify_eq_set_of_getElem? _ hrow] at hexec
  have hnew : (s.h.set ch (shiftWindow s.cfg row))[ch]? = some (shiftWindow s.cfg row) := by
    simp [(List.getElem?_eq_some_iff.1 hrow).1]
  obtain ⟨upc, hrun⟩ := runOps_hpu
    (s := State.advance { s with h := s.h.set ch (shiftWindow s.cfg row) })
    hi hc hch hnew hlen' hx hxs le_rfl
  refine ⟨upc, (runOps_cons _ hexec).trans (hrun.trans ?_)⟩
  simp only [State.advance_cfg, pushedRow_all hlen' hxs, take_shiftWindow hlen, State.advance_h,
    List.set_set]
  rfl

end

/-! ### One output sample (rules R103, R235) -/

/-- The state in which a channel's output samples are made: its window is `w`, and its output slot `q` of
the half at `b` lies inside MEM. -/
structure ChannelReady (ch l q : Nat) (b : Word) (w : List Int) (s : State) : Prop where
  issuer : s.issuer = .seq
  valid : s.cfg.Valid
  channel : ch < s.cfg.channels
  row : s.h[ch]? = some w
  out : s.cfg.outMap[ch]? = some (l, q)
  base : s.base[1 + l]? = some b
  aligned : b.toNat % 4 = 0
  inside : b.toNat + 4 * s.cfg.pbLen ≤ s.cfg.memSize

/-- The index `g = 2m + p` of output sample (p, m) in its block (rule R67). -/
def sampleIndex (i : Phase × Nat) : Nat := 2 * i.2 + phaseIndex i.1

/-- The place of output sample (p, m) in the half at `b` (rule R67). -/
def samplePlace (c : Cfg) (b : Word) (q : Nat) (i : Phase × Nat) : Nat :=
  b.toNat + 4 * (sampleIndex i * c.ocpl + q)

theorem phaseIndex_lt (p : Phase) : phaseIndex p < 2 := by cases p <;> decide

theorem phaseIndex_inj {p p' : Phase} (h : phaseIndex p = phaseIndex p') : p = p' := by
  cases p <;> cases p' <;> simp_all [phaseIndex]

theorem sampleIndex_lt {i : Phase × Nat} {frames : Nat} (h : i.2 < frames) :
    sampleIndex i < 2 * frames := by
  have hp := phaseIndex_lt i.1
  unfold sampleIndex
  omega

theorem sampleIndex_inj {i j : Phase × Nat} (h : sampleIndex i = sampleIndex j) : i = j := by
  unfold sampleIndex at h
  have hi := phaseIndex_lt i.1
  have hj := phaseIndex_lt j.1
  exact Prod.ext (phaseIndex_inj (by omega)) (by omega)

theorem samplePlace_add_four_le {c : Cfg} (hc : c.Valid) (b : Word) (q : Nat) {i j : Phase × Nat}
    (h : sampleIndex i < sampleIndex j) :
    samplePlace c b q i + 4 ≤ samplePlace c b q j := by
  have hocpl := hc.ocpl_pos
  have hmul := Nat.mul_le_mul_right c.ocpl h
  rw [Nat.succ_mul] at hmul
  unfold samplePlace
  omega

/-- Two output samples of a channel have no byte in common. -/
theorem samplePlace_disjoint {c : Cfg} (hc : c.Valid) (b : Word) (q : Nat) {i j : Phase × Nat}
    (h : i ≠ j) : samplePlace c b q i + 4 ≤ samplePlace c b q j ∨
      samplePlace c b q j + 4 ≤ samplePlace c b q i :=
  (Nat.lt_or_gt_of_ne fun heq => h (sampleIndex_inj heq)).imp
    (samplePlace_add_four_le hc b q) (samplePlace_add_four_le hc b q)

section
variable {ch l q : Nat} {b : Word} {w : List Int} {s : State} {p : Phase} {m : Nat}

/-- None of what the operations of an output sample write is what the next one rests on. -/
theorem ChannelReady.after (h : ChannelReady ch l q b w s) (acc : PerPhase Int) (y : PerPhase Word)
    (mem : Memory) (upc : Word) :
    ChannelReady ch l q b w { s with acc := acc, y := y, mem := mem, upc := upc } :=
  ⟨h.issuer, h.valid, h.channel, h.row, h.out, h.base, h.aligned, h.inside⟩

/-- The place of an output sample is an aligned word of MEM. -/
theorem ChannelReady.samplePlace_inside (h : ChannelReady ch l q b w s) {i : Phase × Nat}
    (hm : i.2 < s.cfg.frames) :
    samplePlace s.cfg b q i % 4 = 0 ∧ samplePlace s.cfg b q i + 4 ≤ s.cfg.memSize := by
  have halign := h.aligned
  have hin := h.inside
  have hq := h.valid.outMap_slot_lt h.out
  have hle : (sampleIndex i + 1) * s.cfg.ocpl ≤ s.cfg.pbLen :=
    Nat.mul_le_mul_right _ (sampleIndex_lt hm)
  rw [Nat.succ_mul] at hle
  unfold samplePlace
  omega

/-- MAC of a channel, on its window (rule R232). -/
theorem ChannelReady.exec_mac (h : ChannelReady ch l q b w s) (hm : m < s.cfg.frames) {j : Nat}
    (hj : j < s.cfg.taps) :
    exec (.mac p (BitVec.ofNat 7 ch) (BitVec.ofNat 8 m) (BitVec.ofNat 8 j)) s =
      .next { s with
        acc := s.acc.set p
          (s.acc.get p + s.cfg.coeff p j * w.getD (s.cfg.taps - 1 + m - j) 0) }.advance := by
  have hch' := h.valid.channel_toNat h.channel
  have hm' := h.valid.frame_toNat hm
  have hj' := h.valid.tap_toNat hj
  rw [exec_mac_seq h.issuer (hch'.trans_lt h.channel) (hm'.trans_lt hm) (hj'.trans_lt hj)]
  simp [macTerm, hch', hm', hj', fileAt, List.getD_eq_getElem?_getD, h.row]

/-- STW of a channel stores at the sample's own place (rules R67, R164). -/
theorem ChannelReady.exec_stw (h : ChannelReady ch l q b w s) (hm : m < s.cfg.frames) :
    exec (.stw p (BitVec.ofNat 7 ch) (BitVec.ofNat 8 m)) s =
      .next { s with
        mem := setWord s.mem (samplePlace s.cfg b q (p, m)) (s.y.get p) }.advance := by
  have hch' := h.valid.channel_toNat h.channel
  have hm' := h.valid.frame_toNat hm
  obtain ⟨halign, hin⟩ := h.samplePlace_inside (i := (p, m)) hm
  have hplace : storeAddress p (BitVec.ofNat 7 ch) (BitVec.ofNat 8 m) s =
      samplePlace s.cfg b q (p, m) := by
    rw [storeAddress_eq p _ (hch'.symm ▸ h.out) h.base, hm']
    rfl
  rw [exec_stw_seq h.issuer (hch'.trans_lt h.channel) (hm'.trans_lt hm), hplace,
    storeWord_inside halign hin]

/-- The first `n` MAC of an output sample add its partial sum (rules R215, R232). -/
theorem ChannelReady.runOps_mac (h : ChannelReady ch l q b w s) (hm : m < s.cfg.frames) {n : Nat}
    (hn : n ≤ s.cfg.taps) :
    ∃ upc, runOps ((List.range n).map fun j =>
        .mac p (BitVec.ofNat 7 ch) (BitVec.ofNat 8 m) (BitVec.ofNat 8 j)) s =
      .next { s with acc := s.acc.set p (s.acc.get p + firSum s.cfg p w m n), upc := upc } := by
  induction n with
  | zero => exact ⟨s.upc, by simp [runOps, firSum]⟩
  | succ n ih =>
    obtain ⟨upc, hrun⟩ := ih (by omega)
    refine ⟨upc + 1, ?_⟩
    rw [List.range_succ, List.map_append, runOps_append _ hrun, List.map_singleton,
      runOps_cons _ ((h.after _ _ _ upc).exec_mac hm hn)]
    simp only [PerPhase.get_set_same, PerPhase.set_set, firSum, Int.add_assoc]
    rfl

/-- FIRPT leaves FIRBLK's output sample in Y of its phase (rules R103, R235). -/
theorem ChannelReady.runOps_firpt (h : ChannelReady ch l q b w s) (hm : m < s.cfg.frames) :
    ∃ upc, runOps (firpt s.cfg p ch m) s =
      .next { s with
        acc := s.acc.set p
          (clamp (firSum s.cfg p w m s.cfg.taps) s.cfg.clampLo s.cfg.clampHi)
        y := s.y.set p (BitVec.ofInt 32 (firOut s.cfg p w m))
        upc := upc } := by
  obtain ⟨upc, hmacs⟩ := (h.after (s.acc.set p 0) s.y s.mem (s.upc + 1)).runOps_mac (p := p) hm le_rfl
  have hrun := (runOps_cons _ (exec_clr_seq h.issuer)).trans hmacs
  refine ⟨upc + 1 + 1, ?_⟩
  rw [firpt, runOps_append _ hrun, runOps_cons _ (exec_sat_seq (h.after _ _ _ _).issuer),
    runOps_cons _ (exec_shl_seq (by exact h.issuer)), runOps]
  simp only [State.advance, PerPhase.get_set_same, PerPhase.set_set, Int.zero_add, firOut]

/-- FIRPT and its STW put FIRBLK's output sample at its place (rules R67, R164, R235). -/
theorem ChannelReady.runOps_firptStore (h : ChannelReady ch l q b w s) (hm : m < s.cfg.frames) :
    ∃ acc y upc, runOps (firptStore s.cfg p ch m) s =
      .next { s with
        acc := acc, y := y, upc := upc
        mem := setWord s.mem (samplePlace s.cfg b q (p, m))
          (BitVec.ofInt 32 (firOut s.cfg p w m)) } := by
  obtain ⟨upc, hrun⟩ := h.runOps_firpt (p := p) hm
  refine ⟨s.acc.set p (clamp (firSum s.cfg p w m s.cfg.taps) s.cfg.clampLo s.cfg.clampHi),
    s.y.set p (BitVec.ofInt 32 (firOut s.cfg p w m)), upc + 1, ?_⟩
  rw [firptStore, runOps_append _ hrun, runOps_cons _ ((h.after _ _ _ upc).exec_stw hm)]
  simp only [PerPhase.get_set_same]
  rfl

end

/-! ### All output samples of a channel -/

/-- The output samples of a block, in the order in which they are made (rules R166, R215). -/
def outputSamples (frames : Nat) : List (Phase × Nat) :=
  (List.range frames).flatMap fun m => [(.zero, m), (.one, m)]

theorem outputSamples_length (frames : Nat) : (outputSamples frames).length = 2 * frames := by
  simp [outputSamples, List.length_flatMap, Nat.mul_comm]

/-- The output samples are made in the order of their indices (rule R67). -/
theorem outputSamples_getElem? {frames n : Nat} {i : Phase × Nat} (h : (outputSamples frames)[n]? = some i) :
    n = sampleIndex i ∧ i.2 < frames := by
  induction frames with
  | zero => simp [outputSamples] at h
  | succ k ih =>
    have hsucc : outputSamples (k + 1) = outputSamples k ++ [(.zero, k), (.one, k)] := by
      simp [outputSamples, List.range_succ]
    rw [hsucc] at h
    rcases Nat.lt_or_ge n (2 * k) with hn | hn
    · rw [List.getElem?_append_left (by rwa [outputSamples_length])] at h
      obtain ⟨hidx, hlt⟩ := ih h
      exact ⟨hidx, by omega⟩
    · rw [List.getElem?_append_right (by rwa [outputSamples_length]), outputSamples_length] at h
      obtain hk | hk | hk : n - 2 * k = 0 ∨ n - 2 * k = 1 ∨ 2 ≤ n - 2 * k := by omega
      · rw [hk] at h
        cases h
        exact ⟨by simp [sampleIndex, phaseIndex]; omega, by simp⟩
      · rw [hk] at h
        cases h
        exact ⟨by simp [sampleIndex, phaseIndex]; omega, by simp⟩
      · rw [List.getElem?_eq_none (by simpa using hk)] at h
        cases h

theorem outputSamples_frame_lt {frames : Nat} {i : Phase × Nat} (h : i ∈ outputSamples frames) :
    i.2 < frames := by
  obtain ⟨n, hn⟩ := List.mem_iff_getElem?.1 h
  exact (outputSamples_getElem? hn).2

/-- FIRBLK's outputs, sample by sample (rule R215). -/
theorem firBlk_outputs (c : Cfg) (hist : List Int) (xs : List Word) :
    (firBlk c hist xs).1 =
      (outputSamples xs.length).map fun i => firOut c i.1 (hist ++ xs.map prescale) i.2 := by
  simp [firBlk, outputSamples, List.map_flatMap]

/-- The operations of a channel: fill the window, then make and store the output samples (rule R166). -/
theorem channelOps_eq (c : Cfg) (ch : Nat) :
    channelOps c ch =
      (.hsh (BitVec.ofNat 7 ch) ::
        (List.range c.frames).map fun m => .hpu (BitVec.ofNat 7 ch) (BitVec.ofNat 8 m)) ++
      (outputSamples c.frames).flatMap fun i => firptStore c i.1 ch i.2 := by
  simp [channelOps, outputSamples, List.flatMap_assoc]

/-- A word depends on its own four bytes alone (rule R61). -/
theorem wordAt_congr {s t : State} {a : Nat} (h : ∀ x, a ≤ x → x < a + 4 → t.byteAt x = s.byteAt x) :
    t.wordAt a = s.wordAt a := by
  unfold State.wordAt
  rw [h a (by omega) (by omega), h (a + 1) (by omega) (by omega), h (a + 2) (by omega) (by omega),
    h (a + 3) (by omega) (by omega)]

/-- Whatever list of output samples is made, each stands at its place, and no other byte of MEM is
changed (rules R67, R235). -/
theorem ChannelReady.runOps_samples {ch l q : Nat} {b : Word} {w : List Int} {s : State}
    (h : ChannelReady ch l q b w s) (is : List (Phase × Nat)) (his : ∀ i ∈ is, i.2 < s.cfg.frames) :
    ∃ u, runOps (is.flatMap fun i => firptStore s.cfg i.1 ch i.2) s = .next u ∧
      u = { s with acc := u.acc, y := u.y, mem := u.mem, upc := u.upc } ∧
      (∀ i ∈ is, u.wordAt (samplePlace s.cfg b q i) = BitVec.ofInt 32 (firOut s.cfg i.1 w i.2)) ∧
      ∀ a, (∀ i ∈ is, a < samplePlace s.cfg b q i ∨ samplePlace s.cfg b q i + 4 ≤ a) →
        u.byteAt a = s.byteAt a := by
  induction is generalizing s with
  | nil => exact ⟨s, rfl, rfl, by simp, fun _ _ => rfl⟩
  | cons i is ih =>
    obtain ⟨acc, y, upc, hfirst⟩ := h.runOps_firptStore (p := i.1) (his i List.mem_cons_self)
    obtain ⟨u, hrest, hu, hwords, hbytes⟩ := ih
      (h.after acc y (setWord s.mem (samplePlace s.cfg b q i)
        (BitVec.ofInt 32 (firOut s.cfg i.1 w i.2))) upc)
      fun j hj => his j (List.mem_cons_of_mem _ hj)
    refine ⟨u, ?run, hu, ?words, ?bytes⟩
    case run =>
      rw [List.flatMap_cons, runOps_append _ hfirst]
      exact hrest
    case words =>
      intro j hj
      by_cases hjis : j ∈ is
      · exact hwords j hjis
      · obtain rfl : j = i := (List.mem_cons.1 hj).resolve_right hjis
        refine (wordAt_congr fun x hx hx' => hbytes x fun k hk => ?_).trans
          (wordAt_setWord s (samplePlace s.cfg b q j) _)
        have := samplePlace_disjoint h.valid b q (i := j) (j := k) fun hjk => hjis (hjk ▸ hk)
        change x < samplePlace s.cfg b q k ∨ samplePlace s.cfg b q k + 4 ≤ x
        omega
    case bytes =>
      intro a ha
      exact (hbytes a fun j hj => ha j (List.mem_cons_of_mem _ hj)).trans
        (byteAt_setWord_outside s _ (ha i List.mem_cons_self))

/-- The trailing entries of the window that HSH and HPU leave are FIRBLK's new DelayLine (rules R31, R215). -/
theorem delayLine_filled {c : Cfg} {row : List Int} {xs : List Word} (hrow : row.length = c.window)
    (hxs : xs.length = c.frames) :
    delayLine c (delayLine c row ++ xs.map prescale) = (firBlk c (delayLine c row) xs).2 := by
  have hlen : (delayLine c row ++ xs.map prescale).length = c.taps - 1 + c.frames := by
    unfold Cfg.window at hrow
    simp [delayLine]
    omega
  change ((delayLine c row ++ xs.map prescale).drop c.frames).take (c.taps - 1) =
    (delayLine c row ++ xs.map prescale).drop _
  rw [hlen, Nat.add_sub_cancel_left, List.take_of_length_le (by simp [List.length_drop, hlen])]

/-- The 32-bit pattern of an output sample is the sample (rules R68, R234). -/
theorem firOut_toInt {c : Cfg} (hc : c.Valid) (p : Phase) (w : List Int) (m : Nat) :
    (BitVec.ofInt 32 (firOut c p w m)).toInt = firOut c p w m := by
  have hrange := hc.scaled_clamp_range (firSum c p w m c.taps)
  exact BitVec.toInt_ofInt_eq_self (by norm_num) hrange.1 (by norm_num [firOut]; omega)

/-- Settles O59: HSH and the HPU make the window FIRBLK works on, and each FIRPT with its STW one of
FIRBLK's output samples at its place. -/
theorem channelOperationsComputeFirBlk : Obligations.ChannelOperationsComputeFirBlk := by
  intro s ch l q row xs b hi hc hs hch hrow hx hout hb halign hin block place
  obtain ⟨-, -, -, -, -, hxrows, -, hhrows⟩ := hs
  have hlen : row.length = s.cfg.window := hhrows row (List.mem_of_getElem? hrow)
  have hxs : xs.length = s.cfg.frames := hxrows xs (List.mem_of_getElem? hx)
  obtain ⟨upc, hfill⟩ := runOps_fill hi hc hch hrow hlen hx hxs
  have hready : ChannelReady ch l q b (delayLine s.cfg row ++ xs.map prescale)
      { s with h := s.h.set ch (delayLine s.cfg row ++ xs.map prescale), upc := upc } :=
    ⟨hi, hc, hch, by simp [(List.getElem?_eq_some_iff.1 hrow).1], hout, hb, halign, hin⟩
  obtain ⟨t, hrun, ht, hwords, hbytes⟩ :=
    hready.runOps_samples (outputSamples s.cfg.frames) fun i => outputSamples_frame_lt
  refine ⟨t, ?run, ⟨_, by rw [ht], delayLine_filled hlen hxs⟩, fun n v hv => ?outputs,
    fun a ha => hbytes a fun i hmem => ?bytes, by rw [ht], by rw [ht], by rw [ht],
    by rw [ht], by rw [ht]⟩
  case run =>
    rw [channelOps_eq, runOps_append _ hfill]
    exact hrun
  case outputs =>
    rw [firBlk_outputs, hxs, List.getElem?_map] at hv
    obtain ⟨i, hsample, rfl⟩ := Option.map_eq_some_iff.1 hv
    have hword := hwords i (List.mem_of_getElem? hsample)
    rw [(outputSamples_getElem? hsample).1]
    exact (congrArg BitVec.toInt hword).trans (firOut_toInt hc i.1 _ i.2)
  case bytes =>
    exact ha (sampleIndex i) (sampleIndex_lt (outputSamples_frame_lt hmem))

end Sys2Proof.Machine

/-! SUPPORT. The statements of the family 30_encoding.md: which words the decoder and the rows of the opcode
table accept, what each agent fetches, and what is refused. -/

namespace Sys2Proof

open BitVec (extractLsb'_append_extractLsb'_eq_extractLsb' extractLsb'_eq_self)

/-! ### A word is put together from its fields (rules R92 to R97) -/

section
variable {w : Word}

theorem wordN_fields (h : w.extractLsb' 0 24 = 0#24) : wordN (opcField w) = w := by
  rw [wordN, opcField, ← h, extractLsb'_append_extractLsb'_eq_extractLsb' (by decide)]
  exact extractLsb'_eq_self

theorem wordG_fields (h : w.extractLsb' 12 12 = 0#12) : wordG (opcField w) (offField w) = w := by
  rw [wordG, opcField, offField, ← h, extractLsb'_append_extractLsb'_eq_extractLsb' (by decide),
    extractLsb'_append_extractLsb'_eq_extractLsb' (by decide)]
  exact extractLsb'_eq_self

theorem wordR_fields (h : w.extractLsb' 0 20 = 0#20) : wordR (opcField w) (ringField w) = w := by
  rw [wordR, opcField, ringField, ← h, extractLsb'_append_extractLsb'_eq_extractLsb' (by decide),
    extractLsb'_append_extractLsb'_eq_extractLsb' (by decide)]
  exact extractLsb'_eq_self

theorem wordK_fields (h : w.extractLsb' 16 8 = 0#8) : wordK (opcField w) (kField w) = w := by
  rw [wordK, opcField, kField, ← h, extractLsb'_append_extractLsb'_eq_extractLsb' (by decide),
    extractLsb'_append_extractLsb'_eq_extractLsb' (by decide)]
  exact extractLsb'_eq_self

theorem wordB_fields (h : w.extractLsb' 8 16 = 0#16) : wordB (opcField w) (bField w) = w := by
  rw [wordB, opcField, bField, ← h, extractLsb'_append_extractLsb'_eq_extractLsb' (by decide),
    extractLsb'_append_extractLsb'_eq_extractLsb' (by decide)]
  exact extractLsb'_eq_self

theorem wordF_fields (w : Word) :
    wordF (opcField w) (pField w) (chField w) (mField w) (jField w) = w := by
  rw [wordF, opcField, pField, chField, mField, jField,
    extractLsb'_append_extractLsb'_eq_extractLsb' (by decide),
    extractLsb'_append_extractLsb'_eq_extractLsb' (by decide),
    extractLsb'_append_extractLsb'_eq_extractLsb' (by decide),
    extractLsb'_append_extractLsb'_eq_extractLsb' (by decide)]
  exact extractLsb'_eq_self

theorem wordF_of_fields {opc : BitVec 8} {p : BitVec 1} {ch : BitVec 7} {m j : BitVec 8}
    (hopc : opcField w = opc) (hp : pField w = p) (hch : chField w = ch) (hm : mField w = m)
    (hj : jField w = j) : wordF opc p ch m j = w := by
  rw [← hopc, ← hp, ← hch, ← hm, ← hj, wordF_fields]

/-- A field inside low bits that are all 0 is 0. -/
theorem extractLsb'_eq_zero_of_low {n start len : Nat} (h : w.extractLsb' 0 n = 0#n)
    (hle : start + len ≤ n) : w.extractLsb' start len = 0#len := by
  ext i hi
  have hbit := congrArg (fun v => v.getLsbD (start + i)) h
  simpa [show start + i < n by omega] using hbit

/-- With P its only operand, a word of format F has CH, M and J 0 (rule R97: CLR, SAT, SHL). -/
theorem wordF_fields_of_low (h : w.extractLsb' 0 23 = 0#23) :
    wordF (opcField w) (pField w) 0 0 0 = w :=
  wordF_of_fields rfl rfl (extractLsb'_eq_zero_of_low h (by decide))
    (extractLsb'_eq_zero_of_low h (by decide)) (extractLsb'_eq_zero_of_low h (by decide))

end

/-! ### A word that a format accepts is the word of what it gives (rules R92 to R97, R100) -/

theorem whenZero_eq_ok {zero : Bool} {i j : Instr} (h : whenZero zero i = .ok j) :
    zero = true ∧ i = j := by
  cases zero with
  | false => cases h
  | true => exact ⟨rfl, Except.ok.inj h⟩

section
variable {w : Word} {opc : BitVec 8} {i j : Instr}

theorem encode_of_formatN (hopc : opcField w = opc) (hi : encode i = wordN opc)
    (h : formatN w i = .ok j) : encode j = w := by
  obtain ⟨hz, rfl⟩ := whenZero_eq_ok h
  rw [hi, ← hopc, wordN_fields (eq_of_beq hz)]

theorem encode_of_formatG {f : BitVec 12 → Instr} (hopc : opcField w = opc)
    (hf : ∀ off, encode (f off) = wordG opc off) (h : formatG w f = .ok j) : encode j = w := by
  obtain ⟨hz, rfl⟩ := whenZero_eq_ok h
  rw [hf, ← hopc, wordG_fields (eq_of_beq hz)]

theorem encode_of_formatR {f : BitVec 4 → Instr} (hopc : opcField w = opc)
    (hf : ∀ r, encode (f r) = wordR opc r) (h : formatR w f = .ok j) : encode j = w := by
  obtain ⟨hz, rfl⟩ := whenZero_eq_ok h
  rw [hf, ← hopc, wordR_fields (eq_of_beq hz)]

theorem encode_of_formatK {f : BitVec 16 → Instr} (hopc : opcField w = opc)
    (hf : ∀ k, encode (f k) = wordK opc k) (h : formatK w f = .ok j) : encode j = w := by
  obtain ⟨hz, rfl⟩ := whenZero_eq_ok h
  rw [hf, ← hopc, wordK_fields (eq_of_beq hz)]

theorem encode_of_formatB {f : BitVec 8 → Instr} (hopc : opcField w = opc)
    (hf : ∀ b, encode (f b) = wordB opc b) (h : formatB w f = .ok j) : encode j = w := by
  obtain ⟨hz, rfl⟩ := whenZero_eq_ok h
  rw [hf, ← hopc, wordB_fields (eq_of_beq hz)]

theorem encode_of_formatFP {f : Phase → Instr} (hopc : opcField w = opc)
    (hf : ∀ p, encode (f p) = wordF opc (phaseBit p) 0 0 0) (h : formatFP w f = .ok j) :
    encode j = w := by
  obtain ⟨hz, rfl⟩ := whenZero_eq_ok h
  rw [hf, ← hopc, phaseBit_phaseOfBit, wordF_fields_of_low (eq_of_beq hz)]

theorem encode_of_formatFC {f : BitVec 7 → Instr} (hopc : opcField w = opc)
    (hf : ∀ ch, encode (f ch) = wordF opc 0#1 ch 0#8 0#8) (h : formatFC w f = .ok j) :
    encode j = w := by
  obtain ⟨hz, rfl⟩ := whenZero_eq_ok h
  simp only [Bool.and_eq_true, beq_iff_eq] at hz
  obtain ⟨⟨hp, hm⟩, hj⟩ := hz
  rw [hf, wordF_of_fields hopc hp rfl hm hj]

theorem encode_of_formatFCM {f : BitVec 7 → BitVec 8 → Instr} (hopc : opcField w = opc)
    (hf : ∀ ch m, encode (f ch m) = wordF opc 0#1 ch m 0#8) (h : formatFCM w f = .ok j) :
    encode j = w := by
  obtain ⟨hz, rfl⟩ := whenZero_eq_ok h
  simp only [Bool.and_eq_true, beq_iff_eq] at hz
  obtain ⟨hp, hj⟩ := hz
  rw [hf, wordF_of_fields hopc hp rfl rfl hj]

theorem encode_of_formatFPCM {f : Phase → BitVec 7 → BitVec 8 → Instr} (hopc : opcField w = opc)
    (hf : ∀ p ch m, encode (f p ch m) = wordF opc (phaseBit p) ch m 0#8)
    (h : formatFPCM w f = .ok j) : encode j = w := by
  obtain ⟨hz, rfl⟩ := whenZero_eq_ok h
  rw [hf, phaseBit_phaseOfBit, wordF_of_fields hopc rfl rfl rfl (eq_of_beq hz)]

end

/-- The decoder drops no bit: a word that decodes is the word of what it decodes to (rules R92 to R100). -/
theorem encode_of_decode {w : Word} {i : Instr} (h : decode w = .ok i) : encode i = w := by
  have opc : ∀ {n : Nat}, (opcField w).toNat = n → opcField w = BitVec.ofNat 8 n := fun hn => by
    rw [← hn, BitVec.ofNat_toNat, BitVec.setWidth_eq]
  unfold decode at h
  split at h
  -- The opcodes of rule R99 in order, gathered by their format.
  case h_1 hn | h_5 hn | h_6 hn | h_7 hn | h_8 hn | h_12 hn | h_16 hn =>
    exact encode_of_formatN (opc hn) rfl h
  case h_2 hn | h_3 hn => exact encode_of_formatG (opc hn) (fun _ => rfl) h
  case h_4 hn | h_9 hn | h_10 hn | h_11 hn | h_13 hn =>
    exact encode_of_formatR (opc hn) (fun _ => rfl) h
  case h_14 hn | h_18 hn | h_19 hn => exact encode_of_formatK (opc hn) (fun _ => rfl) h
  case h_17 hn => exact encode_of_formatB (opc hn) (fun _ => rfl) h
  case h_22 hn | h_24 hn | h_25 hn => exact encode_of_formatFP (opc hn) (fun _ => rfl) h
  case h_20 hn => exact encode_of_formatFC (opc hn) (fun _ => rfl) h
  case h_21 hn => exact encode_of_formatFCM (opc hn) (fun _ _ => rfl) h
  case h_15 hn => exact encode_of_formatFPCM (opc hn) (fun _ _ _ => rfl) h
  case h_23 hn =>
    obtain rfl := Except.ok.inj h
    rw [encode, phaseBit_phaseOfBit]
    exact wordF_of_fields (opc hn) rfl rfl rfl rfl
  case h_26 => cases h

/-! ### A word that matches a row of the opcode table is the word of an operation of that row (rule R99) -/

/-- The bits that a row's mask covers are those of its match. -/
theorem extractLsb'_of_mask {w mask val : Word} {start len : Nat} {x : BitVec len}
    (h : w &&& mask = val) (hmask : mask.extractLsb' start len = BitVec.allOnes len)
    (hval : val.extractLsb' start len = x) : w.extractLsb' start len = x := by
  rw [← hval, ← h, BitVec.extractLsb'_and, hmask, BitVec.and_allOnes]

section
variable {w : Word} {opc : BitVec 8}

theorem wordN_of_mask (h : w &&& 0xFFFFFFFF = wordN opc) : wordN opc = w :=
  h.symm.trans BitVec.and_allOnes

theorem wordG_of_mask (h : w &&& 0xFFFFF000 = wordG opc 0) : wordG opc (offField w) = w := by
  have hopc : opcField w = opc := extractLsb'_of_mask h (by decide) (opcField_wordG opc 0)
  rw [← hopc, wordG_fields (extractLsb'_of_mask h (by decide) (wordG_zero opc 0))]

theorem wordR_of_mask (h : w &&& 0xFF0FFFFF = wordR opc 0) : wordR opc (ringField w) = w := by
  have hopc : opcField w = opc := extractLsb'_of_mask h (by decide) (opcField_wordR opc 0)
  rw [← hopc, wordR_fields (extractLsb'_of_mask h (by decide) (wordR_zero opc 0))]

theorem wordK_of_mask (h : w &&& 0xFFFF0000 = wordK opc 0) : wordK opc (kField w) = w := by
  have hopc : opcField w = opc := extractLsb'_of_mask h (by decide) (opcField_wordK opc 0)
  rw [← hopc, wordK_fields (extractLsb'_of_mask h (by decide) (wordK_zero opc 0))]

theorem wordB_of_mask (h : w &&& 0xFFFFFF00 = wordB opc 0) : wordB opc (bField w) = w := by
  have hopc : opcField w = opc := extractLsb'_of_mask h (by decide) (opcField_wordB opc 0)
  rw [← hopc, wordB_fields (extractLsb'_of_mask h (by decide) (wordB_zero opc 0))]

theorem wordF_of_maskP (h : w &&& 0xFF7FFFFF = wordF opc 0 0 0 0) :
    wordF opc (phaseBit (phaseOfBit (pField w))) 0 0 0 = w := by
  rw [phaseBit_phaseOfBit]
  exact wordF_of_fields (extractLsb'_of_mask h (by decide) (opcField_wordF ..)) rfl
    (extractLsb'_of_mask h (by decide) (chField_wordF ..))
    (extractLsb'_of_mask h (by decide) (mField_wordF ..))
    (extractLsb'_of_mask h (by decide) (jField_wordF ..))

theorem wordF_of_maskC (h : w &&& 0xFF80FFFF = wordF opc 0 0 0 0) :
    wordF opc 0 (chField w) 0 0 = w :=
  wordF_of_fields (extractLsb'_of_mask h (by decide) (opcField_wordF ..))
    (extractLsb'_of_mask h (by decide) (pField_wordF ..)) rfl
    (extractLsb'_of_mask h (by decide) (mField_wordF ..))
    (extractLsb'_of_mask h (by decide) (jField_wordF ..))

theorem wordF_of_maskCM (h : w &&& 0xFF8000FF = wordF opc 0 0 0 0) :
    wordF opc 0 (chField w) (mField w) 0 = w :=
  wordF_of_fields (extractLsb'_of_mask h (by decide) (opcField_wordF ..))
    (extractLsb'_of_mask h (by decide) (pField_wordF ..)) rfl rfl
    (extractLsb'_of_mask h (by decide) (jField_wordF ..))

theorem wordF_of_maskPCM (h : w &&& 0xFF0000FF = wordF opc 0 0 0 0) :
    wordF opc (phaseBit (phaseOfBit (pField w))) (chField w) (mField w) 0 = w := by
  rw [phaseBit_phaseOfBit]
  exact wordF_of_fields (extractLsb'_of_mask h (by decide) (opcField_wordF ..)) rfl rfl rfl
    (extractLsb'_of_mask h (by decide) (jField_wordF ..))

theorem wordF_of_maskPCMJ (h : w &&& 0xFF000000 = wordF opc 0 0 0 0) :
    wordF opc (phaseBit (phaseOfBit (pField w))) (chField w) (mField w) (jField w) = w := by
  rw [phaseBit_phaseOfBit]
  exact wordF_of_fields (extractLsb'_of_mask h (by decide) (opcField_wordF ..)) rfl rfl rfl rfl

end

theorem encode_of_matches_row {w : Word} (j : Instr) (h : w &&& (rowOf j).mask = (rowOf j).val) :
    ∃ i, encode i = w ∧ rowOf i = rowOf j := by
  cases j with
  | nop => exact ⟨.nop, wordN_of_mask h, rfl⟩
  | start => exact ⟨.start, wordN_of_mask h, rfl⟩
  | arm => exact ⟨.arm, wordN_of_mask h, rfl⟩
  | stop => exact ⟨.stop, wordN_of_mask h, rfl⟩
  | srst => exact ⟨.srst, wordN_of_mask h, rfl⟩
  | enter => exact ⟨.enter, wordN_of_mask h, rfl⟩
  | leave => exact ⟨.leave, wordN_of_mask h, rfl⟩
  | rdreg => exact ⟨.rdreg (offField w), wordG_of_mask h, rfl⟩
  | wrreg => exact ⟨.wrreg (offField w), wordG_of_mask h, rfl⟩
  | cfg => exact ⟨.cfg (ringField w), wordR_of_mask h, rfl⟩
  | movi => exact ⟨.movi (ringField w), wordR_of_mask h, rfl⟩
  | movo => exact ⟨.movo (ringField w), wordR_of_mask h, rfl⟩
  | rld => exact ⟨.rld (ringField w), wordR_of_mask h, rfl⟩
  | probe => exact ⟨.probe (ringField w), wordR_of_mask h, rfl⟩
  | ldw => exact ⟨.ldw (kField w), wordK_of_mask h, rfl⟩
  | deint => exact ⟨.deint (kField w), wordK_of_mask h, rfl⟩
  | asm => exact ⟨.asm (kField w), wordK_of_mask h, rfl⟩
  | expand => exact ⟨.expand (bField w), wordB_of_mask h, rfl⟩
  | stw => exact ⟨.stw (phaseOfBit (pField w)) (chField w) (mField w), wordF_of_maskPCM h, rfl⟩
  | hsh => exact ⟨.hsh (chField w), wordF_of_maskC h, rfl⟩
  | hpu => exact ⟨.hpu (chField w) (mField w), wordF_of_maskCM h, rfl⟩
  | mac =>
    exact ⟨.mac (phaseOfBit (pField w)) (chField w) (mField w) (jField w), wordF_of_maskPCMJ h, rfl⟩
  | clr => exact ⟨.clr (phaseOfBit (pField w)), wordF_of_maskP h, rfl⟩
  | sat => exact ⟨.sat (phaseOfBit (pField w)), wordF_of_maskP h, rfl⟩
  | shl => exact ⟨.shl (phaseOfBit (pField w)), wordF_of_maskP h, rfl⟩

open Laws in
/-- The word of every operation matches its row (rule R99). -/
theorem encode_matches_row : ∀ i : Instr, encode i &&& (rowOf i).mask = (rowOf i).val
  | .nop => EncodeMatchesRow.nop
  | .rdreg off => EncodeMatchesRow.rdreg off
  | .wrreg off => EncodeMatchesRow.wrreg off
  | .cfg r => EncodeMatchesRow.cfg r
  | .start => EncodeMatchesRow.start
  | .arm => EncodeMatchesRow.arm
  | .stop => EncodeMatchesRow.stop
  | .srst => EncodeMatchesRow.srst
  | .movi r => EncodeMatchesRow.movi r
  | .movo r => EncodeMatchesRow.movo r
  | .rld r => EncodeMatchesRow.rld r
  | .enter => EncodeMatchesRow.enter
  | .probe r => EncodeMatchesRow.probe r
  | .ldw k => EncodeMatchesRow.ldw k
  | .stw p ch m => EncodeMatchesRow.stw p ch m
  | .leave => EncodeMatchesRow.leave
  | .expand b => EncodeMatchesRow.expand b
  | .deint k => EncodeMatchesRow.deint k
  | .asm k => EncodeMatchesRow.asm k
  | .hsh ch => EncodeMatchesRow.hsh ch
  | .hpu ch m => EncodeMatchesRow.hpu ch m
  | .clr p => EncodeMatchesRow.clr p
  | .mac p ch m j => EncodeMatchesRow.mac p ch m j
  | .sat p => EncodeMatchesRow.sat p
  | .shl p => EncodeMatchesRow.shl p

/-- Settles O1: each format's fields are read back from where the encoder wrote them. -/
theorem decodeOfEncodeIsTheOperation : Obligations.DecodeOfEncodeIsTheOperation := decode_encode

/-- Settles O2: each format's must-be-zero bits and fields are all of a word. -/
theorem encodeOfDecodeIsTheWord : Obligations.EncodeOfDecodeIsTheWord := fun _ _ => encode_of_decode

/-- Settles O3: a word that decodes, and one that matches a row, is the word of an operation. -/
theorem decodeFollowsTheOpcodeTable : Obligations.DecodeFollowsTheOpcodeTable := by
  refine ⟨fun w i h => ?_, fun w j h => ?_⟩
  · rw [← encode_of_decode h]
    exact encode_matches_row i
  · obtain ⟨i, rfl, hrow⟩ := encode_of_matches_row j h
    exact ⟨i, decode_encode i, hrow⟩

/-- Settles O4: the words of operations by O1, the others by their opcode or a must-be-zero bit. -/
theorem wordsOfTheSpecDecode : Obligations.WordsOfTheSpecDecode :=
  ⟨decode_encode (.rdreg 0x10C), decode_encode (.cfg 2), decode_encode (.movo 2),
    decode_encode (.stw .one 1 2), decode_encode (.expand 0xA5), decode_encode (.hpu 1 3),
    decode_encode (.mac .one 0 2 1), rfl, rfl, rfl⟩

end Sys2Proof

namespace Sys2Proof.Machine

/-! ### What each agent fetches (rules R91, R140, R160, R161) -/

/-- A ring engine whose block is not at its end moves a word when it is enabled (rules R140 to R142). -/
theorem ringNext_of_getElem? {s : State} {r : BitVec 4} {g : Ring} (hg : s.rings[r.toNat]? = some g)
    (hr : r.toNat ≤ s.cfg.nout) (hrem : 1 ≤ g.rem.toNat) :
    s.ringNext r =
      if g.en = true then if r = 0 then some (.movi 0) else some (.movo r) else none := by
  have hrem' : g.rem ≠ 0#16 := fun h => by simp [h] at hrem
  have hlegal : ringLegal s.cfg r = true := decide_eq_true hr
  unfold State.ringNext
  rw [ringAt_of_getElem? hg]
  by_cases hen : g.en = true
  · by_cases h0 : r = 0#4
    · subst h0
      simp [hlegal, hen, hrem']
    · simp [hlegal, hen, hrem', h0]
  · simp [hen]

/-- Settles O6: the fetch of each agent in turn. -/
theorem fetchFollowsEachAgent : Obligations.FetchFollowsEachAgent := by
  refine ⟨fun _ _ _ => rfl, fun s r w g hg hr hrem => ?ring, fun s d hbusy => ?inPass,
    fun s d hbusy hupc => ?idle⟩
  case ring =>
    rw [State.fetch, ringNext_of_getElem? hg hr hrem]
    split_ifs <;> rfl
  case inPass => simp [State.fetch, State.seqWord, State.seqEnabled, passWords, hbusy]
  case idle =>
    have hfirst : (passWords s.cfg)[s.upc.toNat]? = some 0x20000000#32 := by rw [hupc]; rfl
    simp [State.fetch, State.seqWord, State.seqEnabled, State.pend, hbusy, hfirst]

/-! ### Invalid words (rules R100, R101, R270) -/

theorem runWord_of_decode_error {w : Word} {e : DecodeError} (s : State) (h : decode w = .error e) :
    runWord w s = invalidWord s := by
  simp [runWord, h]

theorem invalidWord_host {s : State} (hi : s.issuer = .host) :
    invalidWord s = .next (raiseFault .illegalOp s) := by
  simp [invalidWord, hi]

/-- Settles O7: the host's turn runs its word, and an invalid one raises ILLEGAL_OP. -/
theorem invalidWordRaisesIllegalOp : Obligations.InvalidWordRaisesIllegalOp := by
  intro s opw wdata rest e ht hd
  rw [step_of_turns ht, runTurn_of_fetch rfl, runWord_of_decode_error _ hd, invalidWord_host rfl]
  rfl

/-! ### Operations that an agent never forms (rules R100, R275; log 8) -/

section
variable {s : State}

theorem hostOp_refused {k : State → State} (hi : s.issuer ≠ .host) :
    hostOp s k = .refused .neverFormed := by
  cases h : s.issuer <;> simp_all [hostOp]

theorem hostAnyOp_refused {k : State → State} (hi : s.issuer ≠ .host) :
    hostAnyOp s k = .refused .neverFormed := by
  cases h : s.issuer <;> simp_all [hostAnyOp]

theorem ringOp_refused {r : BitVec 4} {legal : Bool} {k : State → Result} (hi : s.issuer ≠ .host)
    (hr : s.issuer = .ring r → legal = false) : ringOp r legal s k = .refused .neverFormed := by
  cases h : s.issuer with
  | host => exact absurd h hi
  | seq => simp [ringOp, h]
  | ring q =>
    by_cases hq : q = r
    · simp [ringOp, h, hr (hq ▸ h)]
    · simp [ringOp, h, hq]

theorem seqOp_refused {legal : Bool} {k : State → Result} (hi : s.issuer ≠ .host)
    (hs : s.issuer = .seq → legal = false) : seqOp legal s k = .refused .neverFormed := by
  cases h : s.issuer with
  | host => exact absurd h hi
  | ring q => simp [seqOp, h]
  | seq => simp [seqOp, h, hs h]

end

/-- The rows of the opcode table that the sequencer executes (rule R99). -/
def seqMnemonics : List String :=
  ["ENTER", "PROBE", "LDW", "STW", "LEAVE", "DEINT", "ASM", "HSH", "HPU", "CLR", "MAC", "SAT", "SHL"]

/-- Who executes an operation (rules R99, R129): its meaning is one of the four shared forms, and the forms of
a ring engine and of the sequencer ask that its fields are legal. -/
inductive RunsAs (s : State) (i : Instr) : Result → Prop where
  | host (k : State → State) : RunsAs s i (hostOp s k)
  | hostAny (k : State → State) : RunsAs s i (hostAnyOp s k)
  | ring (r : BitVec 4) (k : State → Result) (hi : i = .movi r ∨ i = .movo r ∨ i = .rld r) :
      RunsAs s i (ringOp r (i.wellFormed s.cfg) s k)
  | seq (k : State → Result) (hi : (rowOf i).mnemonic ∈ seqMnemonics) :
      RunsAs s i (seqOp (i.wellFormed s.cfg) s k)

/-- PROBE is the host's and the sequencer's; a ring engine that asks for it is refused as for any operation of
the sequencer's (rule R162; log 8). -/
theorem execProbe_runsAs (s : State) (r : BitVec 4) : RunsAs s (.probe r) (execProbe r s) := by
  have hseq := RunsAs.seq (s := s) (i := .probe r) (fun s => .next (probeRing r.toNat s))
    (by simp [rowOf, seqMnemonics])
  cases hi : s.issuer with
  | host =>
    simp only [execProbe, hi]
    exact .host _
  | ring q => simpa [execProbe, seqOp, hi] using hseq
  | seq => simpa [execProbe, Instr.wellFormed, hi] using hseq

theorem exec_runsAs (s : State) (i : Instr) : RunsAs s i (exec i s) := by
  cases i with
  | nop | wrreg | cfg | start | arm | stop | expand =>
    simp only [exec, execNop, execWrreg, execCfg, execStart, execArm, execStop, execExpand]
    exact .host _
  | rdreg | srst =>
    simp only [exec, execRdreg, execSrst]
    exact .hostAny _
  | movi r =>
    simp only [exec, execMovi]
    exact .ring r _ (.inl rfl)
  | movo r =>
    simp only [exec, execMovo]
    exact .ring r _ (.inr (.inl rfl))
  | rld r =>
    simp only [exec, execRld]
    exact .ring r _ (.inr (.inr rfl))
  | probe r => exact execProbe_runsAs s r
  | enter | ldw | stw | leave | deint | asm | hsh | hpu | clr | mac | sat | shl =>
    simp only [exec, execEnter, execLdw, execStw, execLeave, execDeint, execAsm, execHsh, execHpu, execClr,
      execMac, execSat, execShl]
    exact .seq _ (by simp [rowOf, seqMnemonics])

/-- A ring engine and the sequencer run legal operations of their own only. -/
theorem exec_refused {s : State} {i : Instr} (hi : s.issuer ≠ .host)
    (hring : ∀ r, s.issuer = .ring r → i = .movi r ∨ i = .movo r ∨ i = .rld r →
      i.wellFormed s.cfg = false)
    (hseq : s.issuer = .seq → (rowOf i).mnemonic ∈ seqMnemonics → i.wellFormed s.cfg = false) :
    exec i s = .refused .neverFormed := by
  have h := exec_runsAs s i
  generalize exec i s = res at h ⊢
  cases h with
  | host k => exact hostOp_refused hi
  | hostAny k => exact hostAnyOp_refused hi
  | ring r k hop => exact ringOp_refused hi fun hr => hring r hr hop
  | seq k hop => exact seqOp_refused hi fun hs => hseq hs hop

/-- Settles O51: each clause says why no engine runs the operation as a legal one of its own. -/
theorem operationsNeverFormedAreRefused : Obligations.OperationsNeverFormedAreRefused := by
  intro i s
  refine ⟨fun hi hrow => ?seq, fun r hi hmovi hmovo hrld => ?ring, fun hi hw => ?illegal⟩
  case seq =>
    exact exec_refused (by simp [hi]) (fun r h => by simp [hi] at h) fun _ h => absurd h hrow
  case ring =>
    refine exec_refused (by simp [hi]) (fun q h hop => ?_) fun h => by simp [hi] at h
    obtain rfl : r = q := by simpa [hi] using h
    simp [hmovi, hmovo, hrld] at hop
  case illegal => exact exec_refused hi (fun _ _ _ => hw) fun _ _ => hw

/-! ### What the agents form is never refused (rules R100, R166, R275) -/

/-- Settles O57: ENTER, the operations of the body, LEAVE. -/
theorem microProgramIsLegal : Obligations.MicroProgramIsLegal := by
  intro c hc i h
  rw [passProg_eq] at h
  rcases List.mem_cons.1 h with rfl | h
  · rfl
  rcases List.mem_append.1 h with h | h
  · exact (passOp_of_mem_passBody h).wellFormed hc
  · obtain rfl := List.mem_singleton.1 h
    rfl

theorem orStop_ne_refused {α : Type} (e : Except Fault α) (k : α → State) (r : Refusal) :
    orStop e k ≠ .refused r := by
  cases e <;> simp [orStop]

theorem hostOp_host {s : State} {k : State → State} (hi : s.issuer = .host) :
    hostOp s k = .next (if s.halt then s.answer 0 .fault else k s) := by
  simp [hostOp, hi]

theorem ringOp_host {r : BitVec 4} {legal : Bool} {s : State} {k : State → Result}
    (hi : s.issuer = .host) : ringOp r legal s k = .next (raiseFault .illegalOp s) := by
  simp [ringOp, hi]

theorem seqOp_host {legal : Bool} {s : State} {k : State → Result} (hi : s.issuer = .host) :
    seqOp legal s k = .next (raiseFault .illegalOp s) := by
  simp [seqOp, hi]

/-- Whatever operation the host presents has a next state (rules R129, R262, R270). -/
theorem exec_host_completes {s : State} (i : Instr) (hi : s.issuer = .host) :
    ∃ t, exec i s = .next t := by
  have h := exec_runsAs s i
  generalize exec i s = res at h ⊢
  cases h with
  | host k => exact ⟨_, hostOp_host hi⟩
  | hostAny k => exact ⟨_, hostAnyOp_run k hi⟩
  | ring r k => exact ⟨_, ringOp_host hi⟩
  | seq k => exact ⟨_, seqOp_host hi⟩

theorem runTurn_host_completes (s : State) (opw wdata : Word) :
    ∃ t, runTurn (.host opw wdata) s = .next t := by
  rw [runTurn_of_fetch rfl]
  cases h : decode opw with
  | ok i =>
    rw [runWord_of_decode _ h]
    exact exec_host_completes i rfl
  | error e => exact ⟨_, (runWord_of_decode_error _ h).trans (invalidWord_host rfl)⟩

/-- RLD of a ring's engine (rule R143; log 9). -/
theorem exec_rld_ring {s : State} {r : BitVec 4} (hi : s.issuer = .ring r) (hn : r.toNat ≤ s.cfg.nout) :
    exec (.rld r) s = .next (reloadRing r s) := by
  change execRld r s = _
  rw [execRld, ringOp_run _ hi (by simpa [ringLegal] using hn)]

/-- A ring engine's own operation is never refused; it may stop at its access to MEM (log 7). -/
theorem exec_ne_refused_of_ringNext {s : State} {r : BitVec 4} {w : Word} {i : Instr}
    (h : s.ringNext r = some i) (ref : Refusal) : exec i (s.present (.ring r w)) ≠ .refused ref := by
  obtain ⟨hn, hen, hop⟩ := ringNext_eq_some h
  have hg := getElem?_rings_of_en hen
  rcases hop with ⟨-, rfl⟩ | ⟨rfl, rfl⟩ | ⟨h1, rfl⟩
  · rw [exec_rld_ring (s := s.present (.ring r w)) rfl hn]
    simp
  · rw [exec_movi_ring (s := s.present (.ring 0 w)) rfl hg]
    exact orStop_ne_refused _ _ ref
  · rw [exec_movo_ring (s := s.present (.ring r w)) rfl h1 hn hg]
    exact orStop_ne_refused _ _ ref

theorem runTurn_ring_ne_refused (s : State) (r : BitVec 4) (w : Word) (ref : Refusal) :
    runTurn (.ring r w) s ≠ .refused ref := by
  cases h : s.ringNext r with
  | none => simp [runTurn_ring_idle (s := s) (r := r) (w := w) (by simp [State.fetch, h])]
  | some i =>
    have hf : s.fetch (.ring r w) = some (encode i) := by simp [State.fetch, h]
    rw [runTurn_of_fetch hf, runWord_of_decode _ (decode_encode i)]
    exact exec_ne_refused_of_ringNext h ref

/-- Settles O52: the host's and the sequencer's turns complete, a ring engine runs its own operation, and
the host's path to MEM and the reset input have nothing to refuse. -/
theorem noStepIsRefused : Obligations.NoStepIsRefused := by
  intro s ref hc
  have hcfg : s.takeTurn.2.cfg.Valid := by rw [takeTurn_state s]; exact hc
  have hcompletes : ∀ {res : Result}, (∃ t, res = .next t) → res ≠ .refused ref := by
    rintro _ ⟨t, rfl⟩
    simp
  unfold step
  cases s.takeTurn.1 with
  | host opw wdata => exact hcompletes (runTurn_host_completes _ opw wdata)
  | ring r w => exact runTurn_ring_ne_refused _ r w ref
  | seq d => exact hcompletes (runTurn_seq_completes d hcfg)
  | hostRead a => exact orStop_ne_refused _ _ ref
  | hostWrite a v => exact orStop_ne_refused _ _ ref
  | reset => exact hcompletes ⟨_, rfl⟩

end Sys2Proof.Machine

/-! SUPPORT. The statements of the family 40_host_config.md: what the port answers in HALT and to the
operations of the engines, NOP, CFG, START, ARM and STOP, and who writes the audio state. -/

namespace Sys2Proof.Machine

/-! ### The port in HALT, and what is no operation of the host's (rules R129, R270) -/

/-- In HALT every effect at the port but those of RDREG and SRST is the bare answer: the effects left are of
HALT = 0 or of another issuer (rule R129). -/
theorem Effect.eq_answer_of_halted {s t : State} {i : Instr} (he : Effect s i t) (hi : s.issuer = .host)
    (hh : s.halt = true) (hrd : ∀ off, i ≠ .rdreg off) (hsrst : i ≠ .srst) :
    t = s.answer 0 .fault := by
  cases he with
  | halted => rfl
  | faults code => exact raiseFault_halted _ hh
  | rdreg off => exact absurd rfl (hrd off)
  | srst => exact absurd rfl hsrst
  | _ => simp_all only [reduceCtorEq]

/-- Settles O9: whatever the host presents has a next state, and in HALT that state is the answer. -/
theorem haltedPortOnlyAnswers : Obligations.HaltedPortOnlyAnswers := by
  intro i s hi hh hrd hsrst
  obtain ⟨t, ht⟩ := exec_host_completes i hi
  rw [ht, (exec_effect ht).eq_answer_of_halted hi hh hrd hsrst]
  rfl

/-- Settles O10: the meaning of each of the fifteen is a ring operation or a sequencer operation. -/
theorem engineOperationsFaultAtThePort : Obligations.EngineOperationsFaultAtThePort := by
  intro i s hi hrow
  cases i with
  | movi | movo | rld => simp only [exec, execMovi, execMovo, execRld, ringOp_host hi]
  | enter | ldw | stw | leave | deint | asm | hsh | hpu | clr | mac | sat | shl =>
    simp only [exec, execEnter, execLdw, execStw, execLeave, execDeint, execAsm, execHsh, execHpu, execClr,
      execMac, execSat, execShl, seqOp_host hi]
  | nop | rdreg | wrreg | cfg | start | arm | stop | srst | probe | expand =>
    exact absurd hrow (by simp [rowOf])

theorem exec_nop_run {s : State} (hi : s.issuer = .host) (hh : s.halt = false) :
    exec .nop s = .next (s.answerOk 0) := by
  change execNop s = _
  rw [execNop, hostOp_run _ hi hh]

/-- Settles O11: NOP is a host operation that answers 0. -/
theorem nopOnlyAnswers : Obligations.NopOnlyAnswers := ⟨rfl, fun _ hi hh => exec_nop_run hi hh⟩

/-! ### CFG (rules R123, R272) -/

section
variable {c : Cfg} {r : BitVec 4} {g : Ring}

/-- The length that CFG wants of a ring (rules R8, R123). -/
theorem ringLen_toNat (c : Cfg) (r : BitVec 4) :
    c.ringLen r.toNat = if r = 0 then c.capLen else c.pbLen := by
  simp [Cfg.ringLen, ← BitVec.toNat_inj]

theorem cfgCheck_illegalOp (hr : c.nout < r.toNat) : cfgCheck c r g = some .illegalOp := by
  simp [cfgCheck, ringLegal, hr]

theorem cfgCheck_cfgBusy (hr : r.toNat ≤ c.nout) (hen : g.en = true) :
    cfgCheck c r g = some .cfgBusy := by
  simp [cfgCheck, ringLegal, hr, hen]

theorem cfgCheck_cfgSize (hr : r.toNat ≤ c.nout) (hen : g.en = false)
    (hlen : g.len.toNat ≠ c.ringLen r.toNat) : cfgCheck c r g = some .cfgSize := by
  simp [cfgCheck, ringLegal, hr, hen, hlen]

/-- The checks left for a stopped ring of the length that CFG wants: its two addresses. -/
theorem cfgCheck_addresses (hr : r.toNat ≤ c.nout) (hen : g.en = false)
    (hlen : g.len.toNat = c.ringLen r.toNat) :
    cfgCheck c r g =
      if g.addrA.toNat % (4 * g.len.toNat) ≠ 0 ∨ g.addrB.toNat % (4 * g.len.toNat) ≠ 0 then
        some .cfgAlign
      else if c.memSize < g.addrA.toNat + 4 * g.len.toNat ∨
          c.memSize < g.addrB.toNat + 4 * g.len.toNat then some .cfgRange
      else if g.addrA = g.addrB then some .cfgOverlap
      else none := by
  simp [cfgCheck, ringLegal, hr, hen, hlen]

end

section
variable {s : State} {r : BitVec 4}

/-- CFG of a ring that fails a check (rule R123). -/
theorem exec_cfg_fault {code : FaultCode} (hi : s.issuer = .host) (hh : s.halt = false)
    (h : cfgCheck s.cfg r (s.ringAt r.toNat) = some code) :
    exec (.cfg r) s = .next (raiseFault code s) := by
  change execCfg r s = _
  rw [execCfg, hostOp_run _ hi hh, h]

/-- CFG of a ring that passes every check (rule R123). -/
theorem exec_cfg_install {g : Ring} (hi : s.issuer = .host) (hh : s.halt = false)
    (hg : s.rings[r.toNat]? = some g) (h : cfgCheck s.cfg r g = none) :
    exec (.cfg r) s =
      .next ({ s with rings := s.rings.set r.toNat g.install }.answerOk 0) := by
  change execCfg r s = _
  rw [execCfg, hostOp_run _ hi hh, ringAt_of_getElem? hg, h, State.modifyRing,
    modify_eq_set_of_getElem? _ hg]

end

/-- Settles O15: every check of CFG passes. -/
theorem cfgInstallsTheDescriptors : Obligations.CfgInstallsTheDescriptors := by
  intro s r g hi hh hr hg hen hlen halignA halignB hrangeA hrangeB hne
  refine exec_cfg_install hi hh hg ?_
  rw [cfgCheck_addresses hr hen (hlen.trans (ringLen_toNat _ _).symm)]
  rw [if_neg (by simp [halignA, halignB]), if_neg (by omega), if_neg hne]

/-- Settles O16: the checks in their order, each past the ones before it. -/
theorem cfgFirstFailingCheckDecides : Obligations.CfgFirstFailingCheckDecides := by
  intro s r hi hh
  refine ⟨fun hr => exec_cfg_fault hi hh (cfgCheck_illegalOp hr), fun g hr hg => ?_⟩
  have fault : ∀ {code : FaultCode}, cfgCheck s.cfg r g = some code →
      exec (.cfg r) s = .next (raiseFault code s) := fun h =>
    exec_cfg_fault hi hh (by rwa [ringAt_of_getElem? hg])
  refine ⟨fun hen => fault (cfgCheck_cfgBusy hr hen), fun hen => ?_⟩
  rw [← ringLen_toNat]
  refine ⟨fun hlen => fault (cfgCheck_cfgSize hr hen hlen), fun hlen => ?_⟩
  rw [cfgCheck_addresses hr hen hlen] at fault
  refine ⟨fun halign => fault (if_pos halign), fun halignA halignB => ?_⟩
  rw [if_neg (by simp [halignA, halignB])] at fault
  refine ⟨fun hrange => fault (if_pos hrange), fun hrangeA hrangeB heq => ?_⟩
  rw [if_neg (by omega)] at fault
  exact fault (if_pos heq)

/-! ### START, ARM and STOP (rules R124 to R126) -/

section
variable {s : State}

/-- START of a started block, or with a ring that is not configured (rules R124, R268). -/
theorem exec_start_notReady (hi : s.issuer = .host) (hh : s.halt = false)
    (h : s.started = true ∨ ∃ g ∈ s.rings, g.cfgd = false) :
    exec .start s = .next (raiseFault .notReady s) := by
  change execStart s = _
  rw [execStart, hostOp_run _ hi hh]
  rcases h with h | h
  · rw [if_pos h]
  · rw [if_pos (c := (s.rings.any fun g => !g.cfgd) = true) (by simpa using h), ite_self]

/-- START of a stopped block with every ring configured (rule R124). -/
theorem exec_start_ready (hi : s.issuer = .host) (hh : s.halt = false) (hs : s.started = false)
    (hc : ∀ g ∈ s.rings, g.cfgd = true) :
    exec .start s = .next ({ (s.mapRings Ring.enable) with started := true }.answerOk 0) := by
  change execStart s = _
  rw [execStart, hostOp_run _ hi hh, if_neg (by simp [hs]), if_neg (by simpa using hc)]

/-- ARM of a block that is not started or is armed already (rules R125, R268). -/
theorem exec_arm_notReady (hi : s.issuer = .host) (hh : s.halt = false)
    (h : s.started = false ∨ s.armed = true) : exec .arm s = .next (raiseFault .notReady s) := by
  change execArm s = _
  rw [execArm, hostOp_run _ hi hh, if_pos (by simpa using h)]

/-- ARM of a started block (rule R125). -/
theorem exec_arm_ready (hi : s.issuer = .host) (hh : s.halt = false) (hs : s.started = true)
    (ha : s.armed = false) :
    exec .arm s = .next ({ s with irq := 0, armed := true }.answerOk 0) := by
  change execArm s = _
  rw [execArm, hostOp_run _ hi hh, if_neg (by simp [hs, ha])]

/-- STOP has no check (rule R126). -/
theorem exec_stop_run (hi : s.issuer = .host) (hh : s.halt = false) :
    exec .stop s =
      .next ({ (s.mapRings Ring.halted) with started := false, armed := false }.answerOk 0) := by
  change execStop s = _
  rw [execStop, hostOp_run _ hi hh]

end

/-- Settles O17: the two causes of NOT_READY, and neither. -/
theorem startEnablesEveryRing : Obligations.StartEnablesEveryRing :=
  ⟨rfl, fun _ hi hh => ⟨fun hs => exec_start_notReady hi hh (.inl hs),
    fun _ hc => exec_start_notReady hi hh (.inr hc), fun hs hc => exec_start_ready hi hh hs hc⟩⟩

/-- Settles O18: NOT_READY or the arming. -/
theorem armDiscardsCompletions : Obligations.ArmDiscardsCompletions :=
  ⟨rfl, fun _ hi hh => ⟨exec_arm_notReady hi hh, exec_arm_ready hi hh⟩⟩

/-- Settles O19: the effect of STOP, field by field. -/
theorem stopDisablesEveryRing : Obligations.StopDisablesEveryRing :=
  ⟨rfl, fun _ hi hh => exec_stop_run hi hh⟩

/-! ### Who writes the audio state (rules R129 (d), R169) -/

theorem State.sameAudio.trans {s t u : State} (h : s.sameAudio t) (h' : t.sameAudio u) :
    s.sameAudio u := by
  obtain ⟨hh, hx, hcw, hlb, hph, hbase, hy, hacc⟩ := h
  obtain ⟨hh', hx', hcw', hlb', hph', hbase', hy', hacc'⟩ := h'
  exact ⟨hh'.trans hh, hx'.trans hx, hcw'.trans hcw, hlb'.trans hlb, hph'.trans hph,
    hbase'.trans hbase, hy'.trans hy, hacc'.trans hacc⟩

theorem takeTurn_sameAudio (s : State) : s.sameAudio s.takeTurn.2 := by
  rw [takeTurn_state]
  exact ⟨rfl, rfl, rfl, rfl, rfl, rfl, rfl, rfl⟩

theorem present_sameAudio (s : State) (tn : Turn) : s.sameAudio (s.present tn) := by
  simp [State.sameAudio]

theorem raiseFault_sameAudio (code : FaultCode) (s : State) : s.sameAudio (raiseFault code s) := by
  simp [State.sameAudio]

/-- No operation of the host but SRST and no operation of a ring engine writes the audio state (rules
R129 (d), R169). -/
theorem Effect.sameAudio_of_not_seq {s t : State} {i : Instr} (he : Effect s i t)
    (hi : s.issuer ≠ .seq) (hsrst : s.issuer = .host → i ≠ .srst) : s.sameAudio t := by
  cases he with
  | faults code => exact raiseFault_sameAudio _ s
  | srst hhost => exact absurd rfl (hsrst hhost)
  | movi u _ hw =>
    obtain ⟨-, rfl⟩ := memWrite_ok hw
    rw [finishMove_eq]
    exact ⟨rfl, rfl, rfl, rfl, rfl, rfl, rfl, rfl⟩
  | movo =>
    rw [finishMove_eq]
    exact ⟨rfl, rfl, rfl, rfl, rfl, rfl, rfl, rfl⟩
  | expand => simp [State.sameAudio]
  | halted | nop | rdreg | wrIrq | wrRing | cfg | start | arm | stop | probeHost | rld =>
    exact ⟨rfl, rfl, rfl, rfl, rfl, rfl, rfl, rfl⟩
  | _ => exact absurd ‹_› hi

/-- ENTER writes none of the audio state: it begins the pass (rule R161). -/
theorem Effect.sameAudio_of_enter {s t : State} (he : Effect s .enter t) (hi : s.issuer = .seq) :
    s.sameAudio t := by
  rw [he.enter_eq hi]
  exact ⟨rfl, rfl, rfl, rfl, rfl, rfl, rfl, rfl⟩

/-- A sequencer at UPC 0 fetches ENTER (rules R160, R166). -/
theorem eq_enter_of_fetch {s : State} {d w : Word} {i : Instr} (hupc : s.upc = 0)
    (hf : s.fetch (.seq d) = some w) (hd : decode w = .ok i) : i = .enter := by
  have hp := getElem?_passProg_of_fetch hf hd
  rw [(passProg_getElem?_enter _ _).2 (by simp [hupc])] at hp
  exact (Option.some.inj hp).symm

/-- A turn writes the audio state only if it is a reset, or the sequencer's past ENTER. -/
theorem TurnEffect.sameAudio {s t : State} {tn : Turn} (he : TurnEffect s tn t) (hreset : tn ≠ .reset)
    (hsrst : ∀ opw wdata, tn = .host opw wdata → decode opw ≠ .ok .srst)
    (hwho : (∀ d, tn ≠ .seq d) ∨ s.upc = 0) : s.sameAudio t := by
  cases he with
  | runs _ w i _ hf hd he =>
    refine (present_sameAudio s tn).trans ?_
    by_cases hi : (s.present tn).issuer = .seq
    · obtain ⟨d, rfl⟩ := fetch_issuer_seq hf hi
      obtain rfl := eq_enter_of_fetch (hwho.resolve_left fun hne => hne d rfl) hf hd
      exact he.sameAudio_of_enter hi
    · refine he.sameAudio_of_not_seq hi fun hhost heq => ?_
      obtain ⟨opw, wdata, rfl⟩ := fetch_issuer_host hf hhost
      obtain rfl : opw = w := Option.some.inj hf
      exact hsrst opw wdata rfl (heq ▸ hd)
  | invalid opw wdata =>
    exact (present_sameAudio s (.host opw wdata)).trans (raiseFault_sameAudio _ _)
  | hostWrite a v _ hw =>
    obtain ⟨-, rfl⟩ := memWrite_ok hw
    exact ⟨rfl, rfl, rfl, rfl, rfl, rfl, rfl, rfl⟩
  | reset => exact absurd rfl hreset
  | idleRing | idleSeq | hostRead => exact ⟨rfl, rfl, rfl, rfl, rfl, rfl, rfl, rfl⟩

/-- Settles O55: a sequencer that is not in a pass stands at UPC 0, where ENTER is. -/
theorem onlyAPassWritesAudioState : Obligations.OnlyAPassWritesAudioState := by
  intro s t h hreset hsrst hwho
  have hturn : TurnEffect s.takeTurn.2 s.takeTurn.1 t := runTurn_effect h
  refine (takeTurn_sameAudio s).trans (hturn.sameAudio hreset hsrst (hwho.imp_right ?_))
  rintro ⟨hbusy, -, -, hupc, -⟩
  rw [takeTurn_state]
  by_contra hne
  simp [hupc.2 hne] at hbusy

end Sys2Proof.Machine

/-! SUPPORT. The statements of the family 41_transfer_ring.md: MOVI, MOVO and RLD, what PROBE reports of a
ring, and the halves that a ring is in one after the other. -/

namespace Sys2Proof.Machine

/-! ### The end of a move -/

/-- Whether a move is the last of its half-block (rules R141, R142). -/
theorem rem_sub_one_eq_zero_iff {g : Ring} : g.rem - 1 = 0 ↔ g.rem.toNat = 1 := by
  rw [sub_eq_zero, ← BitVec.toNat_inj]
  rfl

/-- The bytes of MEM after a move are those before its tail: RLD writes no byte of MEM (rule R143). -/
@[simp] theorem finishMove_byteAt (r : BitVec 4) (s : State) (x : Nat) :
    (finishMove r s).byteAt x = s.byteAt x := by
  rw [finishMove_eq]
  rfl

@[simp] theorem finishMove_wordAt (r : BitVec 4) (s : State) (a : Nat) :
    (finishMove r s).wordAt a = s.wordAt a :=
  wordAt_congr fun x _ _ => finishMove_byteAt r s x

/-- The end of a move that moved the last word is RLD: what the move made of CUR and REM is overwritten
(rules R141 to R143). -/
theorem finishMove_eq_reloadRing {r : BitVec 4} {s : State} {g : Ring} (hg : s.rings[r.toNat]? = some g)
    (hlast : g.rem.toNat = 1) : finishMove r s = reloadRing r s :=
  (finishMove_last hg (rem_sub_one_eq_zero_iff.2 hlast)).trans (reloadRing_eq hg).symm

/-- The end of a move that leaves words to move, by the count of the words left (rules R141, R142). -/
theorem finishMove_of_two_le {r : BitVec 4} {s : State} {g : Ring} (hg : s.rings[r.toNat]? = some g)
    (hmore : 2 ≤ g.rem.toNat) :
    finishMove r s =
      { s with rings := s.rings.set r.toNat { g with cur := g.cur + 4, rem := g.rem - 1 } } :=
  finishMove_more hg fun h => by
    have := rem_sub_one_eq_zero_iff.1 h
    omega

/-- RLD with the base and the half that NEXT selects spelled out (rule R143). -/
theorem reloadRing_by_half {r : BitVec 4} {s : State} {g : Ring} (hg : s.rings[r.toNat]? = some g) :
    reloadRing r s =
      { s with
        rings := s.rings.set r.toNat { g with
          cur := match g.next with | .b => g.addrB | .a => g.addrA
          next := match g.next with | .b => .a | .a => .b
          rem := g.len }
        irq := if g.irqen then s.irq ||| BitVec.twoPow 32 r.toNat else s.irq
        events := .complete r :: s.events } := by
  rw [reloadRing_eq hg]
  cases g.next <;> rfl

/-- Settles O22: MOVI is one word write and the end of the move, which is that of a word with more to come or
that of the last word. -/
theorem moviStoresTheCaptureWord : Obligations.MoviStoresTheCaptureWord := by
  intro s g hi hg halign hin hrem
  refine ⟨_, (exec_movi_ring hi hg).trans (orStop_memWrite _ halign hin), ?_, fun x hx => ?_,
    fun hmore => ?_, fun hlast => ?_⟩
  · rw [finishMove_wordAt]
    exact wordAt_setWord s g.cur.toNat s.draw
  · rw [finishMove_byteAt]
    exact byteAt_setWord_outside s s.draw hx
  · exact finishMove_of_two_le hg hmore
  · exact Eq.trans (finishMove_eq_reloadRing hg hlast) (reloadRing_by_half hg)

/-- Settles O23: MOVO is one word read and the end of the move, which is that of a word with more to come or
that of the last word. -/
theorem movoDeliversThePlaybackWord : Obligations.MovoDeliversThePlaybackWord := by
  intro s r g hi h1 hn hg halign hin hrem
  rw [exec_movo_ring hi h1 hn hg, orStop_memRead _ halign hin]
  refine ⟨fun hmore => congrArg _ ?_, fun hlast => congrArg _ ?_⟩
  · exact finishMove_of_two_le hg hmore
  · exact Eq.trans (finishMove_eq_reloadRing hg hlast) (reloadRing_by_half hg)

/-- Settles O24: RLD of a ring's engine is the reload. -/
theorem rldReloadsTheDescriptor : Obligations.RldReloadsTheDescriptor := by
  intro s r g hi hn hg
  exact (exec_rld_ring hi hn).trans (congrArg _ (reloadRing_by_half hg))

/-! ### The half that CUR lies in (rule R145) -/

/-- CUR lies in a half. -/
def Ring.curIn (g : Ring) (half : Half) : Prop :=
  (g.baseOf half).toNat ≤ g.cur.toNat ∧ g.cur.toNat < (g.baseOf half).toNat + 4 * g.len.toNat

section
variable {g : Ring}

theorem Ring.active_of_curIn_a (hen : g.en = true) (ha : g.curIn .a) : g.active = some .a := by
  rw [Ring.active, if_neg (by simp [hen])]
  exact if_pos ha

theorem Ring.active_of_curIn_b (hen : g.en = true) (ha : ¬g.curIn .a) (hb : g.curIn .b) :
    g.active = some .b := by
  rw [Ring.active, if_neg (by simp [hen])]
  exact (if_neg ha).trans (if_pos hb)

theorem Ring.active_eq_none (h : g.en = false ∨ (¬g.curIn .a ∧ ¬g.curIn .b)) : g.active = none := by
  rw [Ring.active]
  obtain hen | ⟨ha, hb⟩ := h
  · exact if_pos (by simp [hen])
  · split
    · rfl
    · exact (if_neg ha).trans (if_neg hb)

end

/-! ### PROBE (rule R162) -/

section
variable {s : State} {r : BitVec 4} {g : Ring}

/-- PROBE inside a pass, given the half that it reports. -/
theorem exec_probe_seq {half : Half} (hi : s.issuer = .seq) (hn : r.toNat ≤ s.cfg.nout)
    (hg : s.rings[r.toNat]? = some g) (hhalf : probedHalf r.toNat s = half) :
    exec (.probe r) s = .next { s with
      ph := s.ph.set r.toNat half
      base := s.base.set r.toNat (g.baseOf (otherHalf half))
      upc := s.upc + 1 } := by
  have hseq : execProbe r s =
      seqOp (ringLegal s.cfg r) s fun s => .next (probeRing r.toNat s) := by
    simp only [execProbe, hi]
  change execProbe r s = _
  rw [hseq, seqOp_run _ hi (by simpa [ringLegal] using hn), probeRing, hhalf, ringAt_of_getElem? hg]
  rfl

theorem probedHalf_of_active {half : Half} (hg : s.rings[r.toNat]? = some g)
    (h : g.active = some half) : probedHalf r.toNat s = half := by
  simp only [probedHalf, State.active, ringAt_of_getElem? hg, h]

/-- The drawn half of PROBE (log 16). -/
theorem probedHalf_drawn (hg : s.rings[r.toNat]? = some g) (h : g.active = none) :
    probedHalf r.toNat s = if s.draw.getLsbD 0 then .b else .a := by
  simp only [probedHalf, State.active, ringAt_of_getElem? hg, h]
  cases s.draw.getLsbD 0 <;> rfl

/-- PROBE at the host port of a ring there is. -/
theorem exec_probe_host (hi : s.issuer = .host) (hh : s.halt = false) (hn : r.toNat ≤ s.cfg.nout) :
    exec (.probe r) s = .next (s.answerOk (probeAnswer r.toNat s)) := by
  change execProbe r s = _
  simp only [execProbe, hi]
  rw [hostOp_run _ hi hh, if_pos (by simpa [ringLegal] using hn)]

/-- PROBE at the host port of a ring there is not (rule R270). -/
theorem exec_probe_host_badRing (hi : s.issuer = .host) (hh : s.halt = false)
    (hn : s.cfg.nout < r.toNat) : exec (.probe r) s = .next (raiseFault .illegalOp s) := by
  change execProbe r s = _
  simp only [execProbe, hi]
  rw [hostOp_run _ hi hh, if_neg (by simpa [ringLegal] using hn)]

theorem probeAnswer_of_active {half : Half} (hg : s.rings[r.toNat]? = some g)
    (h : g.active = some half) : probeAnswer r.toNat s = BitVec.ofNat 32 (halfBit half) := by
  simp only [probeAnswer, State.active, ringAt_of_getElem? hg, h]

theorem probeAnswer_of_none (hg : s.rings[r.toNat]? = some g) (h : g.active = none) :
    probeAnswer r.toNat s = 0x80000000 := by
  simp only [probeAnswer, State.active, ringAt_of_getElem? hg, h]

end

/-- Settles O26: the three cases of `active`, each the half that PROBE reports. -/
theorem probeSelectsTheIdleHalf : Obligations.ProbeSelectsTheIdleHalf := by
  intro s r g hi hn hg bytes probed
  have hprobed : ∀ half, probedHalf r.toNat s = half → exec (.probe r) s = probed half := by
    intro half hhalf
    rw [exec_probe_seq hi hn hg hhalf]
    cases half <;> rfl
  refine ⟨fun hen hlo hhi => hprobed _ (probedHalf_of_active hg ?_),
    fun hen ha hlo hhi => hprobed _ (probedHalf_of_active hg ?_),
    fun hnone => hprobed _ (probedHalf_drawn hg ?_)⟩
  · exact Ring.active_of_curIn_a hen ⟨hlo, hhi⟩
  · exact Ring.active_of_curIn_b hen ha ⟨hlo, hhi⟩
  · exact Ring.active_eq_none hnone

/-- Settles O27: the bad ring, and the three cases of `active` with the answer of each. -/
theorem probeAnswersTheHost : Obligations.ProbeAnswersTheHost := by
  intro s r hi hh
  refine ⟨exec_probe_host_badRing hi hh, fun g hn hg => ?_⟩
  rw [exec_probe_host hi hh hn]
  refine ⟨fun hen hlo hhi => ?_, fun hen ha hlo hhi => ?_, fun hnone => ?_⟩
  · rw [probeAnswer_of_active hg (Ring.active_of_curIn_a hen ⟨hlo, hhi⟩)]
    rfl
  · rw [probeAnswer_of_active hg (Ring.active_of_curIn_b hen ha ⟨hlo, hhi⟩)]
    rfl
  · rw [probeAnswer_of_none hg (Ring.active_eq_none hnone)]
    rfl

/-! ### The halves alternate (rules R144 (c), R145) -/

section
variable {c : Cfg} {r : Nat} {g : Ring}

/-- Of a configured ring the two halves are apart, so CUR does not lie in both (rules R62, R123). -/
theorem Ring.descriptorsGood.not_curIn_both (h : g.descriptorsGood c r) :
    ¬(g.curIn .a ∧ g.curIn .b) := by
  obtain ⟨hlen, ⟨halignA, -⟩, ⟨halignB, -⟩, hne, -⟩ := h
  rw [← hlen] at halignA halignB
  have hab : g.addrA.toNat ≡ g.addrB.toNat [MOD 4 * g.len.toNat] := halignA.trans halignB.symm
  rintro ⟨⟨hloA, hhiA⟩, hloB, hhiB⟩
  simp only [Ring.baseOf] at hloA hhiA hloB hhiB
  rcases Nat.lt_or_gt_of_ne fun heq => hne (BitVec.eq_of_toNat_eq heq) with hlt | hgt
  · have := hab.add_le_of_lt hlt
    omega
  · have := hab.symm.add_le_of_lt hgt
    omega

/-- CUR of a configured ring lies in the half that NEXT does not name (rule R144 (b)). -/
theorem Ring.descriptorsGood.curIn_moving (h : g.descriptorsGood c r) :
    g.curIn (otherHalf g.next) := by
  obtain ⟨-, -, -, -, hpos, hrem, hcur⟩ := h
  rw [Ring.movingBase] at hcur
  constructor <;> omega

/-- The active half of an enabled and configured ring is the one that NEXT does not name (rules R144 (b),
R145). -/
theorem Ring.descriptorsGood.active_eq (h : g.descriptorsGood c r) (hen : g.en = true) :
    g.active = some (otherHalf g.next) := by
  have hin := h.curIn_moving
  cases hn : g.next with
  | a =>
    rw [hn] at hin
    exact Ring.active_of_curIn_b hen (fun ha => h.not_curIn_both ⟨ha, hin⟩) hin
  | b =>
    rw [hn] at hin
    exact Ring.active_of_curIn_a hen hin

theorem Ring.good.active_eq (h : g.good c r) (hen : g.en = true) :
    g.active = some (otherHalf g.next) :=
  (h.2 (h.1 hen)).active_eq hen

/-- A move complements NEXT exactly when it moves the last word (rules R141 to R143). -/
theorem Ring.afterMove_next (g : Ring) :
    g.afterMove.next = if g.rem.toNat = 1 then otherHalf g.next else g.next := by
  simp only [← rem_sub_one_eq_zero_iff]
  unfold Ring.afterMove
  exact apply_ite Ring.next _ _ _

end

/-- A move by a ring's own engine changes the registers of its ring as `Ring.afterMove` says, and those of
no other (rules R141 to R143). -/
theorem Effect.rings_of_move {s t : State} {r : BitVec 4} {i : Instr} (he : Effect s i t)
    (hi : s.issuer = .ring r) (hop : i = .movi r ∨ i = .movo r) :
    t.rings = s.rings.modify r.toNat Ring.afterMove := by
  have hhost : s.issuer ≠ .host := by simp [hi]
  obtain rfl | rfl := hop
  · cases he with
    | halted _ h => exact absurd h hhost
    | faults _ _ h => exact absurd h hhost
    | movi u _ hw =>
      obtain ⟨-, rfl⟩ := memWrite_ok hw
      exact finishMove_rings _ _
  · cases he with
    | halted _ h => exact absurd h hhost
    | faults _ _ h => exact absurd h hhost
    | movo => exact finishMove_rings _ _

/-- Settles O58: before and after the move the active half is the one that NEXT does not name, and the move
complements NEXT exactly when it completes the half-block. -/
theorem completionsAlternateTheHalves : Obligations.CompletionsAlternateTheHalves := by
  intro s t r g i hc hs hi hg hen hop h
  have hgood : g.good s.cfg r.toNat := hs _ _ hg
  have hbefore : s.active r.toNat = some (otherHalf g.next) := by
    rw [State.active, ringAt_of_getElem? hg, hgood.active_eq hen]
  have hg' : t.rings[r.toNat]? = some g.afterMove := by
    rw [(exec_effect h).rings_of_move hi hop]
    simp [hg]
  have hafter : t.active r.toNat = some (otherHalf g.afterMove.next) := by
    rw [State.active, ringAt_of_getElem? hg', (Ring.good_afterMove hc hgood).active_eq (by simpa using hen)]
  refine ⟨otherHalf g.next, hbefore, rfl, ?_⟩
  rw [hafter, Ring.afterMove_next, apply_ite otherHalf]

end Sys2Proof.Machine

/-! SUPPORT. The statements of the family 42_orchestrator.md: ENTER, LDW and LEAVE, from what the sequencer's
run of each is. -/

namespace Sys2Proof.Machine

/-! ### ENTER (rules R161, R273) -/

/-- Clearing a pending bit leaves every other bit (rule R36). -/
theorem clearPend_getLsbD (irq : Word) (r i : Nat) :
    (clearPend irq r).getLsbD i = (decide (i ≠ r) && irq.getLsbD i) := by
  rw [clearPend, BitVec.getLsbD_and, BitVec.getLsbD_not, BitVec.getLsbD_twoPow]
  by_cases hi : i < 32
  · by_cases hr : r = i
    · simp [hr]
    · simp [hi, hr, Ne.symm hr]
  · simp [BitVec.getLsbD_of_ge irq i (by omega)]

/-- Settles O25: the next state is that of ENTER run by the sequencer, and IRQ is the old one with bit 0
cleared. -/
theorem enterTakesTheCompletion : Obligations.EnterTakesTheCompletion :=
  fun s hi => ⟨_, exec_enter_seq hi, rfl, clearPend_getLsbD s.irq 0⟩

/-! ### LDW (rule R163) -/

section
variable {s : State} {k : BitVec 16}

/-- The address LDW computes, from the entry of BASE it uses. -/
theorem loadAddress_eq {b : Word} (hb : s.base[0]? = some b) :
    loadAddress k s = b.toNat + 4 * k.toNat := by
  simp [loadAddress, List.getD_eq_getElem?_getD, hb]

/-- LDW of the sequencer, whatever address it computes (rules R160, R163). -/
theorem exec_ldw_seq (hi : s.issuer = .seq) (hk : k.toNat < s.cfg.capLen) :
    exec (.ldw k) s = .next { s with cw := s.loadWord (loadAddress k s) }.advance := by
  change execLdw k s = _
  rw [execLdw, seqOp_run _ hi (by simpa [wordIndexLegal] using hk)]

end

/-- Settles O28: the word that CW takes is the one at the computed address, or the drawn one where MemRead
excludes that address. -/
theorem ldwLatchesTheCaptureWord : Obligations.LdwLatchesTheCaptureWord := by
  intro s k b hi hk hb a
  rw [exec_ldw_seq hi hk, loadAddress_eq hb]
  refine ⟨fun halign hin => ?inside, fun hex => ?excluded⟩
  case inside =>
    rw [loadWord_inside halign hin]
    rfl
  case excluded =>
    rw [loadWord_excluded (accessStop_ne_none hex)]
    rfl

/-! ### LEAVE (rules R165, R274) -/

/-- Settles O30: the next state is that of LEAVE run by the sequencer. -/
theorem leaveReturnsToIdle : Obligations.LeaveReturnsToIdle :=
  fun _ hi => exec_leave_seq hi

end Sys2Proof.Machine

/-! SUPPORT. The statements of the family 43_deinterleaver.md: EXPAND, DEINT and ASM, from what each
operation writes, and COMBINE, bit by bit the inverse of taking line streams. -/

namespace Sys2Proof

/-- The row of an index into a table whose rows have `b` entries. -/
theorem rowIndex_div {b n : Nat} (i : Nat) (h : n < b) : (i * b + n) / b = i := by
  rw [Nat.mul_comm, Nat.mul_add_div (by omega), Nat.div_eq_of_lt h, Nat.add_zero]

/-- An entry of one of `m` rows of `b` entries is in the table. -/
theorem rowIndex_lt {i m b n : Nat} (hi : i < m) (hn : n < b) : i * b + n < m * b :=
  calc i * b + n < (i + 1) * b := by rw [Nat.add_one_mul]; omega
    _ ≤ m * b := Nat.mul_le_mul_right b hi

section
variable {c : Cfg}

/-- A sample slot holds a bit at least (rule R7). -/
theorem Cfg.Valid.slotBits_pos (h : c.Valid) : 0 < c.slotBits := by
  obtain ⟨-, -, -, -, hslot, -⟩ := h
  omega

/-- The entry of the table of CHANMAP that a slot names (rule R7). -/
theorem Cfg.Valid.chanMap_getElem? (h : c.Valid) {i q : Nat} (hi : i < c.nlines) (hq : q < c.cpl) :
    c.chanMap[i * c.cpl + q]? = some (c.chanOf i q) := by
  obtain ⟨-, -, -, -, -, -, -, -, -, -, -, -, -, -, ⟨hlen, -⟩, -⟩ := h
  have hlt : i * c.cpl + q < c.chanMap.length := (rowIndex_lt hi hq).trans_eq hlen.symm
  simp [Cfg.chanOf, List.getD_eq_getElem?_getD, hlt]

/-- CHANMAP names channels (rule R7). -/
theorem Cfg.Valid.chanOf_lt (h : c.Valid) {i q : Nat} (hi : i < c.nlines) (hq : q < c.cpl) :
    c.chanOf i q < c.channels := by
  have hmem := List.mem_of_getElem? (h.chanMap_getElem? hi hq)
  obtain ⟨-, -, -, -, -, -, -, -, -, -, -, -, -, -, ⟨-, -, hrange⟩, -⟩ := h
  exact hrange _ hmem

/-- CHANMAP gives no channel to two slots (rule R7). -/
theorem Cfg.Valid.chanOf_inj (h : c.Valid) {i q i' q' : Nat} (hi : i < c.nlines) (hq : q < c.cpl)
    (hi' : i' < c.nlines) (hq' : q' < c.cpl) (heq : c.chanOf i q = c.chanOf i' q') :
    i = i' ∧ q = q' := by
  have hget := h.chanMap_getElem? hi hq
  have hget' := h.chanMap_getElem? hi' hq'
  obtain ⟨-, -, -, -, -, -, -, -, -, -, -, -, -, -, ⟨hlen, hnodup, -⟩, -⟩ := h
  have hidx : i * c.cpl + q = i' * c.cpl + q' :=
    (List.getElem?_inj ((rowIndex_lt hi hq).trans_eq hlen.symm) hnodup).1 (by
      rw [hget, hget', heq])
  obtain rfl : i = i' := by rw [← rowIndex_div i hq, hidx, rowIndex_div i' hq']
  exact ⟨rfl, Nat.add_left_cancel hidx⟩

/-- By default the earlier word is the more significant (rule R194). -/
theorem Cfg.wordPlaceOf_default {w : Nat} (h : c.wordPlace = Cfg.defaultWordPlace c.wpf)
    (hw : w < c.wpf) : c.wordPlaceOf w = c.wpf - 1 - w := by
  simp [Cfg.wordPlaceOf, h, Cfg.defaultWordPlace, List.getD_eq_getElem?_getD, hw]

/-- The default LINEBIT, for a number of lines that divides a word (rule R190). -/
theorem Cfg.lineBitOf_default {i cyc : Nat} (hn : c.nlines * c.bpl = 32)
    (h : c.lineBit = Cfg.defaultLineBit c.nlines) (hi : i < c.nlines) (hcyc : cyc < c.bpl) :
    c.lineBitOf i cyc = c.nlines * cyc + i := by
  have hlt : i * c.bpl + cyc < 32 := hn ▸ rowIndex_lt hi hcyc
  have hmod : (i * c.bpl + cyc) % c.bpl = cyc := by
    rw [Nat.mul_add_mod_self_right, Nat.mod_eq_of_lt hcyc]
  have hentry : (Cfg.defaultLineBit c.nlines)[i * c.bpl + cyc]? = some
      (c.nlines * ((i * c.bpl + cyc) % c.bpl) + (i * c.bpl + cyc) / c.bpl) := by
    rw [Cfg.defaultLineBit, List.getElem?_map, List.getElem?_range hlt]
    rfl
  rw [Cfg.lineBitOf, h, List.getD_eq_getElem?_getD, hentry, hmod, rowIndex_div i hcyc,
    Option.getD_some]

/-- The lines of a word carry all its bits (rule R7). -/
theorem Cfg.nlines_mul_bpl (h : c.nlines = 1 ∨ c.nlines = 2 ∨ c.nlines = 4) :
    c.nlines * c.bpl = 32 := by
  rcases h with h | h | h <;> simp [Cfg.bpl, h]

end

end Sys2Proof

namespace Sys2Proof.Machine

/-! ### EXPAND (rules R191, R192) -/

/-- Bit 2k of the table entry is bit k of the byte, and every other bit is 0 (rule R191). -/
theorem expTab_getLsbD (b : Byte) (n : Nat) :
    (expTab b).getLsbD n = (decide (n < 16) && decide (n % 2 = 0) && b.getLsbD (n / 2)) := by
  rw [expTab, BitVec.getLsbD_ofNat, natOfBits_testBit]
  by_cases hn : n < 16
  · simp [hn, show n < 32 by omega, beq_eq_decide]
  · simp [hn]

theorem exec_expand_host {s : State} {b : Byte} (hi : s.issuer = .host) (hh : s.halt = false) :
    exec (.expand b) s = .next (s.answerOk (expTab b)) := by
  change execExpand b s = _
  rw [execExpand, hostOp_run _ hi hh]

theorem encode_expand (b : Byte) : encode (.expand b) = 0x30000000#32 ||| b.setWidth 32 := by
  rw [BitVec.setWidth_eq_append (by decide)]
  change (0x300000#24 ++ b : BitVec 32) = (0x300000#24 ++ 0#8) ||| (0#24 ++ b)
  rw [BitVec.or_append, BitVec.or_zero, BitVec.zero_or]

/-- Settles O31: EXPAND answers the table entry. -/
theorem expandSpreadsTheByte : Obligations.ExpandSpreadsTheByte :=
  ⟨encode_expand, fun _ b hi hh => ⟨expTab b, exec_expand_host hi hh, expTab_getLsbD b⟩⟩

/-! ### DEINT (rules R190, R194, R197) -/

theorem exec_deint_seq {s : State} {k : BitVec 16} (hi : s.issuer = .seq)
    (hk : k.toNat < s.cfg.wpf) :
    exec (.deint k) s =
      .next { s with lb := deintBuffers s.cfg s.cw k.toNat s.lb }.advance := by
  change execDeint k s = _
  rw [execDeint, seqOp_run _ hi (by simpa [frameWordLegal] using hk)]

/-- What DEINT leaves in a line's buffer (rule R194). -/
theorem deintBuffers_getElem? {c : Cfg} {cw : Word} {w i v v' : Nat} {lb : List Nat}
    (hv' : (deintBuffers c cw w lb)[i]? = some v') (hv : lb[i]? = some v) :
    v' = depositStream c cw i (c.wordPlaceOf w * c.bpl) v := by
  rw [deintBuffers, List.getElem?_map] at hv'
  obtain ⟨j, hj, rfl⟩ := Option.map_eq_some_iff.1 hv'
  obtain ⟨_, rfl⟩ := List.getElem?_eq_some_iff.1 hj
  simp [List.getD_eq_getElem?_getD, hv]

/-- Settles O32: each line's buffer is the old one with the stream deposited at the word's place. -/
theorem deintFillsTheLineBuffers : Obligations.DeintFillsTheLineBuffers := by
  intro s k hi hk
  refine ⟨_, exec_deint_seq hi hk, rfl, by simp [deintBuffers], fun i v v' hv' hv => ?buffer,
    fun hplace => Cfg.wordPlaceOf_default hplace hk⟩
  case buffer =>
    obtain rfl := deintBuffers_getElem? hv' hv
    refine ⟨natOfBits_lt _ _, fun n hn => ?_⟩
    rw [depositStream, natOfBits_testBit, decide_eq_true hn, Bool.true_and]

/-! ### ASM (rule R195) -/

theorem exec_asm_seq {s : State} {k : BitVec 16} (hi : s.issuer = .seq)
    (hk : k.toNat < s.cfg.frames) :
    exec (.asm k) s =
      .next { s with x := storeSamples s.x k.toNat (frameSlots s.cfg s.lb) }.advance := by
  change execAsm k s = _
  rw [execAsm, seqOp_run _ hi (by simpa [frameLegal] using hk)]

/-- Storing a frame's samples leaves every other frame (rule R195). -/
theorem fileAt_storeSamples_otherFrame {f f' : Nat} (h : f' ≠ f) (ch : Nat) (d : Word)
    (x : List (List Word)) (samples : List (Nat × Word)) :
    fileAt (storeSamples x f samples) ch f' d = fileAt x ch f' d := by
  induction samples generalizing x with
  | nil => rfl
  | cons p rest ih => rw [storeSamples, ih, fileAt_fileSet_other _ _ _ (.inr h)]

/-- A channel all of whose samples in the list are `v` holds `v` after the store, if it is in the
list or held `v` before (rule R195). -/
theorem fileAt_storeSamples {f ch : Nat} {v d : Word} {x : List (List Word)}
    {samples : List (Nat × Word)} (hch : ch < x.length) (hf : ∀ row ∈ x, f < row.length)
    (huniq : ∀ u, (ch, u) ∈ samples → u = v)
    (h : (ch, v) ∈ samples ∨ fileAt x ch f d = v) :
    fileAt (storeSamples x f samples) ch f d = v := by
  induction samples generalizing x with
  | nil => exact h.resolve_left List.not_mem_nil
  | cons p rest ih =>
    obtain ⟨ch', u⟩ := p
    have hf' : ∀ row ∈ fileSet x ch' f u, f < row.length :=
      forall_mem_modify hf fun row hrow => by simpa using hf row (List.mem_of_getElem? hrow)
    refine ih (by simpa using hch) hf' (fun w hw => huniq w (List.mem_cons_of_mem _ hw)) ?_
    by_cases heq : ch = ch'
    · subst heq
      obtain rfl : u = v := huniq u List.mem_cons_self
      exact .inr (fileAt_fileSet_same _ _ (List.getElem?_eq_getElem hch)
        (hf _ (List.getElem_mem hch)))
    · rw [fileAt_fileSet_other _ _ _ (.inl heq)]
      exact h.imp_left fun hmem =>
        (List.mem_cons.1 hmem).resolve_left fun he => heq (congrArg Prod.fst he)

/-- The samples of a frame are those of the slots of its lines (rule R195). -/
theorem mem_frameSlots {c : Cfg} {lines : List Nat} {ch : Nat} {v : Word} :
    (ch, v) ∈ frameSlots c lines ↔
      ∃ i < c.nlines, ∃ q < c.cpl, c.chanOf i q = ch ∧ slotSample c (lines.getD i 0) q = v := by
  simp [frameSlots]

/-- Where CHANMAP is one to one, a slot's sample is the only one of its channel (rules R7, R195). -/
theorem frameSlots_unique {c : Cfg} (hc : c.Valid) {lines : List Nat} {i q : Nat} {u : Word}
    (hi : i < c.nlines) (hq : q < c.cpl) (hu : (c.chanOf i q, u) ∈ frameSlots c lines) :
    u = slotSample c (lines.getD i 0) q := by
  obtain ⟨i', hi', q', hq', hch, rfl⟩ := mem_frameSlots.1 hu
  obtain ⟨rfl, rfl⟩ := hc.chanOf_inj hi' hq' hi hq hch
  rfl

theorem extractField_testBit (v lo width n : Nat) :
    (extractField v lo width).testBit n = (decide (n < width) && v.testBit (lo + n)) := by
  rw [extractField, Nat.testBit_mod_two_pow, Nat.testBit_div_two_pow, Nat.add_comm]

/-- A sample's bits are its slot's, the topmost repeated above them (rule R195). -/
theorem slotSample_getLsbD {c : Cfg} (hc : 0 < c.slotBits) (line q : Nat) {n : Nat} (hn : n < 32) :
    (slotSample c line q).getLsbD n =
      line.testBit (c.fb - (q + 1) * c.slotBits + min n (c.slotBits - 1)) := by
  rw [slotSample, BitVec.getLsbD_signExtend, decide_eq_true hn, Bool.true_and]
  split
  case isTrue hlow =>
    rw [BitVec.getLsbD_ofNat, extractField_testBit, min_eq_left (by omega)]
    simp [hlow]
  case isFalse hhigh =>
    rw [BitVec.msb_eq_getLsbD_last, BitVec.getLsbD_ofNat, extractField_testBit,
      min_eq_right (by omega)]
    simp [hc]

/-- Settles O33: a slot's channel holds its sample, since no other slot has that channel. -/
theorem asmWritesTheSamples : Obligations.AsmWritesTheSamples := by
  intro s k hi hc hs hk
  have hexec := exec_asm_seq hi hk
  refine ⟨_, hexec, rfl, (exec_effect hexec).shaped hs, fun i q hline hq n hn => ?slot,
    fun ch f hf => fileAt_storeSamples_otherFrame hf ch 0 _ _⟩
  case slot =>
    obtain ⟨-, -, -, -, hx, hrow, -⟩ := hs
    have hsample : fileAt (storeSamples s.x k.toNat (frameSlots s.cfg s.lb)) (s.cfg.chanOf i q)
        k.toNat 0 = slotSample s.cfg (s.lb.getD i 0) q :=
      fileAt_storeSamples (hx ▸ hc.chanOf_lt hline hq) (fun row hmem => hrow row hmem ▸ hk)
        (fun _ hu => frameSlots_unique hc hline hq hu)
        (.inl (mem_frameSlots.2 ⟨i, hline, q, hq, rfl, rfl⟩))
    exact hsample ▸ slotSample_getLsbD hc.slotBits_pos _ _ hn

/-! ### COMBINE and the line streams (rules R190, R193) -/

/-- `expand16` puts bit k at bit 2k (rule R193). -/
theorem expand16_getLsbD (v : BitVec 16) (n : Nat) :
    (expand16 v).getLsbD n = (decide (n < 32) && decide (n % 2 = 0) && v.getLsbD (n / 2)) := by
  rw [expand16, BitVec.getLsbD_or, BitVec.getLsbD_shiftLeft, expTab_getLsbD, expTab_getLsbD,
    BitVec.getLsbD_extractLsb', BitVec.getLsbD_extractLsb']
  by_cases hlow : n < 16
  · simp [hlow, show n / 2 < 8 by omega, show n < 32 by omega]
  · by_cases hn : n < 32
    · have hmod : (n - 16) % 2 = n % 2 := by omega
      have hdiv : 8 + (n - 16) / 2 = n / 2 := by omega
      simp [hlow, hn, hmod, hdiv, show n - 16 < 16 by omega, show (n - 16) / 2 < 8 by omega]
    · simp [hlow, hn]

/-- `spread4` puts bit k at bit 4k (rule R193). -/
theorem spread4_getLsbD (b : Byte) (n : Nat) :
    (spread4 b).getLsbD n = (decide (n < 32) && decide (n % 4 = 0) && b.getLsbD (n / 4)) := by
  rw [spread4, expand16_getLsbD, BitVec.getLsbD_extractLsb', expTab_getLsbD, Nat.zero_add,
    Nat.div_div_eq_div_mul]
  by_cases hn : n < 32
  · have hmod : (n % 2 = 0 ∧ n / 2 % 2 = 0) ↔ n % 4 = 0 := by omega
    simp [hn, ← hmod, show n / 2 < 16 by omega, Bool.and_assoc]
  · simp [hn]

/-- A word that holds a stream's bits at the multiples of `m`, moved to line `j`: its bits are those
of line `j` (rule R193). -/
theorem shiftLeft_getLsbD_of_spread {e : Word} {m j n : Nat} {b : Nat → Bool}
    (he : ∀ k, e.getLsbD k = (decide (k < 32) && decide (k % m = 0) && b (k / m))) (hj : j < m)
    (hn : n < 32) : (e <<< j).getLsbD n = (decide (n % m = j) && b (n / m)) := by
  rw [BitVec.getLsbD_shiftLeft, he]
  by_cases hjn : j ≤ n
  · have hmod : (n - j) % m = 0 ↔ n % m = j := by
      rw [← Nat.dvd_iff_mod_eq_zero, ← Nat.modEq_iff_dvd' hjn, Nat.ModEq, Nat.mod_eq_of_lt hj,
        eq_comm]
    by_cases hline : n % m = j
    · have hdiv : (n - j) / m = n / m := by
        rw [Nat.sub_eq_of_eq_add (by rw [← hline, Nat.div_add_mod] : n = m * (n / m) + j)]
        simp [show 0 < m by omega]
      simp [hn, hjn, hmod, hline, hdiv, show n - j < 32 by omega]
    · simp [hmod, hline]
  · have hline : n % m ≠ j := by
      rw [Nat.mod_eq_of_lt (by omega)]
      omega
    simp [hline, show n < j by omega]

/-- Bit n of a packed word is bit n div NLINES of the stream of line n mod NLINES (rule R193). -/
theorem combine_getLsbD {m : Nat} (hm : m = 1 ∨ m = 2 ∨ m = 4) (streams : List Nat) {n : Nat}
    (hn : n < 32) :
    (combine m streams).getLsbD n = (streams.getD (n % m) 0).testBit (n / m) := by
  rcases hm with rfl | rfl | rfl
  case inl =>
    rw [combine, BitVec.getLsbD_ofNat, decide_eq_true hn, Bool.true_and, Nat.mod_one, Nat.div_one]
  case inr.inl =>
    have hline (v : BitVec 16) (j : Nat) (hj : j < 2) :=
      shiftLeft_getLsbD_of_spread (expand16_getLsbD v) hj hn
    simp only [combine, BitVec.getLsbD_or, expand16_getLsbD, hline _ 1 (by omega),
      BitVec.getLsbD_ofNat]
    obtain h | h : n % 2 = 0 ∨ n % 2 = 1 := by omega
    all_goals simp [hn, h, show n / 2 < 16 by omega]
  case inr.inr =>
    have hline (b : Byte) (j : Nat) (hj : j < 4) :=
      shiftLeft_getLsbD_of_spread (spread4_getLsbD b) hj hn
    simp only [combine, BitVec.getLsbD_or, spread4_getLsbD, hline _ 1 (by omega),
      hline _ 2 (by omega), hline _ 3 (by omega), BitVec.getLsbD_ofNat]
    obtain h | h | h | h : n % 4 = 0 ∨ n % 4 = 1 ∨ n % 4 = 2 ∨ n % 4 = 3 := by omega
    all_goals simp [hn, h, show n / 4 < 8 by omega]

section
variable {c : Cfg}

/-- With the default LINEBIT, bit cyc of line i's stream is bit NLINES*cyc + i of the word
(rule R190). -/
theorem lineStream_testBit (hn : c.nlines * c.bpl = 32)
    (h : c.lineBit = Cfg.defaultLineBit c.nlines) {i cyc : Nat} (hi : i < c.nlines) (w : Word) :
    (lineStream c w i).testBit cyc =
      (decide (cyc < c.bpl) && w.getLsbD (c.nlines * cyc + i)) := by
  rw [lineStream, natOfBits_testBit]
  by_cases hcyc : cyc < c.bpl
  · rw [Cfg.lineBitOf_default hn h hi hcyc]
  · simp [hcyc]

/-- The streams of a packed word are the ones packed (rules R190, R193). -/
theorem lineStream_combine (hl : c.nlines = 1 ∨ c.nlines = 2 ∨ c.nlines = 4)
    (h : c.lineBit = Cfg.defaultLineBit c.nlines) {streams : List Nat} {i : Nat} (hi : i < c.nlines)
    (hlt : streams.getD i 0 < 2 ^ c.bpl) :
    lineStream c (combine c.nlines streams) i = streams.getD i 0 := by
  have hn := Cfg.nlines_mul_bpl hl
  refine Nat.eq_of_testBit_eq fun cyc => ?_
  rw [lineStream_testBit hn h hi]
  by_cases hcyc : cyc < c.bpl
  · have hbit : c.nlines * cyc + i < 32 := by
      rw [← hn, Nat.mul_comm c.nlines cyc, Nat.mul_comm c.nlines c.bpl]
      exact rowIndex_lt hcyc hi
    rw [combine_getLsbD hl _ hbit, Nat.mul_add_mod, Nat.mod_eq_of_lt hi, Nat.mul_add_div (by omega),
      Nat.div_eq_of_lt hi]
    simp [hcyc]
  · have hle : 2 ^ c.bpl ≤ 2 ^ cyc := Nat.pow_le_pow_right (by omega) (by omega)
    rw [decide_eq_false hcyc, Bool.false_and, Nat.testBit_lt_two_pow (Nat.lt_of_lt_of_le hlt hle)]

/-- Packing the streams of a word gives the word (rules R190, R193). -/
theorem combine_lineStreams (hl : c.nlines = 1 ∨ c.nlines = 2 ∨ c.nlines = 4)
    (h : c.lineBit = Cfg.defaultLineBit c.nlines) (w : Word) :
    combine c.nlines ((List.range c.nlines).map (lineStream c w)) = w := by
  have hn := Cfg.nlines_mul_bpl hl
  refine BitVec.eq_of_getLsbD_eq fun n hlt => ?_
  have hline : n % c.nlines < c.nlines := Nat.mod_lt _ (by omega)
  have hcyc : n / c.nlines < c.bpl := Nat.div_lt_of_lt_mul (hn ▸ hlt)
  rw [combine_getLsbD hl _ hlt]
  simp [List.getD_eq_getElem?_getD, hline, lineStream_testBit hn h hline, hcyc, Nat.div_add_mod]

end

/-- Settles O34, the streams line by line and the word bit by bit. -/
theorem lineStreamsInvertCombine : Obligations.LineStreamsInvertCombine := by
  intro c hl h
  refine ⟨fun streams hlen hlt => ?streams, combine_lineStreams hl h⟩
  case streams =>
    refine List.ext_getElem (by simp [hlen]) fun i hi hi' => ?_
    have hget : streams.getD i 0 = streams[i] := by simp [List.getD_eq_getElem?_getD, hi']
    rw [List.getElem_map, List.getElem_range, ← hget]
    exact lineStream_combine hl h (hlen ▸ hi') (hget ▸ hlt _ (List.getElem_mem hi'))

end Sys2Proof.Machine

/-! SUPPORT. The statements of the family 44_fir_upsampler.md: HSH and HPU, from what the sequencer's run of
each is, and FIRBLK, whose output samples depend on TAPS entries of the window each. -/

namespace Sys2Proof

/-- The clamp range holds 0 (rule R7). -/
theorem Cfg.Valid.clamp_range_zero {c : Cfg} (h : c.Valid) : c.clampLo ≤ 0 ∧ 0 ≤ c.clampHi := by
  obtain ⟨-, -, -, -, -, -, -, -, -, -, -, -, hzero, -⟩ := h
  exact hzero

end Sys2Proof

namespace Sys2Proof.Machine

/-! ### HSH (rules R213, R294) -/

@[simp] theorem shiftWindow_length (c : Cfg) (old : List Int) :
    (shiftWindow c old).length = old.length := by
  simp [shiftWindow]

/-- The front of a shifted window is the snapshot's entries FRAMES on (rule R213). -/
theorem shiftWindow_getElem?_front {c : Cfg} {old : List Int}
    (hlen : old.length = c.taps - 1 + c.frames) {i : Nat} (hi : i < c.taps - 1) :
    (shiftWindow c old)[i]? = old[c.frames + i]? := by
  have hfrom : c.frames + i < old.length := by omega
  have hto : i < old.length := by omega
  simp [shiftWindow, hi, hfrom, hto]

theorem shiftWindow_getElem?_back {c : Cfg} {old : List Int} {i : Nat} (hi : c.taps - 1 ≤ i) :
    (shiftWindow c old)[i]? = old[i]? := by
  simp [shiftWindow, Nat.not_lt.2 hi]

/-- Settles O35: the new window is the shifted one, entry by entry. -/
theorem hshShiftsFromASnapshot : Obligations.HshShiftsFromASnapshot := by
  intro s ch row hi hch hrow hlen
  refine ⟨shiftWindow s.cfg row, ?_, shiftWindow_length _ _,
    fun _ => shiftWindow_getElem?_front hlen, fun _ => shiftWindow_getElem?_back⟩
  rw [exec_hsh_seq hi hch, modify_eq_set_of_getElem? _ hrow]
  rfl

/-! ### HPU (rules R211, R214) -/

theorem prescale_eq (x : Word) : prescale x = x.toInt / 256 := rfl

/-- Settles O36: the entry written is PRESCALE of the sample, a floor division by 256. -/
theorem hpuPushesThePrescaledSample : Obligations.HpuPushesThePrescaledSample := by
  intro s ch m row xs x hi hch hm hrow hxs hx
  have hsample : fileAt s.x ch.toNat m.toNat 0 = x := by
    simp [fileAt, List.getD_eq_getElem?_getD, hxs, hx]
  refine ⟨prescale x, ?next, ?floor⟩
  case next =>
    rw [exec_hpu_seq hi hch hm, hsample, fileSet, modify_eq_set_of_getElem? _ hrow]
    rfl
  case floor =>
    rw [prescale_eq]
    omega

/-! ### The clamp -/

section
variable {z lo hi : Int}

theorem clamp_of_lt (h : z < lo) : clamp z lo hi = lo := if_pos h

theorem clamp_of_gt (hle : lo ≤ hi) (h : hi < z) : clamp z lo hi = hi := by
  rw [clamp, if_neg (by omega), if_pos h]

theorem clamp_of_mem (hlo : lo ≤ z) (hhi : z ≤ hi) : clamp z lo hi = z := by
  rw [clamp, if_neg (by omega), if_neg (by omega)]

end

/-! ### The sum of an output sample (rules R215, R232) -/

section
variable {c : Cfg} {p : Phase} {w w' : List Int} {m m' : Nat}

theorem firSum_eq_sum (c : Cfg) (p : Phase) (w : List Int) (m n : Nat) :
    firSum c p w m n = ∑ j ∈ Finset.range n, c.coeff p j * w.getD (c.taps - 1 + m - j) 0 := by
  induction n with
  | zero => rfl
  | succ n ih => rw [firSum, ih, Finset.sum_range_succ]

/-- An output sample depends on its TAPS entries of the window alone. -/
theorem firOut_congr (h : ∀ j < c.taps,
    w.getD (c.taps - 1 + m - j) 0 = w'.getD (c.taps - 1 + m' - j) 0) :
    firOut c p w m = firOut c p w' m' := by
  have hsum : firSum c p w m c.taps = firSum c p w' m' c.taps := by
    rw [firSum_eq_sum, firSum_eq_sum]
    exact Finset.sum_congr rfl fun j hj => by rw [h j (Finset.mem_range.1 hj)]
  rw [firOut, firOut, hsum]

/-- Later samples do not reach back into an output sample. -/
theorem firOut_append (v : List Int) (hm : c.taps - 1 + m < w.length) :
    firOut c p (w ++ v) m = firOut c p w m :=
  firOut_congr fun j _ => List.getD_append _ _ _ _ (by omega)

/-- An output sample does not reach before the window's entry of its own frame. -/
theorem firOut_drop (a : Nat) : firOut c p (w.drop a) m = firOut c p w (a + m) :=
  firOut_congr fun j hj => by
    have hplace : a + (c.taps - 1 + m - j) = c.taps - 1 + (a + m) - j := by omega
    rw [List.getD_eq_getElem?_getD, List.getElem?_drop, hplace, List.getD_eq_getElem?_getD]

end

/-! ### Filtering in chunks (rule R216) -/

/-- FRAMES is no parameter of FIRBLK: a block is as long as its samples (rule R215). -/
theorem firBlk_frames (c : Cfg) (frames : Nat) : firBlk { c with frames := frames } = firBlk c := by
  funext hist xs
  simp only [firBlk, firOut, firSum_eq_sum]
  rfl

theorem firChunks_frames (c : Cfg) (frames : Nat) (hist : List Int) (chunks : List (List Word)) :
    firChunks { c with frames := frames } hist chunks = firChunks c hist chunks := by
  induction chunks generalizing hist with
  | nil => rfl
  | cons xs rest ih => simp only [firChunks, firBlk_frames, ih]

theorem outputSamples_add (a b : Nat) :
    outputSamples (a + b) = outputSamples a ++ (outputSamples b).map fun i => (i.1, a + i.2) := by
  simp [outputSamples, List.range_add, List.flatMap_map, List.map_flatMap]

section
variable {c : Cfg} {hist : List Int}

/-- The new DelayLine is what is left of the window once as many entries are dropped as samples were fed
(rule R215). -/
theorem firBlk_snd (hh : hist.length = c.taps - 1) (xs : List Word) :
    (firBlk c hist xs).2 = (hist ++ xs.map prescale).drop xs.length := by
  simp [firBlk, hh]

theorem firBlk_snd_length (hh : hist.length = c.taps - 1) (xs : List Word) :
    (firBlk c hist xs).2.length = c.taps - 1 := by
  simp [firBlk_snd hh, hh]

theorem firBlk_nil (hh : hist.length = c.taps - 1) : firBlk c hist [] = ([], hist) :=
  Prod.ext rfl (by simp [firBlk_snd hh])

/-- The window of a second block, its DelayLine and its samples, is the end of the joint window. -/
theorem firBlk_window_append (hh : hist.length = c.taps - 1) (xs ys : List Word) :
    (firBlk c hist xs).2 ++ ys.map prescale = (hist ++ (xs ++ ys).map prescale).drop xs.length := by
  have hle : xs.length ≤ (hist ++ xs.map prescale).length := by simp
  rw [firBlk_snd hh, List.map_append, ← List.append_assoc, List.drop_append_of_le_length hle]

theorem firBlk_append_fst (hh : hist.length = c.taps - 1) (xs ys : List Word) :
    (firBlk c hist (xs ++ ys)).1 =
      (firBlk c hist xs).1 ++ (firBlk c (firBlk c hist xs).2 ys).1 := by
  rw [firBlk_outputs, firBlk_outputs, firBlk_outputs, List.length_append, outputSamples_add,
    List.map_append, List.map_map]
  congr 1
  · refine List.map_congr_left fun i hi => ?_
    have hframe := outputSamples_frame_lt hi
    rw [List.map_append, ← List.append_assoc]
    exact firOut_append _ (by simp [hh, hframe])
  · refine List.map_congr_left fun i _ => ?_
    rw [firBlk_window_append hh, firOut_drop, Function.comp_apply]

theorem firBlk_append_snd (hh : hist.length = c.taps - 1) (xs ys : List Word) :
    (firBlk c hist (xs ++ ys)).2 = (firBlk c (firBlk c hist xs).2 ys).2 := by
  rw [firBlk_snd hh, firBlk_snd (firBlk_snd_length hh xs), firBlk_window_append hh, List.drop_drop,
    List.length_append]

/-- Two blocks in a row are one block (rule R216). -/
theorem firBlk_append (hh : hist.length = c.taps - 1) (xs ys : List Word) :
    firBlk c hist (xs ++ ys) =
      ((firBlk c hist xs).1 ++ (firBlk c (firBlk c hist xs).2 ys).1,
        (firBlk c (firBlk c hist xs).2 ys).2) :=
  Prod.ext (firBlk_append_fst hh xs ys) (firBlk_append_snd hh xs ys)

theorem firChunks_eq_firBlk (hh : hist.length = c.taps - 1) (chunks : List (List Word)) :
    firChunks c hist chunks = firBlk c hist chunks.flatten := by
  induction chunks generalizing hist with
  | nil => exact (firBlk_nil hh).symm
  | cons xs rest ih =>
    rw [firChunks, ih (firBlk_snd_length hh xs), List.flatten_cons, firBlk_append hh]

end

/-- Settles O37: FRAMES plays no part, and the chunks join one after another. -/
theorem chunkedFilteringIsSeamless : Obligations.ChunkedFilteringIsSeamless :=
  fun c frames hist chunks hh =>
    (firChunks_frames c frames hist chunks).trans (firChunks_eq_firBlk hh chunks)

/-! ### One output sample of FIRBLK (rules R215, R219) -/

theorem outputSamples_getElem?_sampleIndex {frames : Nat} {i : Phase × Nat} (h : i.2 < frames) :
    (outputSamples frames)[sampleIndex i]? = some i := by
  have hlt : sampleIndex i < (outputSamples frames).length :=
    outputSamples_length frames ▸ sampleIndex_lt h
  have hget := List.getElem?_eq_getElem hlt
  rw [hget, sampleIndex_inj (outputSamples_getElem? hget).1.symm]

theorem firBlk_getElem? (c : Cfg) (hist : List Int) {xs : List Word} {m : Nat} (p : Phase)
    (hm : m < xs.length) : (firBlk c hist xs).1[2 * m + phaseIndex p]? =
      some (firOut c p (hist ++ xs.map prescale) m) := by
  have hsample : (outputSamples xs.length)[2 * m + phaseIndex p]? = some (p, m) :=
    outputSamples_getElem?_sampleIndex (i := (p, m)) hm
  rw [firBlk_outputs, List.getElem?_map, hsample, Option.map_some]

/-! ### The impulse (rule R218) -/

/-- The window that an impulse is filtered in. -/
def impulseWindow (place after : Nat) (a : Int) : List Int :=
  List.replicate place 0 ++ a :: List.replicate after 0

theorem impulseWindow_eq (n before after : Nat) (u : Word) :
    List.replicate n 0 ++ (List.replicate before 0 ++ u :: List.replicate after 0).map prescale =
      impulseWindow (n + before) after (prescale u) := by
  have hzero : prescale 0#32 = 0 := rfl
  simp [impulseWindow, hzero, ← List.append_assoc]

theorem impulseWindow_getD (place after : Nat) (a : Int) (i : Nat) :
    (impulseWindow place after a).getD i 0 = if i = place then a else 0 := by
  obtain hi | rfl | hi := Nat.lt_trichotomy i place
  · rw [impulseWindow, List.getD_append _ _ _ _ (by simpa using hi), List.getD_eq_getElem?_getD,
      List.getElem?_getD_replicate_default_eq, if_neg hi.ne]
  · simp [impulseWindow]
  · obtain ⟨k, rfl⟩ := Nat.exists_eq_add_of_lt hi
    rw [impulseWindow, List.getD_append_right _ _ _ _ (by simp; omega), List.length_replicate,
      Nat.add_assoc, Nat.add_sub_cancel_left, List.getD_cons_succ,
      List.getD_eq_getElem?_getD, List.getElem?_getD_replicate_default_eq, if_neg (by omega)]

section
variable {c : Cfg} {before n : Nat}

/-- The one product that is not 0 is the coefficient of the impulse's distance (rule R218). -/
theorem firSum_impulse (p : Phase) (after : Nat) (a : Int) :
    firSum c p (impulseWindow (c.taps - 1 + before) after a) n c.taps =
      if before ≤ n ∧ n - before < c.taps then c.coeff p (n - before) * a else 0 := by
  have hplace : ∀ j ∈ Finset.range c.taps,
      c.taps - 1 + n - j = c.taps - 1 + before ↔ before ≤ n ∧ j = n - before := by
    intro j hj
    have := Finset.mem_range.1 hj
    omega
  simp only [firSum_eq_sum, impulseWindow_getD]
  rw [Finset.sum_congr rfl fun j hj => by rw [if_congr (hplace j hj) rfl rfl]]
  by_cases hn : before ≤ n <;> simp [hn]

end

/-- Settles O38: an output sample is the clamp of one product, or of an empty sum. -/
theorem impulseReproducesTheKernels : Obligations.ImpulseReproducesTheKernels := by
  intro c before after u hc out n p hn
  rw [firBlk_getElem? c _ p (by simp; omega), impulseWindow_eq,
    firOut, firSum_impulse]
  have hzero : clamp 0 c.clampLo c.clampHi = 0 :=
    clamp_of_mem hc.clamp_range_zero.1 hc.clamp_range_zero.2
  split
  · rfl
  · rw [hzero, Int.zero_mul]

/-! ### Saturation (rules R215, R219, R230) -/

theorem firSum_eq_list_sum (c : Cfg) (p : Phase) (w : List Int) (m n : Nat) :
    firSum c p w m n =
      ((List.range n).map fun j => c.coeff p j * w.getD (c.taps - 1 + m - j) 0).sum :=
  firSum_eq_sum c p w m n

/-- Settles O39: an output sample is the clamp of the exact sum, scaled. -/
theorem saturationGivesTheBoundary : Obligations.SaturationGivesTheBoundary := by
  intro c hist xs m p hc _ hm w acc
  have hacc : firSum c p w m c.taps = acc := firSum_eq_list_sum c p w m c.taps
  obtain ⟨hlo, hhi⟩ := hc.clamp_range_zero
  obtain ⟨hmin, hmax⟩ := hc.scaled_clamp_range acc
  refine ⟨clamp acc c.clampLo c.clampHi * 2 ^ c.outShift, ?out, fun h => ?above, fun h => ?below,
    fun h h' => ?inside, hmin, by omega⟩
  case out => rw [← hacc]; exact firBlk_getElem? c hist p hm
  case above => rw [clamp_of_gt (hlo.trans hhi) h]
  case below => rw [clamp_of_lt h]
  case inside => rw [clamp_of_mem h h']

end Sys2Proof.Machine

/-! SUPPORT. The statements of the family 45_mac_pipeline.md: CLR, MAC, SAT and SHL, from what the
sequencer's run of each is. -/

namespace Sys2Proof.Machine

/-! ### CLR (rule R231) -/

/-- Settles O40: the next state is that of CLR run by the sequencer, for each phase. -/
theorem clrClearsTheAccumulator : Obligations.ClrClearsTheAccumulator :=
  ⟨by decide, by decide, fun _ hi => ⟨exec_clr_seq hi, exec_clr_seq hi⟩⟩

/-! ### MAC (rule R232) -/

/-- The product MAC adds, from the window entry and the coefficient it reads. -/
theorem macTerm_eq {s : State} {p : Phase} {ch : BitVec 7} {m j : BitVec 8} {row : List Int} {v k : Int}
    (hrow : s.h[ch.toNat]? = some row)
    (hv : row[s.cfg.taps - 1 + m.toNat - j.toNat]? = some v)
    (hk : s.cfg.coeff p j.toNat = k) : macTerm p ch m j s = k * v := by
  simp [macTerm, fileAt, List.getD_eq_getElem?_getD, hrow, hv, hk]

/-- Settles O41: MAC run by the sequencer adds `macTerm`, with K0 in phase 0 and K1 in phase 1. -/
theorem macAccumulatesExactly : Obligations.MacAccumulatesExactly := by
  intro s ch m j row v k0 k1 hi hch hm hj hrow hv hk0 hk1
  have hcoeff0 : s.cfg.coeff .zero j.toNat = k0 := by
    simp [Cfg.coeff, List.getD_eq_getElem?_getD, hk0]
  have hcoeff1 : s.cfg.coeff .one j.toNat = k1 := by
    simp [Cfg.coeff, List.getD_eq_getElem?_getD, hk1]
  rw [exec_mac_seq hi hch hm hj, exec_mac_seq hi hch hm hj, macTerm_eq hrow hv hcoeff0,
    macTerm_eq hrow hv hcoeff1]
  exact ⟨rfl, rfl⟩

/-! ### SAT (rule R233) -/

theorem clamp_eq_max_min {lo hi : Int} (h : lo ≤ hi) (z : Int) :
    clamp z lo hi = max lo (min z hi) := by
  obtain hlt | hle := lt_or_ge z lo
  · rw [clamp_of_lt hlt, max_eq_left ((min_le_left z hi).trans hlt.le)]
  obtain hgt | hle' := lt_or_ge hi z
  · rw [clamp_of_gt h hgt, min_eq_right hgt.le, max_eq_right h]
  · rw [clamp_of_mem hle hle', min_eq_left hle', max_eq_right hle]

/-- Settles O42: SAT run by the sequencer clamps the accumulator of its phase. -/
theorem satClampsTheAccumulator : Obligations.SatClampsTheAccumulator := by
  intro s hi hrange
  rw [exec_sat_seq hi, exec_sat_seq hi, clamp_eq_max_min hrange, clamp_eq_max_min hrange]
  exact ⟨rfl, rfl⟩

/-! ### SHL (rule R234) -/

/-- A value of the clamp range loses no bit when it is scaled (rules R7, R234). -/
theorem toInt_scaled_of_mem {c : Cfg} (hc : c.Valid) {z : Int} (hlo : c.clampLo ≤ z)
    (hhi : z ≤ c.clampHi) : (BitVec.ofInt 32 (z * 2 ^ c.outShift)).toInt = z * 2 ^ c.outShift := by
  have hrange := hc.scaled_clamp_range z
  rw [clamp_of_mem hlo hhi] at hrange
  exact BitVec.toInt_ofInt_eq_self (by norm_num) hrange.1 (by norm_num; omega)

/-- Settles O43: the word written is the pattern of the scaled accumulator, an `i32`. -/
theorem shlRestoresTheScale : Obligations.ShlRestoresTheScale := by
  intro s p hi hc hlo hhi
  refine ⟨BitVec.ofInt 32 (s.acc.get p * 2 ^ s.cfg.outShift), ?next, toInt_scaled_of_mem hc hlo hhi⟩
  case next =>
    rw [exec_shl_seq hi]
    cases p <;> rfl

end Sys2Proof.Machine

/-! SUPPORT. The statement of the family 60_exceptions.md: the fault entry sequence, from what `raiseFault`
is outside HALT and in it. -/

namespace Sys2Proof.Machine

/-! ### The fault entry sequence (rules R261, R262) -/

/-- Settles O8: the first fault is `raiseFault_first`, its number read off the table of rule R261 code by
code; in HALT it is `raiseFault_halted`. -/
theorem raiseFaultRecordsAndHalts : Obligations.RaiseFaultRecordsAndHalts := by
  refine ⟨fun code s running => ?first, fun code s halted => raiseFault_halted code halted⟩
  case first => cases code <;> exact raiseFault_first _ running

end Sys2Proof.Machine
